-- ==== Sys2Proof/Word.lean ====
section
/-! DEFINITION. The word types of the block and the four-entry table indexed by core number. -/

namespace Sys2Proof

/-- A 32-bit byte address (rule R60). -/
abbrev Addr := BitVec 32

/-- The 32-bit tag field of a line (rule R22). -/
abbrev Tag := BitVec 32

/-- A 64-bit counter or LRU stamp (rules R22, R28, R29, R43). -/
abbrev Count := BitVec 64

/-- A processor request word, 33 bits (rule R88). -/
abbrev ReqWord := BitVec 33

/-- A bus command word, 37 bits (rule R91). -/
abbrev BusWord := BitVec 37

/-- A core identifier, 0 to 3 (rules R87, R212). -/
abbrev CoreId := Fin 4

/-- The cores in ascending index order, the order of every loop of the spec (rule R11). -/
def allCores : List CoreId := [0, 1, 2, 3]

/-- One value per core: `cache[c]`, `stats[c]`, `pc[c]`, … (rule R212). -/
structure Quad (α : Type) where
  c0 : α
  c1 : α
  c2 : α
  c3 : α
deriving DecidableEq, Repr

variable {α : Type}

/-- The entry of core `c`. -/
def Quad.get (q : Quad α) (c : CoreId) : α :=
  match c with
  | 0 => q.c0
  | 1 => q.c1
  | 2 => q.c2
  | 3 => q.c3

/-- The table with the entry of core `c` replaced. -/
def Quad.set (q : Quad α) (c : CoreId) (x : α) : Quad α :=
  match c with
  | 0 => { q with c0 := x }
  | 1 => { q with c1 := x }
  | 2 => { q with c2 := x }
  | 3 => { q with c3 := x }

/-- The same entry for every core. -/
def Quad.rep (x : α) : Quad α := ⟨x, x, x, x⟩

end Sys2Proof
end

