-- ==== Sys2Proof/Config.lean ====
section
/-! DEFINITION. The configuration (rules R6, R20) and the one parameter the spec leaves open (D55). -/

namespace Sys2Proof

/-- The accepted configuration: set-index bits, lines per set, block-offset bits (rule R6). The other
configuration registers are fixed by the source or derived (rules R6, R7, R9): see Machine/Params.lean. -/
structure Config where
  /-- Set-index bits. -/
  s : Nat
  /-- Lines per set. -/
  E : Nat
  /-- Block-offset bits. -/
  b : Nat
deriving DecidableEq, Repr

/-- The configuration as the environment supplies it, before it is checked: three integers (rules R8, R101). -/
structure RawConfig where
  s : Int
  E : Int
  b : Int
deriving DecidableEq, Repr

/-- Whether the report's KB is 1024 bytes rather than 1000: the OPEN parameter `KB_UNIT` of decision D55
(item I12). It has no body: no proof can use its value. Only the report reads it (log 16). -/
opaque Config.kbUnitIs1024 : Bool

end Sys2Proof
end

