-- ==== Sys2Proof/Machine/Params.lean ====
section
/-! DEFINITION. The fixed and derived configuration registers and the legality of a configuration. -/

namespace Sys2Proof

/-- The number of cores and caches (rules R6, R9). -/
def numCores : Nat := 4

/-- The latency of a memory fetch or writeback phase, in ticks (rules R6, R9). -/
def memoryCycles : Nat := 100

/-- `block_size = B = 2^b` bytes (rule R6). -/
def Config.blockSize (cfg : Config) : Nat := 2 ^ cfg.b

/-- `bus_cycles = floor(2 · 2^b / 4)`, the latency of a cache-to-cache transfer (rule R7). -/
def Config.busCycles (cfg : Config) : Nat := 2 * 2 ^ cfg.b / 4

/-- The number of sets of a cache (rule R27). -/
def Config.numSets (cfg : Config) : Nat := 2 ^ cfg.s

/-- The configuration is one the block accepts (rule R8). -/
def Config.legal (cfg : Config) : Bool := decide (1 ≤ cfg.E) && decide (cfg.s + cfg.b ≤ 32)

/-- The supplied integers are a configuration the block accepts (rules R8, R197). -/
def RawConfig.legal (r : RawConfig) : Bool :=
  decide (1 ≤ r.E) && decide (0 ≤ r.s) && decide (0 ≤ r.b) && decide (r.s + r.b ≤ 32)

/-- The configuration registers loaded from accepted integers (rule R225). -/
def RawConfig.toConfig (r : RawConfig) : Config := { s := r.s.toNat, E := r.E.toNat, b := r.b.toNat }

/-- The integers of a configuration, as the environment supplies them. -/
def Config.toRaw (cfg : Config) : RawConfig := { s := cfg.s, E := cfg.E, b := cfg.b }

/-- `KB_UNIT`, 1000 or 1024 bytes (decision D55, log 16). -/
def Config.kbUnit : Nat := if Config.kbUnitIs1024 then 1024 else 1000

end Sys2Proof
end

