-- ==== Sys2Proof/Syntax.lean ====
section
/-! DEFINITION. The seven commands of the block (spec/opcode_table.json, decision D1), the enumerations
their words hold, and the two word formats. -/

namespace Sys2Proof

/-- The MESI state of a line (rules R22, R85). -/
inductive Mesi where
  | invalid
  | exclusive
  | shared
  | modified
deriving DecidableEq, Repr

/-- The bus request type (rules R35, R86). -/
inductive ReqType where
  | busRd
  | busRdX
  | busUpgr
  | flush
deriving DecidableEq, Repr

/-- The commands: two processor requests, taken from a trace, and five bus commands, put on the bus by the
block itself. A request names no core (rule R88): it belongs to the core whose trace holds it. A bus command
names its source core `c` and the demand address `a` (rule R91). -/
inductive Instr where
  /-- PrRd (rules R89, R136). -/
  | prRd (a : Addr)
  /-- PrWr (rules R90, R137). -/
  | prWr (a : Addr)
  /-- BusRd (rules R92, R169). -/
  | busRd (c : CoreId) (a : Addr)
  /-- BusRdX (rules R93, R170). -/
  | busRdX (c : CoreId) (a : Addr)
  /-- BusUpgr (rules R94, R171). -/
  | busUpgr (c : CoreId) (a : Addr)
  /-- Flush, eviction writeback (rules R95, R172). -/
  | flushEvict (c : CoreId) (a : Addr)
  /-- Flush, intervention writeback (rules R96, R173). -/
  | flushInterv (c : CoreId) (a : Addr)
deriving DecidableEq, Repr

/-- An encoded command: a request word or a bus word (rule R108: the two lengths are fixed). -/
inductive CommandWord where
  | req (w : ReqWord)
  | bus (w : BusWord)
deriving DecidableEq, Repr

/-- The fields of a bus command word before it is checked (rule R91). -/
structure BusFields where
  /-- `X`, the evict bit. -/
  x : Bool
  /-- `T`, the request type. -/
  t : ReqType
  /-- `C`, the source core. -/
  c : CoreId
  /-- `A`, the address. -/
  a : Addr
deriving DecidableEq, Repr

end Sys2Proof
end

