-- ==== Sys2Proof/WellFormed.lean ====
section
/-! DEFINITION. Well-formedness of what enters the block: commands, bus word fields, traces, configurations. -/

namespace Sys2Proof

/-- A command is well-formed. Its operands are an address of 32 bits and a core number below 4, which their
types already say, and the spec puts no further condition on either (rules R66, R70, R87, R97). -/
def Instr.wf (i : Instr) : Bool :=
  match i with
  | .prRd _ => true
  | .prWr _ => true
  | .busRd _ _ => true
  | .busRdX _ _ => true
  | .busUpgr _ _ => true
  | .flushEvict _ _ => true
  | .flushInterv _ _ => true

/-- The fields of a bus word are not one of the reserved patterns `X = 1`, `T ≠ 11` (rule R97, item I1). -/
def BusFields.wf (f : BusFields) : Bool := !f.x || decide (f.t = .flush)

/-- A number is a request word: 33 bits (rules R88, R108). -/
def reqWordFits (w : Nat) : Bool := decide (w < 2 ^ 33)

/-- A number is a bus word: 37 bits (rules R91, R108). -/
def busWordFits (w : Nat) : Bool := decide (w < 2 ^ 37)

/-- A trace has fewer than 2^64 records, so that its core's program counter fits the 64 bits that store it
(rules R43, R199). -/
def traceFits (t : List ReqWord) : Bool := decide (t.length < 2 ^ 64)

end Sys2Proof
end

