-- ==== Sys2Proof/Decode.lean ====
section
/-! DEFINITION. The decoder of request words and bus words (30_encoding.md), and the encoder after it. -/

namespace Sys2Proof

/-- The 2-bit code of a MESI state (rule R85). -/
def Mesi.code (m : Mesi) : BitVec 2 :=
  match m with
  | .invalid => 0b00#2
  | .exclusive => 0b01#2
  | .shared => 0b10#2
  | .modified => 0b11#2

/-- The MESI state of a 2-bit code; no code is reserved (rule R85). -/
def Mesi.ofCode (v : BitVec 2) : Mesi :=
  match v.toNat with
  | 0 => .invalid
  | 1 => .exclusive
  | 2 => .shared
  | _ => .modified

/-- The 2-bit code of a bus request type (rule R86). -/
def ReqType.code (t : ReqType) : BitVec 2 :=
  match t with
  | .busRd => 0b00#2
  | .busRdX => 0b01#2
  | .busUpgr => 0b10#2
  | .flush => 0b11#2

/-- The bus request type of a 2-bit code (rule R86). -/
def ReqType.ofCode (v : BitVec 2) : ReqType :=
  match v.toNat with
  | 0 => .busRd
  | 1 => .busRdX
  | 2 => .busUpgr
  | _ => .flush

/-- Why a decoder refuses a word. -/
inductive DecodeError where
  /-- A bus word with `X = 1` and `T ≠ 11` (rule R97). -/
  | reservedBusWord
deriving DecidableEq, Repr

/-- What a decoder answers. -/
inductive Decoded where
  | instr (i : Instr)
  | refused (e : DecodeError)
deriving DecidableEq, Repr

/-- The request decoder: bit 32 is `W`, bits 31..0 the address; every word is legal (rules R88–R90, R97). -/
def decodeReq (w : ReqWord) : Instr :=
  if w.getLsbD 32 then .prWr (w.extractLsb' 0 32) else .prRd (w.extractLsb' 0 32)

/-- The fields of a bus word: `X` bit 36, `T` bits 35..34, `C` bits 33..32, `A` bits 31..0 (rule R91). -/
def busFields (w : BusWord) : BusFields :=
  { x := w.getLsbD 36
    t := ReqType.ofCode (w.extractLsb' 34 2)
    c := (w.extractLsb' 32 2).toFin
    a := w.extractLsb' 0 32 }

/-- The command of unreserved bus word fields (rules R92–R96). -/
def BusFields.command (f : BusFields) : Instr :=
  match f.t with
  | .busRd => .busRd f.c f.a
  | .busRdX => .busRdX f.c f.a
  | .busUpgr => .busUpgr f.c f.a
  | .flush => if f.x then .flushEvict f.c f.a else .flushInterv f.c f.a

/-- The bus word decoder (rules R92–R97). -/
def decodeBus (w : BusWord) : Decoded :=
  if (busFields w).wf then .instr (busFields w).command else .refused .reservedBusWord

/-- The decoder of either format. -/
def decode (w : CommandWord) : Decoded :=
  match w with
  | .req w => .instr (decodeReq w)
  | .bus w => decodeBus w

/-- The request word with write bit `W` and address `a` (rule R88). -/
def packReq (w : Bool) (a : Addr) : ReqWord := BitVec.ofBool w ++ a

/-- The bus word of the four fields `X`, `T`, `C`, `A` (rule R91). -/
def packBus (f : BusFields) : BusWord :=
  BitVec.ofBool f.x ++ f.t.code ++ (BitVec.ofFin f.c : BitVec 2) ++ f.a

/-- The word of a command (rules R89, R90, R92–R96). -/
def encode (i : Instr) : CommandWord :=
  match i with
  | .prRd a => .req (packReq false a)
  | .prWr a => .req (packReq true a)
  | .busRd c a => .bus (packBus { x := false, t := .busRd, c := c, a := a })
  | .busRdX c a => .bus (packBus { x := false, t := .busRdX, c := c, a := a })
  | .busUpgr c a => .bus (packBus { x := false, t := .busUpgr, c := c, a := a })
  | .flushEvict c a => .bus (packBus { x := true, t := .flush, c := c, a := a })
  | .flushInterv c a => .bus (packBus { x := false, t := .flush, c := c, a := a })

/-- The format of an opcode-table word given as `nbits` bits. The table's two formats have 33 and 37 bits
(rule R108). Rounded up to whole bytes both have 40: a word that fits 33 bits is then read as a request
and a wider one as a bus word (log 5). `none` where the number fits neither. -/
def tableWord (nbits w : Nat) : Option CommandWord :=
  if nbits ≤ 33 then
    if reqWordFits w then some (.req (BitVec.ofNat 33 w)) else none
  else if nbits < 40 then
    if busWordFits w then some (.bus (BitVec.ofNat 37 w)) else none
  else if reqWordFits w then some (.req (BitVec.ofNat 33 w))
  else if busWordFits w then some (.bus (BitVec.ofNat 37 w))
  else none

/-- The command the decoder reads from an opcode-table word, `none` where it refuses. -/
def decodeTableWord (nbits w : Nat) : Option Instr :=
  match tableWord nbits w with
  | none => none
  | some cw =>
    match decode cw with
    | .instr i => some i
    | .refused _ => none

end Sys2Proof
end

