-- ==== Sys2Proof/Machine/State.lean ====
section
/-! DEFINITION. The state of the block as plain data (10_state.md), the reasons a step can stop, and reset. -/

namespace Sys2Proof.Machine

/-- A CacheLine (rule R22). -/
structure Line where
  tag : Tag
  mesi : Mesi
  lru : Count
deriving DecidableEq, Repr

/-- The reset value of every line (rule R23). -/
def Line.reset : Line := { tag := 0, mesi := .invalid, lru := 0 }

/-- An L1 cache (rules R27, R28). `sets` lists, by strictly rising set index, the sets that differ from the
reset set (`E` reset lines); a set that is not listed is the reset set (log 6, Machine/TagArray.lean). -/
structure Cache where
  sets : List (Nat × List Line)
  /-- `lru_ctr`, the source's `global_lru_counter` (rule R28). -/
  lruCtr : Count
deriving DecidableEq, Repr

/-- The CacheStats record of one core (rule R29). -/
structure Stats where
  totalInstructions : Count
  totalReads : Count
  totalWrites : Count
  totalCycles : Count
  idleCycles : Count
  cacheMisses : Count
  cacheEvictions : Count
  writebacks : Count
  busInvalidations : Count
  dataTrafficBytes : Count
deriving DecidableEq, Repr

/-- The reset value of a CacheStats record (rule R31). -/
def Stats.reset : Stats :=
  { totalInstructions := 0, totalReads := 0, totalWrites := 0, totalCycles := 0, idleCycles := 0
    cacheMisses := 0, cacheEvictions := 0, writebacks := 0, busInvalidations := 0, dataTrafficBytes := 0 }

/-- The bus record (rules R32–R40). A core number that may be −1 is an `Option`, with `none` for −1 (rule R87). -/
structure Bus where
  /-- No transaction is in flight (rule R32). -/
  available : Bool
  /-- The source core (rules R33, R42). -/
  srcCore : Option CoreId
  /-- The demand address of the transaction (rule R34). -/
  addr : Addr
  /-- The type of the current phase (rule R35). -/
  reqType : ReqType
  /-- Ticks left of the current phase (rule R36). -/
  cyclesRemaining : BitVec 32
  /-- The cache that supplies the data, `none` for memory (rule R37). -/
  respCore : Option CoreId
  /-- The first observation of a phase is still to come (rule R38). -/
  done : Bool
  /-- The current FLUSH is an eviction writeback (rule R39). -/
  evict : Bool
  /-- The saved requester (rule R40). -/
  prevCore : Option CoreId
  /-- The saved demand request (rule R40). -/
  prevReqType : ReqType
  /-- The saved MESI state (rule R40). -/
  prevMesi : Mesi
deriving DecidableEq, Repr

/-- The reset value of the bus record (rules R32–R40, decision D20). -/
def Bus.reset : Bus :=
  { available := true, srcCore := none, addr := 0, reqType := .busRd, cyclesRemaining := 0, respCore := none
    done := false, evict := false, prevCore := none, prevReqType := .busRd, prevMesi := .invalid }

/-- The values of the fault register (rules R47, R196). -/
inductive FaultCode where
  /-- F_NONE. -/
  | fNone
  /-- F_CONFIG (rule R197), the code of the Lean fault `config` (`Fault.code`). No state ever holds it: a refused
  configuration has no state (log 8). -/
  | fConfig
  /-- F_COHERENCE (rules R163, R200). -/
  | fCoherence
  /-- F_SET_DUPLICATE (rule R200). -/
  | fSetDuplicate
  /-- F_UNDERFLOW (rule R201). -/
  | fUnderflow
  /-- F_OVERFLOW (rule R199). -/
  | fOverflow
  /-- F_BUS_STATE (rule R202). -/
  | fBusState
deriving DecidableEq, Repr

/-- The state of the block. -/
structure State where
  /-- The configuration registers (rule R20); no step writes them (log 3). -/
  cfg : Config
  /-- The traces, one request word per record (rules R5, R49, R88); no step writes them (log 3). -/
  traces : Quad (List ReqWord)
  /-- The L1 caches (rule R27). -/
  cache : Quad Cache
  /-- The statistics counters (rule R29). -/
  stats : Quad Stats
  /-- The bus record (rules R32–R40). -/
  bus : Bus
  /-- The index of each core's next trace record (rules R43, R45, log 12). -/
  pc : Quad Nat
  /-- The cores that have retired (rules R43, R46). -/
  coreDone : Quad Bool
  /-- The number of cores that have not retired (rules R43, R46, log 12). -/
  activeCores : Nat
  /-- The tick count (rules R43, R184, R209). -/
  globalCycle : Count
  /-- `total_bus_transactions` (rule R43). -/
  totalBusTransactions : Count
  /-- `total_bus_traffic_bytes` (rule R43). -/
  totalBusTrafficBytes : Count
  /-- The fault register (rule R47). -/
  faultCode : FaultCode
  /-- The model's own field: the core whose turn the sequencer is running; 0 between ticks (log 4). -/
  turn : CoreId
deriving DecidableEq, Repr

/-- Why a step stops the model. The block's own faults other than F_CONFIG are not here: they write the
fault register and freeze the state, which is a next state (rules R47, R198). -/
inductive Fault where
  /-- F_CONFIG: the configuration is outside rule R8, so there is no reset and no tick (rule R197). It records
  that configuration (rule R196). Raised by the boot of such a configuration and by a step from a state that
  holds one. Safe: the block stops too. -/
  | config (recorded : RawConfig)
deriving DecidableEq, Repr

/-- Why the model refuses to say what the block does. -/
inductive Refusal where
  /-- An instruction whose meaning is not written; raised by no arm of `exec`. Safe. -/
  | notModelled (mnemonic : String)
  /-- A snoop is to start or complete a BUSRD or BUSRDX phase of a busy bus with `src_core = −1`: no rule says
  which cache is the source cache (rules R12, R87, log 9). Raised by the snoop. Safe: no rule reaches such a
  state. -/
  | noBusSource
  /-- A BusUpgr is to be performed by a core that does not hold the block SHARED: rules R94 and R129 speak
  only of a write hit on S (log 10). Raised by the meaning of BusUpgr. Safe: no rule performs one. -/
  | upgradeNotShared
deriving DecidableEq, Repr

/-- `RESET_STATE(config, traces)`: what the reset of a run writes (rules R225, R229). -/
def State.resetWith (cfg : Config) (traces : Quad (List ReqWord)) : State :=
  { cfg := cfg
    traces := traces
    cache := Quad.rep { sets := [], lruCtr := 0 }
    stats := Quad.rep Stats.reset
    bus := Bus.reset
    pc := Quad.rep 0
    coreDone := Quad.rep false
    activeCores := 4
    globalCycle := 0
    totalBusTransactions := 0
    totalBusTrafficBytes := 0
    faultCode := .fNone
    turn := 0 }

/-- The configuration of the plain reset state: the setting of the source's scenarios, `s = 1, E = 2, b = 4`
(log 1). -/
def Config.scenario : Config := { s := 1, E := 2, b := 4 }

/-- The block right after reset (rule R225), with the scenario configuration and empty traces (log 1). -/
def State.reset : State := State.resetWith Config.scenario (Quad.rep [])

end Sys2Proof.Machine
end

