-- ==== Sys2Proof/Machine/Operands.lean ====
section
/-! DEFINITION. The operands of the commands: the address decoder (20_memory.md) and the command that is on
the bus (30_encoding.md section 3). -/

namespace Sys2Proof.Machine

/-- `tag_of(a) = a >> (s + b)`, the mathematical shift (rules R10, R61). -/
def tagOf (cfg : Config) (a : Addr) : Tag := a >>> (cfg.s + cfg.b)

/-- `set_of(a) = (a >> b) & (2^s − 1)` (rule R62). -/
def setOf (cfg : Config) (a : Addr) : Nat := (a >>> cfg.b).toNat &&& (2 ^ cfg.s - 1)

/-- Two addresses name the same block (rule R64). -/
def sameBlock (cfg : Config) (a1 a2 : Addr) : Bool := a1 >>> cfg.b == a2 >>> cfg.b

/-- The address of the block that a valid line with tag `t` in set `si` holds (rule R64). -/
def blockAddress (cfg : Config) (t : Tag) (si : Nat) : Nat := (t.toNat * 2 ^ cfg.s + si) * 2 ^ cfg.b

/-- The write bit `w` of a request word (rule R98). -/
def requestIsWrite (w : ReqWord) : Bool := w.getLsbD 32

/-- The address operand of a request word (rule R98). -/
def requestAddr (w : ReqWord) : Addr := w.extractLsb' 0 32

/-- The bus command word: the view of `evict`, `req_type`, `src_core` and `addr` (rule R91). `none` while
`src_core = −1`, which no word can hold (rule R87). -/
def Bus.word (b : Bus) : Option BusWord :=
  b.srcCore.map fun c => packBus { x := b.evict, t := b.reqType, c := c, a := b.addr }

/-- A snoop of the busy bus record reads the source cache: it starts or completes a BUSRD or BUSRDX phase
(rules R145, R147–R162). The rules of the FLUSH phases, of an illegal BUSUPGR and of a phase in progress read
no source core (rules R157, R160, R161, R164, R165). -/
def Bus.needsSource (b : Bus) : Bool :=
  match b.reqType with
  | .busRd => b.done || b.cyclesRemaining == 0
  | .busRdX => b.done || b.cyclesRemaining == 0
  | .busUpgr => false
  | .flush => false

/-- The command a snoop of a busy bus acts on: the bus record's type, source core and address, with `evict`
read only for a FLUSH (rules R39, R91, R97, R145). Where the record holds `src_core = −1`, it is `none` if the
snoop reads the source cache, and otherwise the operand `C`, which no rule then reads, is given as 0 (log 9). -/
def Bus.command (b : Bus) : Option Instr :=
  match b.srcCore with
  | some c => some (BusFields.command { x := b.evict, t := b.reqType, c := c, a := b.addr })
  | none =>
    if b.needsSource then none
    else some (BusFields.command { x := b.evict, t := b.reqType, c := 0, a := b.addr })

end Sys2Proof.Machine
end

