-- ==== Sys2Proof/Machine/Flags.lean ====
section
/-! DEFINITION. The status flags (rule R48) and the codes and conditions computed from them. -/

namespace Sys2Proof.Machine

/-- The flag `fault_code ≠ F_NONE` (rules R47, R48). -/
def State.faulted (s : State) : Bool := decide (s.faultCode ≠ .fNone)

/-- Every core has retired: the run has ended (rules R180, R186). -/
def State.ended (s : State) : Bool := decide (s.activeCores = 0)

/-- A tick may be taken: no fault, and a core is active (rule R180). -/
def State.ticking (s : State) : Bool := !s.faulted && !s.ended

/-- The number of cores that have not retired, counted from `core_done` (rule R46). -/
def activeCount (q : Quad Bool) : Nat := (allCores.filter fun c => !q.get c).length

/-- The value of a fault code (rule R196). -/
def FaultCode.value (f : FaultCode) : Nat :=
  match f with
  | .fNone => 0
  | .fConfig => 1
  | .fCoherence => 2
  | .fSetDuplicate => 3
  | .fUnderflow => 4
  | .fOverflow => 5
  | .fBusState => 6

/-- The fault code that a stop of the machine stands for (rules R196, R197). -/
def Fault.code (f : Fault) : FaultCode :=
  match f with
  | .config _ => .fConfig

end Sys2Proof.Machine
end

