-- ==== Sys2Proof/Machine/TagArray.lean ====
section
/-! DEFINITION. One cache's tag array: the sets in sparse canonical form (log 6), and lookup and victim
selection on one set (40_tag_array.md). -/

namespace Sys2Proof.Machine

/-- The lines of a set right after reset (rules R23, R25): what a set that is not listed reads as. -/
def resetSet (E : Nat) : List Line := List.replicate E Line.reset

/-- The lines of set `si`, way 0 first (rule R25). -/
def readSet (E si : Nat) : List (Nat × List Line) → List Line
  | [] => resetSet E
  | (k, L) :: rest => if si = k then L else if si < k then resetSet E else readSet E si rest

/-- The tag array with the lines of set `si` replaced. A set written back to the reset set leaves the list. -/
def writeSet (E si : Nat) (L : List Line) : List (Nat × List Line) → List (Nat × List Line)
  | [] => if L = resetSet E then [] else [(si, L)]
  | (k, M) :: rest =>
    if si = k then (if L = resetSet E then rest else (si, L) :: rest)
    else if si < k then (if L = resetSet E then (k, M) :: rest else (si, L) :: (k, M) :: rest)
    else (k, M) :: writeSet E si L rest

/-- The canonical form of a tag array: set indices strictly rising and below `2^s`, exactly `E` lines in each
set (rules R25, R118), and no set listed that reads as the reset set (log 6). -/
abbrev setsWF (cfg : Config) (sets : List (Nat × List Line)) : Prop :=
  sets.Pairwise (fun p q => p.1 < q.1) ∧
    ∀ p ∈ sets, p.1 < cfg.numSets ∧ p.2.length = cfg.E ∧ p.2 ≠ resetSet cfg.E

/-- A valid line (rule R12). -/
def Line.valid (l : Line) : Bool := decide (l.mesi ≠ .invalid)

/-- The line is valid and holds tag `t` (rule R110). -/
def Line.holds (l : Line) (t : Tag) : Bool := l.valid && l.tag == t

/-- `lookup` on the lines of a set (rule R110). -/
def lookupIn (L : List Line) (t : Tag) : Option Nat := L.findIdx? (fun l => l.holds t)

/-- The smallest `lru` of a set (rule R111); `none` for no lines. -/
def minLru (L : List Line) : Option Nat := (L.map (fun l => l.lru.toNat)).min?

/-- `victim` on the lines of a set: the first INVALID line, otherwise the first line with the smallest `lru`
(rule R111). -/
def victimIn (L : List Line) : Nat :=
  match L.findIdx? (fun l => !l.valid) with
  | some w => w
  | none => L.findIdx (fun l => minLru L == some l.lru.toNat)

end Sys2Proof.Machine
end

