-- ==== Sys2Proof/Machine/Ops.lean ====
section
/-! DEFINITION. The named operations every rule is written with: raising a fault, running a rule line by line,
counters, tag-array operations, cross-cache queries. -/

namespace Sys2Proof.Machine

/-- What a stage of a tick, and a meaning, answers. -/
abbrev Answer := Host.Outcome State Fault Refusal

/-- `raise Fault(code)`: the first code is kept and the state freezes (rules R47, R198). There is no return
from a fault (rule R207). -/
def raise (code : FaultCode) (s : State) : State :=
  if s.faulted then s else { s with faultCode := code }

/-- The lines of a rule, run in order; a fault ends the rule at its line, and what was written stays
(rule R198). A frozen state runs none of them (rule R47). -/
def seq : List (State → State) → State → State
  | [], s => s
  | f :: fs, s => if s.faulted then s else seq fs (f s)

/-- The stages of a tick, run in order; a fault ends the tick at its stage (rules R180, R198). -/
def stages : List (State → Answer) → State → Answer
  | [], s => .next s
  | f :: fs, s =>
    if s.faulted then .next s
    else
      match f s with
      | .next s' => stages fs s'
      | .fault r => .fault r
      | .refused r => .refused r

/-- The ten counters of a CacheStats record (rule R29). -/
inductive StatName where
  | totalInstructions
  | totalReads
  | totalWrites
  | totalCycles
  | idleCycles
  | cacheMisses
  | cacheEvictions
  | writebacks
  | busInvalidations
  | dataTrafficBytes
deriving DecidableEq, Repr

/-- The value of a named counter of a record. -/
def Stats.read (t : Stats) (n : StatName) : Count :=
  match n with
  | .totalInstructions => t.totalInstructions
  | .totalReads => t.totalReads
  | .totalWrites => t.totalWrites
  | .totalCycles => t.totalCycles
  | .idleCycles => t.idleCycles
  | .cacheMisses => t.cacheMisses
  | .cacheEvictions => t.cacheEvictions
  | .writebacks => t.writebacks
  | .busInvalidations => t.busInvalidations
  | .dataTrafficBytes => t.dataTrafficBytes

/-- The record with a named counter replaced. -/
def Stats.write (t : Stats) (n : StatName) (v : Count) : Stats :=
  match n with
  | .totalInstructions => { t with totalInstructions := v }
  | .totalReads => { t with totalReads := v }
  | .totalWrites => { t with totalWrites := v }
  | .totalCycles => { t with totalCycles := v }
  | .idleCycles => { t with idleCycles := v }
  | .cacheMisses => { t with cacheMisses := v }
  | .cacheEvictions => { t with cacheEvictions := v }
  | .writebacks => { t with writebacks := v }
  | .busInvalidations => { t with busInvalidations := v }
  | .dataTrafficBytes => { t with dataTrafficBytes := v }

/-- Every counter of the block (rule R199). -/
inductive Counter where
  | stat (c : CoreId) (n : StatName)
  | lruCtr (c : CoreId)
  | globalCycle
  | busTransactions
  | busTrafficBytes
deriving DecidableEq, Repr

/-- The value of a counter. -/
def State.counter (s : State) (x : Counter) : Count :=
  match x with
  | .stat c n => (s.stats.get c).read n
  | .lruCtr c => (s.cache.get c).lruCtr
  | .globalCycle => s.globalCycle
  | .busTransactions => s.totalBusTransactions
  | .busTrafficBytes => s.totalBusTrafficBytes

/-- The state with a counter replaced. -/
def State.setCounter (s : State) (x : Counter) (v : Count) : State :=
  match x with
  | .stat c n => { s with stats := s.stats.set c ((s.stats.get c).write n v) }
  | .lruCtr c => { s with cache := s.cache.set c { s.cache.get c with lruCtr := v } }
  | .globalCycle => { s with globalCycle := v }
  | .busTransactions => { s with totalBusTransactions := v }
  | .busTrafficBytes => { s with totalBusTrafficBytes := v }

/-- `inc(x, k)`: adds `k` to a counter, or raises F_OVERFLOW before writing when the sum does not fit 64 bits
(rules R11, R199). -/
def inc (x : Counter) (k : Nat) (s : State) : State :=
  if (s.counter x).toNat + k < 2 ^ 64 then s.setCounter x (BitVec.ofNat 64 ((s.counter x).toNat + k))
  else raise .fOverflow s

/-- `pc[c] <- pc[c] + 1`, the only change any rule makes to a program counter (rules R11, R45). -/
def advancePc (c : CoreId) (s : State) : State := { s with pc := s.pc.set c (s.pc.get c + 1) }

/-- The lines of set `si` of cache `c`. -/
def State.setLines (s : State) (c : CoreId) (si : Nat) : List Line := readSet s.cfg.E si (s.cache.get c).sets

/-- The state with the lines of set `si` of cache `c` replaced. -/
def State.putSet (s : State) (c : CoreId) (si : Nat) (L : List Line) : State :=
  { s with
    cache := s.cache.set c
      { s.cache.get c with sets := writeSet s.cfg.E si L (s.cache.get c).sets } }

/-- `cache[c].set[si].line[w]`; `none` where the set has no such way. -/
def State.lineAt (s : State) (c : CoreId) (si w : Nat) : Option Line := (s.setLines c si)[w]?

/-- Rewrites one line by `f`; nothing where the set has no such way (log 13). -/
def modifyLine (c : CoreId) (si w : Nat) (f : Line → Line) (s : State) : State :=
  s.putSet c si ((s.setLines c si).modify w f)

/-- A state write: invalidate, downgrade, promote or upgrade; the tag and `lru` stay (rule R114). -/
def setMesi (c : CoreId) (si w : Nat) (m : Mesi) (s : State) : State :=
  modifyLine c si w (fun l => { l with mesi := m }) s

/-- `lookup(c, si, t)` (rule R110). -/
def State.lookup (s : State) (c : CoreId) (si : Nat) (t : Tag) : Option Nat := lookupIn (s.setLines c si) t

/-- `victim(c, si)` (rule R111). -/
def State.victim (s : State) (c : CoreId) (si : Nat) : Nat := victimIn (s.setLines c si)

/-- `touch(c, si, w)` (rule R112). -/
def touch (c : CoreId) (si w : Nat) : State → State :=
  seq [ inc (.lruCtr c) 1,
        fun s => modifyLine c si w (fun l => { l with lru := (s.cache.get c).lruCtr }) s ]

/-- `install(c, si, t, m)` (rule R113). -/
def install (c : CoreId) (si : Nat) (t : Tag) (m : Mesi) (s : State) : State :=
  let w := s.victim c si
  seq [ modifyLine c si w (fun l => { l with tag := t }),
        setMesi c si w m,
        touch c si w ] s

/-- The MESI state of `line(c, si, t)`, INVALID where cache `c` has no valid line with tag `t`. -/
def State.mesiOf (s : State) (c : CoreId) (si : Nat) (t : Tag) : Mesi :=
  match s.lookup c si t with
  | some w => ((s.lineAt c si w).getD Line.reset).mesi
  | none => .invalid

/-- `line(c, si, t).mesi <- m`; nothing where cache `c` has no valid line with tag `t`. -/
def setHolderMesi (c : CoreId) (si : Nat) (t : Tag) (m : Mesi) (s : State) : State :=
  match s.lookup c si t with
  | some w => setMesi c si w m s
  | none => s

/-- `holders(c0, si, t)`, ascending (rule R119). -/
def State.holders (s : State) (c0 : CoreId) (si : Nat) (t : Tag) : List CoreId :=
  allCores.filter fun c => decide (c ≠ c0) && (s.lookup c si t).isSome

/-- `sharers(c0, si, t)`, ascending (rule R119). -/
def State.sharers (s : State) (c0 : CoreId) (si : Nat) (t : Tag) : List CoreId :=
  (s.holders c0 si t).filter fun c => decide (s.mesiOf c si t = .shared)

end Sys2Proof.Machine
end

