-- ==== Sys2Proof/Machine/BusSnoop.lean ====
section
/-! DEFINITION. The snooping-bus controller's rules and the meanings of BusRd, BusRdX, BusUpgr, Flush.evict
and Flush.interv (42_bus_snoop.md). The meaning of a bus command is what one iteration of the loop of
rule R145 does when it finds that command on the bus (log 11). -/

namespace Sys2Proof.Machine

/-! ### Victim preparation -/

/-- EVICT_VICTIM (rule R148). -/
def evictVictim (c0 : CoreId) (si v : Nat) : State → State :=
  seq [ setMesi c0 si v .invalid,
        inc (.stat c0 .cacheEvictions) 1 ]

/-- PROMOTE_LAST_SHARER (rule R150). -/
def promoteLastSharer (sh : List CoreId) (si : Nat) (vt : Tag) (s : State) : State :=
  match sh with
  | [c] => setHolderMesi c si vt .exclusive s
  | _ => s

/-- CHAIN_EVICT_FLUSH, before the demand `req` (rule R149). -/
def chainEvictFlush (c0 : CoreId) (req : ReqType) (s : State) : State :=
  seq [ fun s => { s with bus := { s.bus with
          prevReqType := req, prevMesi := .modified, reqType := .flush, evict := true, done := true } },
        inc (.stat c0 .writebacks) 1,
        inc (.stat c0 .dataTrafficBytes) s.cfg.blockSize,
        inc .busTransactions 1,
        inc .busTrafficBytes s.cfg.blockSize ] s

/-- The line in the victim slot of set `si` of cache `c0` (rule R147); INVALID where the set has no lines (log 13). -/
def State.victimLine (s : State) (c0 : CoreId) (si : Nat) : Line :=
  (s.lineAt c0 si (s.victim c0 si)).getD Line.reset

/-- VICTIM_PREP answers CHAINED: the victim is MODIFIED (rule R147). -/
def State.victimDirty (s : State) (c0 : CoreId) (si : Nat) : Bool := decide ((s.victimLine c0 si).mesi = .modified)

/-- VICTIM_PREP for the demand `req` (rule R147). -/
def victimPrep (c0 : CoreId) (si : Nat) (req : ReqType) (s : State) : State :=
  let v := s.victim c0 si
  let l := s.victimLine c0 si
  let sh := s.sharers c0 si l.tag
  if l.valid then
    seq [ evictVictim c0 si v,
          promoteLastSharer sh si l.tag,
          fun s => if l.mesi = .modified then chainEvictFlush c0 req s else s ] s
  else s

/-! ### BusRd -/

/-- BUSRD_START with responder `r` (rules R151, R152). -/
def busRdStartCache (r : CoreId) (si : Nat) (t : Tag) (s : State) : State :=
  seq [ fun s => { s with bus := { s.bus with respCore := some r, prevMesi := s.mesiOf r si t } },
        setHolderMesi r si t .shared,
        fun s => { s with bus := { s.bus with
          cyclesRemaining := BitVec.ofNat 32 s.cfg.busCycles, done := false } } ] s

/-- BUSRD_START served by memory (rule R153). -/
def busRdStartMem (s : State) : State :=
  { s with bus := { s.bus with
      respCore := none, cyclesRemaining := BitVec.ofNat 32 memoryCycles, done := false } }

/-- BUSRD_START: the lowest-indexed holder responds, memory where there is none (rules R151–R153). -/
def busRdStart (c0 : CoreId) (si : Nat) (t : Tag) (s : State) : State :=
  match s.holders c0 si t with
  | [] => busRdStartMem s
  | r :: _ => busRdStartCache r si t s

/-- The transaction ends: `bus.available <- 1` (rule R32). -/
def releaseBus (s : State) : State := { s with bus := { s.bus with available := true } }

/-- BUSRD_DONE_MEM (rule R154). -/
def busRdDoneMem (c0 : CoreId) (si : Nat) (t : Tag) : State → State :=
  seq [ install c0 si t .exclusive,
        releaseBus ]

/-- An intervention writeback by `owner` is put on the bus for requester `c0` and demand `req`, and charged to
`owner`: the common part of rules R156 and R158. -/
def chainIntervFlush (c0 owner : CoreId) (req : ReqType) (s : State) : State :=
  seq [ fun s => { s with bus := { s.bus with
          prevReqType := req, prevCore := some c0, srcCore := some owner, reqType := .flush
          evict := false, done := true } },
        inc (.stat owner .writebacks) 1,
        inc (.stat owner .dataTrafficBytes) s.cfg.blockSize,
        inc .busTransactions 1,
        inc .busTrafficBytes s.cfg.blockSize ] s

/-- BUSRD_DONE_C2C with responder `r`, and CHAIN_INTERV_FLUSH_RD when `r` held the block MODIFIED
(rules R155, R156). -/
def busRdDoneC2C (c0 r : CoreId) (si : Nat) (t : Tag) (s : State) : State :=
  seq [ install c0 si t .shared,
        inc (.stat r .dataTrafficBytes) s.cfg.blockSize,
        fun s => if s.bus.prevMesi = .modified then chainIntervFlush c0 r .busRd s else releaseBus s ] s

/-- One observation of a BusRd of core `c0` for address `a` (rules R145, R165, R169). -/
def observeBusRd (c0 : CoreId) (a : Addr) (s : State) : State :=
  let t := tagOf s.cfg a
  let si := setOf s.cfg a
  if s.bus.available then s
  else if s.bus.done then
    if s.victimDirty c0 si then victimPrep c0 si .busRd s
    else seq [victimPrep c0 si .busRd, busRdStart c0 si t] s
  else if s.bus.cyclesRemaining = 0 then
    match s.bus.respCore with
    | none => busRdDoneMem c0 si t s
    | some r => busRdDoneC2C c0 r si t s
  else s

/-- BusRd, read-for-share (rule R169). -/
def execBusRd (c : CoreId) (a : Addr) (s : State) : Answer := .next (seq [observeBusRd c a] s)

/-! ### BusRdX -/

/-- NO_OWNER: the BusRdX is served by memory (rule R159). -/
def busRdXStartMem (s : State) : State :=
  { s with bus := { s.bus with cyclesRemaining := BitVec.ofNat 32 memoryCycles, done := false } }

/-- The BusRdX intervention adjustment: one tick of the requester moves from `total_cycles` to `idle_cycles`;
F_UNDERFLOW where `total_cycles` is 0 (rules R158, R201). -/
def adjustRequester (c0 : CoreId) (s : State) : State :=
  if s.counter (.stat c0 .totalCycles) = 0 then raise .fUnderflow s
  else seq [ fun s => s.setCounter (.stat c0 .totalCycles) (s.counter (.stat c0 .totalCycles) - 1),
             inc (.stat c0 .idleCycles) 1 ] s

/-- The MODIFIED holder of the block outside `c0`, the last one in the rule's ascending scan (rule R158). -/
def State.owner (s : State) (c0 : CoreId) (si : Nat) (t : Tag) : Option CoreId :=
  ((s.holders c0 si t).filter fun c => decide (s.mesiOf c si t = .modified)).getLast?

/-- Every copy of the block outside `c0` becomes INVALID (rule R158). -/
def invalidateHolders (c0 : CoreId) (si : Nat) (t : Tag) (s : State) : State :=
  seq ((s.holders c0 si t).map fun c => setHolderMesi c si t .invalid) s

/-- BUSRDX_START (rules R158, R159). -/
def busRdXStart (c0 : CoreId) (si : Nat) (t : Tag) (s : State) : State :=
  match s.owner c0 si t with
  | none => seq [ invalidateHolders c0 si t, busRdXStartMem ] s
  | some owner =>
    seq [ invalidateHolders c0 si t,
          chainIntervFlush c0 owner .busRdX,
          adjustRequester c0 ] s

/-- BUSRDX_DONE (rule R162). -/
def busRdXDone (c0 : CoreId) (si : Nat) (t : Tag) : State → State :=
  seq [ install c0 si t .modified,
        releaseBus ]

/-- One observation of a BusRdX of core `c0` for address `a` (rules R145, R165, R170). -/
def observeBusRdX (c0 : CoreId) (a : Addr) (s : State) : State :=
  let t := tagOf s.cfg a
  let si := setOf s.cfg a
  if s.bus.available then s
  else if s.bus.done then
    if s.victimDirty c0 si then victimPrep c0 si .busRdX s
    else seq [victimPrep c0 si .busRdX, busRdXStart c0 si t] s
  else if s.bus.cyclesRemaining = 0 then busRdXDone c0 si t s
  else s

/-- BusRdX, read-for-ownership (rule R170). -/
def execBusRdX (c : CoreId) (a : Addr) (s : State) : Answer := .next (seq [observeBusRdX c a] s)

/-! ### Flush -/

/-- FLUSH_START (rule R157). -/
def flushStart (s : State) : State :=
  { s with bus := { s.bus with cyclesRemaining := BitVec.ofNat 32 memoryCycles, done := false } }

/-- EVICT_DONE: the demand request is restored for its first observation (rule R160). -/
def evictDone (s : State) : State :=
  { s with bus := { s.bus with reqType := s.bus.prevReqType, evict := false, done := true } }

/-- INTERV_DONE: the requester is restored; a BUSRD ends, a BUSRDX is observed again (rule R161). -/
def intervDone (s : State) : State :=
  if s.bus.prevReqType = .busRd then
    { s with bus := { s.bus with
        reqType := s.bus.prevReqType, srcCore := s.bus.prevCore, available := true } }
  else
    { s with bus := { s.bus with
        reqType := s.bus.prevReqType, srcCore := s.bus.prevCore, done := true } }

/-- One observation of an eviction writeback (rules R145, R165, R172). -/
def observeFlushEvict (s : State) : State :=
  if s.bus.available then s
  else if s.bus.done then flushStart s
  else if s.bus.cyclesRemaining = 0 then evictDone s
  else s

/-- One observation of an intervention writeback (rules R145, R165, R173). -/
def observeFlushInterv (s : State) : State :=
  if s.bus.available then s
  else if s.bus.done then flushStart s
  else if s.bus.cyclesRemaining = 0 then intervDone s
  else s

/-- Flush, eviction writeback (rule R172). Its rules read neither operand: the written-back block is named
nowhere (rules R95, R149). -/
def execFlushEvict (_c : CoreId) (_a : Addr) (s : State) : Answer := .next (seq [observeFlushEvict] s)

/-- Flush, intervention writeback (rule R173). Its rules read neither operand. -/
def execFlushInterv (_c : CoreId) (_a : Addr) (s : State) : Answer := .next (seq [observeFlushInterv] s)

/-! ### BusUpgr -/

/-- The SNOOP_UPGR line for one holder: S becomes INVALID, E and M raise F_COHERENCE (rule R163). -/
def snoopUpgrAt (si : Nat) (t : Tag) (c : CoreId) (s : State) : State :=
  if s.mesiOf c si t = .shared then setHolderMesi c si t .invalid s else raise .fCoherence s

/-- SNOOP_UPGR (rule R163). -/
def snoopUpgr (c : CoreId) (si : Nat) (t : Tag) (s : State) : State :=
  seq ((s.holders c si t).map (snoopUpgrAt si t)) s

/-- The completion of an access: the line is touched, the access is counted as a read or a write and as an
instruction, the tick is charged to `total_cycles`, and the program counter advances: the lines that
rules R126, R127 and R129 share. -/
def completeAccess (c : CoreId) (si k : Nat) (kind : StatName) : State → State :=
  seq [ touch c si k,
        inc (.stat c kind) 1,
        inc (.stat c .totalInstructions) 1,
        inc (.stat c .totalCycles) 1,
        advancePc c ]

/-- BUSUPGR(c, a, si, t, k): the upgrade of line `k`, which holds the block SHARED (rule R129). -/
def busUpgr (c : CoreId) (a : Addr) (k : Nat) (s : State) : State :=
  let t := tagOf s.cfg a
  let si := setOf s.cfg a
  seq [ fun s => { s with bus := { s.bus with srcCore := some c, addr := a, reqType := .busUpgr } },
        snoopUpgr c si t,
        inc (.stat c .busInvalidations) 1,
        inc .busTransactions 1,
        setMesi c si k .modified,
        completeAccess c si k .totalWrites ] s

/-- BusUpgr, upgrade-on-shared (rule R171). On an available bus it is the upgrade of the writer's SHARED line
(rule R129). Found on a busy bus it is illegal and raises F_BUS_STATE (rules R97, R164, R202). A frozen
block does nothing (log 19). -/
def execBusUpgr (c : CoreId) (a : Addr) (s : State) : Answer :=
  if s.faulted then .next s
  else if s.bus.available then
    match s.lookup c (setOf s.cfg a) (tagOf s.cfg a) with
    | some k =>
      if s.mesiOf c (setOf s.cfg a) (tagOf s.cfg a) = .shared then .next (busUpgr c a k s)
      else .refused .upgradeNotShared
    | none => .refused .upgradeNotShared
  else .next (raise .fBusState s)

end Sys2Proof.Machine
end

