-- ==== Sys2Proof/Machine/Access.lean ====
section
/-! DEFINITION. The processor side: the access rules of a cache and the meanings of PrRd and PrWr
(41_processor_access.md). A request is made by the core whose turn it is (log 4). -/

namespace Sys2Proof.Machine

/-- The rule that an access runs (rule R125), with the line it hits. -/
inductive AccessRule where
  /-- READ_HIT (rule R126). -/
  | readHit (k : Nat)
  /-- WRITE_HIT_ME (rule R127). -/
  | writeHit (k : Nat)
  /-- BUSUPGR (rules R128, R129). -/
  | upgrade (k : Nat)
  /-- ISSUE (rules R130, R132, R133). -/
  | issue
  /-- STALL (rules R128, R130, R131). -/
  | stall
deriving DecidableEq, Repr

/-- The outcome a cache answers a request with (rule R99). -/
inductive AccessOutcome where
  | completed
  | issued
  | stalled
deriving DecidableEq, Repr

/-- The outcome of an access rule; a BusUpgr completes (rule R99). -/
def AccessRule.outcome (r : AccessRule) : AccessOutcome :=
  match r with
  | .readHit _ => .completed
  | .writeHit _ => .completed
  | .upgrade _ => .completed
  | .issue => .issued
  | .stall => .stalled

/-- The classification of an access by lookup, MESI state and bus (rule R125). -/
def State.classify (s : State) (c : CoreId) (a : Addr) (w : Bool) : AccessRule :=
  let t := tagOf s.cfg a
  let si := setOf s.cfg a
  match s.lookup c si t with
  | some k =>
    if !w then .readHit k
    else
      match s.mesiOf c si t with
      | .modified => .writeHit k
      | .exclusive => .writeHit k
      | .shared => if s.bus.available then .upgrade k else .stall
      | .invalid => if s.bus.available then .upgrade k else .stall
  | none => if s.bus.available then .issue else .stall

/-- READ_HIT (rule R126). -/
def readHit (c : CoreId) (si k : Nat) : State → State := completeAccess c si k .totalReads

/-- WRITE_HIT_ME (rule R127). -/
def writeHit (c : CoreId) (si k : Nat) : State → State :=
  seq [ setMesi c si k .modified,
        completeAccess c si k .totalWrites ]

/-- STALL: charged to `total_cycles` when `bus.src_core` is the core, to `idle_cycles` otherwise (rule R131). -/
def stall (c : CoreId) (s : State) : State :=
  if s.bus.srcCore = some c then inc (.stat c .totalCycles) 1 s else inc (.stat c .idleCycles) 1 s

/-- ISSUE, with BUSRDX_INV for a write (rules R132, R133). -/
def issue (c : CoreId) (a : Addr) (w : Bool) (s : State) : State :=
  seq [ fun s => { s with bus := { s.bus with
          available := false, done := true, srcCore := some c, addr := a
          reqType := (if w then .busRdX else .busRd), respCore := none, evict := false } },
        inc (.stat c .cacheMisses) 1,
        inc (.stat c .totalCycles) 1,
        inc (.stat c .dataTrafficBytes) s.cfg.blockSize,
        inc .busTransactions 1,
        inc .busTrafficBytes s.cfg.blockSize,
        fun s => if w then inc (.stat c .busInvalidations) 1 s else s ] s

/-- `access(c, a, w)` (rule R125). -/
def access (c : CoreId) (a : Addr) (w : Bool) (s : State) : State :=
  match s.classify c a w with
  | .readHit k => readHit c (setOf s.cfg a) k s
  | .writeHit k => writeHit c (setOf s.cfg a) k s
  | .upgrade k => busUpgr c a k s
  | .issue => issue c a w s
  | .stall => stall c s

/-- PrRd (rule R136). -/
def execPrRd (a : Addr) (s : State) : Answer := .next (seq [access s.turn a false] s)

/-- PrWr (rule R137). -/
def execPrWr (a : Addr) (s : State) : Answer := .next (seq [access s.turn a true] s)

end Sys2Proof.Machine
end

