-- ==== Sys2Proof/Machine/Dispatch.lean ====
section
/-! DEFINITION. The dispatch of a command to its meaning. -/

namespace Sys2Proof.Machine

def exec (i : Instr) (s : State) : Host.Outcome State Fault Refusal :=
  match i with
  | .prRd a => Sys2Proof.Machine.execPrRd a s
  | .prWr a => Sys2Proof.Machine.execPrWr a s
  | .busRd c a => Sys2Proof.Machine.execBusRd c a s
  | .busRdX c a => Sys2Proof.Machine.execBusRdX c a s
  | .busUpgr c a => Sys2Proof.Machine.execBusUpgr c a s
  | .flushEvict c a => Sys2Proof.Machine.execFlushEvict c a s
  | .flushInterv c a => Sys2Proof.Machine.execFlushInterv c a s

end Sys2Proof.Machine
end

