-- ==== Sys2Proof/Machine/Tick.lean ====
section
/-! DEFINITION. The tick sequencer (43_tick.md): the snoop loop, the core turns, the countdown, the end-of-tick
checks, and the step of the block. -/

namespace Sys2Proof.Machine

/-! ### The snoop loop -/

/-- `snoop()` with at most `n` iterations (rule R145). An iteration runs the command on the bus. The loop goes
on exactly when the iteration left a phase that waits for its first observation, which is when the
pseudocode says `continue` (log 14). A phase that starts in a pre-snoop with `cycles_remaining = 0` so ends in the
post-snoop of that tick, also where the table of rule R241 gives the bus free a tick later (log 20). -/
def snoopLoop : Nat → State → Answer
  | 0, s => .next s
  | n + 1, s =>
    if s.bus.available then .next s
    else
      match s.bus.command with
      | none => .refused .noBusSource
      | some i => stages [exec i, fun s' => if s'.bus.done then snoopLoop n s' else .next s'] s

/-- `snoop()`: at most three iterations are ever needed (rule R166, log 14). -/
def snoop (s : State) : Answer := snoopLoop 3 s

/-! ### The core turns -/

/-- The request word of core `c`'s next access; `none` past the end of its trace (rules R45, R99). -/
def State.fetch (s : State) (c : CoreId) : Option ReqWord := (s.traces.get c)[s.pc.get c]?

/-- Core `c` retires (rules R46, R181). -/
def retire (c : CoreId) (s : State) : State :=
  { s with coreDone := s.coreDone.set c true, activeCores := s.activeCores - 1 }

/-- CORE_TURN(c) (rule R181). -/
def coreTurn (c : CoreId) (s : State) : Answer :=
  if s.coreDone.get c then .next s
  else
    match s.fetch c with
    | none => .next (retire c s)
    | some w => exec (decodeReq w) { s with turn := c }

/-- The core pass is over: no core has the turn (log 4). -/
def endCorePass (s : State) : State := { s with turn := 0 }

/-! ### The end of a tick -/

/-- The bus countdown, saturating at 0 (rule R183). -/
def countdown (s : State) : State :=
  { s with bus := { s.bus with
      cyclesRemaining := if s.bus.cyclesRemaining = 0 then 0 else s.bus.cyclesRemaining - 1 } }

/-- Puts a set index into a strictly rising list. -/
def insertIndex (x : Nat) : List Nat → List Nat
  | [] => [x]
  | y :: ys => if x < y then x :: y :: ys else if x = y then y :: ys else y :: insertIndex x ys

/-- The set indices that some cache lists, ascending. Every other set holds no valid line (log 15). -/
def State.listedSets (s : State) : List Nat :=
  (allCores.flatMap fun c => (s.cache.get c).sets.map fun p => p.1).foldr insertIndex []

/-- The set invariant: the valid lines of a set have distinct tags (rule R26). -/
def uniqueTags (L : List Line) : Bool := decide ((L.filter (fun l => l.valid)).map (fun l => l.tag)).Nodup

/-- The MESI states of the valid lines that hold the block `(si, t)`, over all caches: the list `H` of rule R73. -/
def State.copies (s : State) (si : Nat) (t : Tag) : List Mesi :=
  allCores.flatMap fun c => ((s.setLines c si).filter (fun l => l.holds t)).map fun l => l.mesi

/-- P1: no copy, one M, one E, or only S (rule R73). -/
def coherentCopies (H : List Mesi) : Bool :=
  decide (H = []) || decide (H = [.modified]) || decide (H = [.exclusive]) ||
    H.all fun m => decide (m = .shared)

/-- The tags held valid in set `si` by any cache (rule R200). -/
def State.heldTags (s : State) (si : Nat) : List Tag :=
  allCores.flatMap fun c => ((s.setLines c si).filter (fun l => l.valid)).map fun l => l.tag

/-- The first violation in set `si`: the set invariant of every cache, then P1 of every held tag (rule R200). -/
def State.setViolation (s : State) (si : Nat) : Option FaultCode :=
  if allCores.all fun c => uniqueTags (s.setLines c si) then
    if (s.heldTags si).all fun t => coherentCopies (s.copies si t) then none else some .fCoherence
  else some .fSetDuplicate

/-- CHECK_INVARIANTS: the first violation in ascending set order is raised (rules R185, R200). -/
def checkInvariants (s : State) : State :=
  match s.listedSets.findSome? s.setViolation with
  | some code => raise code s
  | none => s

/-! ### The tick and the step -/

/-- One tick (rule R180). -/
def tick : State → Answer :=
  stages
    [ snoop,
      coreTurn 0,
      coreTurn 1,
      coreTurn 2,
      coreTurn 3,
      fun s => .next (endCorePass s),
      snoop,
      fun s => .next (countdown s),
      fun s => .next (inc .globalCycle 1 s),
      fun s => .next (checkInvariants s) ]

/-- The block's step: a tick while `active_cores > 0` and no fault is raised (rules R13, R180, R186); no tick
otherwise, and the state stays as it is (rules R47, R187, R198, log 7). An illegal configuration has no
tick at all (rules R8, R197, log 8). -/
def advance (s : State) : Answer :=
  if s.cfg.legal then
    if s.ticking then tick s else .next s
  else .fault (.config s.cfg.toRaw)

/-! ### Placing a command where the next tick runs it -/

/-- Core `c` is given the one-record trace `w`, to be attempted in the next tick (log 2). -/
def placeRequest (c : CoreId) (w : ReqWord) (s : State) : State :=
  let done := s.coreDone.set c false
  { s with traces := s.traces.set c [w], pc := s.pc.set c 0, coreDone := done, activeCores := activeCount done }

/-- The bus is busy with a phase of the command `f`, waiting for its first observation (log 2). -/
def placeOnBus (f : BusFields) (s : State) : State :=
  { s with bus := { s.bus with
      available := false, done := true, srcCore := some f.c, addr := f.a, reqType := f.t, evict := f.x } }

/-- A BusUpgr runs inside a core turn (rule R94): core `c` holds the block SHARED, the bus is available, and the
core's trace is the write that upgrades it (log 2). -/
def placeUpgrade (c : CoreId) (a : Addr) (s : State) : State :=
  placeRequest c (packReq true a)
    (install c (setOf s.cfg a) (tagOf s.cfg a) .shared { s with bus := { s.bus with available := true } })

/-- The state in which the next tick runs the command of an encoded word (log 2). -/
def placeCommand (cw : CommandWord) (s : State) : State :=
  match cw with
  | .req w => placeRequest 0 w s
  | .bus w =>
    match decodeBus w with
    | .instr (.busUpgr c a) => placeUpgrade c a s
    | _ => placeOnBus (busFields w) s

end Sys2Proof.Machine
end

