-- ==== Sys2Proof/Machine/Step.lean ====
section
/-! DEFINITION. The step of the machine, and the placing of one command where the next step runs it. -/

namespace Sys2Proof.Machine

/-- The block's one step, the tick (rules R13, R180). -/
def step (s : State) : Host.Outcome State Fault Refusal := advance s

/-- The state with the command of an opcode-table word placed where the next step runs it: a request word in
the trace of core 0, a bus word on the bus, a BusUpgr in a write of its core (log 2). A number that is no
word of either format changes nothing (log 5). -/
def State.withFetchWord (s : State) (nbits w : Nat) : State :=
  match tableWord nbits w with
  | some cw => placeCommand cw s
  | none => s

end Sys2Proof.Machine
end

