-- ==== Sys2Proof/Machine/TraceText.lean ====
section
/-! DEFINITION. The trace reader: the lines of a trace file to request words (30_encoding.md section 7, log 17). -/

namespace Sys2Proof.Machine

/-- `ws`: a blank or a tab (rule R104). -/
def isBlank (c : Char) : Bool := c == ' ' || c == '\t'

/-- The value of a hexadecimal digit of either case (rule R104). -/
def hexDigit (c : Char) : Option Nat :=
  let n := c.toNat
  if 48 ≤ n && n ≤ 57 then some (n - 48)
  else if 65 ≤ n && n ≤ 70 then some (n - 55)
  else if 97 ≤ n && n ≤ 102 then some (n - 87)
  else none

/-- The value of `hexdigit*` read after a numeral of value `acc`; `none` at a character that is no digit. -/
def hexDigits (acc : Nat) : List Char → Option Nat
  | [] => some acc
  | c :: cs =>
    match hexDigit c with
    | some d => hexDigits (16 * acc + d) cs
    | none => none

/-- `hexdigit+`. -/
def hexNumeral (cs : List Char) : Option Nat := if cs = [] then none else hexDigits 0 cs

/-- `hexaddr`: an optional `0x` or `0X`, then at least one digit (rule R104). -/
def hexAddr (cs : List Char) : Option Nat :=
  match cs with
  | '0' :: 'x' :: ds => hexNumeral ds
  | '0' :: 'X' :: ds => hexNumeral ds
  | ds => hexNumeral ds

/-- The blank-separated tokens of a line; `cur` holds the token being read, last character first. -/
def tokensFrom (cur : List Char) : List Char → List (List Char)
  | [] => if cur = [] then [] else [cur.reverse]
  | c :: cs =>
    if isBlank c then (if cur = [] then tokensFrom [] cs else cur.reverse :: tokensFrom [] cs)
    else tokensFrom (c :: cur) cs

/-- The request word of a trace line: exactly an op `R` or `W` and an address below 2^32, apart from blanks;
`none` for a blank or malformed line (rules R103–R105). -/
def parseLine (line : List Char) : Option ReqWord :=
  match tokensFrom [] line with
  | [op, num] =>
    match hexAddr num with
    | some v =>
      if v < 2 ^ 32 then
        if op = ['R'] then some (packReq false (BitVec.ofNat 32 v))
        else if op = ['W'] then some (packReq true (BitVec.ofNat 32 v))
        else none
      else none
    | none => none
  | _ => none

/-- The line without the carriage return that stood before its line feed; `rev` is the line reversed. -/
def endLine (rev : List Char) : List Char :=
  match rev with
  | '\r' :: cs => cs.reverse
  | cs => cs.reverse

/-- The lines of a text; a line ends with LF or CR LF, which is no part of it (rule R104). -/
def linesFrom (rev : List Char) : List Char → List (List Char)
  | [] => if rev = [] then [] else [rev.reverse]
  | c :: cs => if c = '\n' then endLine rev :: linesFrom [] cs else linesFrom (c :: rev) cs

/-- `trace[c]` from the text of core `c`'s trace file: the records of the well-formed lines in order (rule R105);
no records where the file could not be opened (rules R5, R106). -/
def readTrace (file : Option (List Char)) : List ReqWord :=
  match file with
  | some text => (linesFrom [] text).filterMap parseLine
  | none => []

end Sys2Proof.Machine
end

