-- ==== Sys2Proof/Machine/Boot.lean ====
section
/-! DEFINITION. A run: the configuration check, the reset and the ticks (rules R186, R197, R225–R227). -/

namespace Sys2Proof.Machine

/-- The start of a run: an illegal configuration is refused with F_CONFIG, which records it, and there is no state; otherwise the
one reset of the run (rules R197, R225–R227). -/
def boot (r : RawConfig) (traces : Quad (List ReqWord)) : Answer :=
  if r.legal then .next (State.resetWith r.toConfig traces) else .fault (.config r)

/-- The start of a run from the texts of the four trace files, `none` for one that cannot be opened
(rules R103, R106). -/
def bootFiles (r : RawConfig) (files : Quad (Option (List Char))) : Answer :=
  boot r ⟨readTrace files.c0, readTrace files.c1, readTrace files.c2, readTrace files.c3⟩

/-- The name of core `c`'s trace file, `<stem>_proc<c>.trace`, for the stem the environment gives (rules R103, R212,
log 21). -/
def traceFileName (stem : List Char) (c : CoreId) : List Char :=
  stem ++ ['_', 'p', 'r', 'o', 'c'] ++ [Char.ofNat (48 + c.val)] ++ ['.', 't', 'r', 'a', 'c', 'e']

/-- The start of a run from the files with the names of a stem; `readFile` gives a file's text, `none` where it
cannot be opened (rules R103, R106). -/
def bootNamed (r : RawConfig) (stem : List Char) (readFile : List Char → Option (List Char)) : Answer :=
  bootFiles r ⟨readFile (traceFileName stem 0), readFile (traceFileName stem 1), readFile (traceFileName stem 2),
    readFile (traceFileName stem 3)⟩

/-- The fault code a run stops with: that of the final state, or that of the fault which left no state
(rules R14, R186, R196, R197); `none` where the model refuses. -/
def resultCode (o : Answer) : Option FaultCode :=
  match o with
  | .next s => some s.faultCode
  | .fault f => some f.code
  | .refused _ => none

/-- `n` steps of a run; once it has ended or a fault is raised its state stays (rules R186, R187, R198). -/
def runFor : Nat → State → Answer
  | 0, s => .next s
  | n + 1, s =>
    match step s with
    | .next t => runFor n t
    | .fault r => .fault r
    | .refused r => .refused r

end Sys2Proof.Machine
end

