-- ==== Sys2Proof/Safety.lean ====
section
/-! DEFINITION. What a safe state is, in the terms the statements use: the shape of the state, the coherence
properties P1 and P2, the phase invariants of the bus, and the accounting properties P4, P5 and P7. -/

namespace Sys2Proof.Machine

/-- The state is one a run reaches: reset with some accepted configuration and traces, then steps (rule R229). -/
inductive Reachable : State → Prop where
  | reset (cfg : Config) (traces : Quad (List ReqWord)) (hcfg : cfg.legal = true)
      (htr : ∀ c, traceFits (traces.get c) = true) : Reachable (State.resetWith cfg traces)
  | step (s s' : State) (hs : Reachable s) (h : step s = .next s') : Reachable s'

/-! ### Shape -/

/-- Every tag array has its canonical form: `E` lines per set, set indices below `2^s` (rules R25, R27, R118). -/
def ArraysShaped (s : State) : Prop := ∀ c, setsWF s.cfg (s.cache.get c).sets

/-- Every program counter is at most the length of its trace, a retired core's is at its end, and
`active_cores` counts the cores that have not retired (rules R45, R46). -/
def CoresCounted (s : State) : Prop :=
  s.activeCores = activeCount s.coreDone ∧
    ∀ c, s.pc.get c ≤ (s.traces.get c).length ∧
      (s.coreDone.get c = true → s.pc.get c = (s.traces.get c).length)

/-- A busy bus record is one the rules can write: it names a source core, its type is not BUSUPGR, a FLUSH has
a saved BUSRD or BUSRDX and, for an intervention, a saved requester, and `evict` is set only in a FLUSH
(rules R33, R39, R40, R87, R97, R164). -/
def BusLegal (b : Bus) : Prop :=
  b.available = false →
    b.srcCore ≠ none ∧ b.reqType ≠ .busUpgr ∧
      (b.reqType ≠ .flush → b.evict = false) ∧
      (b.reqType = .flush →
        (b.prevReqType = .busRd ∨ b.prevReqType = .busRdX) ∧ (b.evict = false → b.prevCore ≠ none))

/-- The shape every reachable state has. -/
def Shaped (s : State) : Prop :=
  s.cfg.legal = true ∧ (∀ c, traceFits (s.traces.get c) = true) ∧ ArraysShaped s ∧ CoresCounted s ∧ BusLegal s.bus

/-! ### Coherence -/

/-- The set invariant (rule R26). -/
def SetsUnique (s : State) : Prop := ∀ c si, uniqueTags (s.setLines c si) = true

/-- P1 (rule R73). -/
def Coherent (s : State) : Prop := ∀ si t, coherentCopies (s.copies si t) = true

/-- P2: no two caches own a block MODIFIED (rule R74). -/
def SingleOwner (s : State) : Prop :=
  ∀ c c' si t, s.mesiOf c si t = .modified → s.mesiOf c' si t = .modified → c = c'

/-! ### The phase of the bus -/

/-- The requester of the transaction in flight (rule R42). -/
def Bus.requester (b : Bus) : Option CoreId :=
  if b.reqType = .flush ∧ b.evict = false then b.prevCore else b.srcCore

/-- The demand of the transaction in flight (rules R40, R160, R161). -/
def Bus.demand (b : Bus) : ReqType := if b.reqType = .flush then b.prevReqType else b.reqType

/-- The current FLUSH is an intervention writeback (rules R39, R42). -/
def Bus.interv (b : Bus) : Bool := decide (b.reqType = .flush) && !b.evict

/-- The transaction has not installed its block yet: it is busy, and not in the writeback that follows a
BusRd's fill (rules R156, R161). -/
def Bus.awaitsFill (b : Bus) : Bool := !b.available && !(b.interv && decide (b.prevReqType = .busRd))

/-- The demand phase is running: it has been observed once (rule R38). -/
def Bus.demandRuns (b : Bus) : Bool := !b.available && decide (b.reqType ≠ .flush) && !b.done

/-- The demand's first observation, which prepares the victim, is over (rules R146, R147). -/
def Bus.prepared (b : Bus) : Bool := !b.available && (decide (b.reqType = .flush) || !b.done)

/-- The MESI state of the demanded block in cache `c`. -/
def State.demandMesi (s : State) (c : CoreId) : Mesi := s.mesiOf c (setOf s.cfg s.bus.addr) (tagOf s.cfg s.bus.addr)

/-- What holds of the caches while a transaction is in flight (rules R135, R158, R168, R201):
the requester holds no copy of the block before the fill, and once the victim is prepared its victim slot is
INVALID; a BusRd from memory finds no copy anywhere and one from a cache only SHARED copies; a BusRdX that
runs, or waits for its owner's writeback, finds no copy; and a BusRdX that has yet to look for an owner has
a requester with at least one tick charged to `total_cycles`, unless no cache holds the block any more. -/
structure PhaseHolds (s : State) : Prop where
  noCopy : s.bus.awaitsFill = true → ∀ q, s.bus.requester = some q → s.demandMesi q = .invalid
  slotFree : s.bus.awaitsFill = true → s.bus.prepared = true → ∀ q, s.bus.requester = some q →
    (s.victimLine q (setOf s.cfg s.bus.addr)).valid = false
  readFromMemory : s.bus.demandRuns = true → s.bus.reqType = .busRd → s.bus.respCore = none →
    ∀ c, s.demandMesi c = .invalid
  readFromCache : s.bus.demandRuns = true → s.bus.reqType = .busRd → s.bus.respCore ≠ none →
    ∀ c, s.demandMesi c = .invalid ∨ s.demandMesi c = .shared
  ownership : s.bus.awaitsFill = true → s.bus.demand = .busRdX →
    (s.bus.demandRuns = true ∨ s.bus.interv = true) → ∀ c, s.demandMesi c = .invalid
  charged : s.bus.awaitsFill = true → s.bus.demand = .busRdX → s.bus.demandRuns = false →
    s.bus.interv = false → ∀ q, s.bus.requester = some q →
      (s.stats.get q).totalCycles ≠ 0 ∨ ∀ c, s.demandMesi c = .invalid

/-- The invariants of a run that has not stopped with an overflow: no fault is raised, P1 and the set invariant
hold, the bus phase is consistent, and no phase waits for its first observation between ticks (rules R75, R195). -/
def RunSafe (s : State) : Prop :=
  s.faultCode = .fOverflow ∨
    (s.faultCode = .fNone ∧ SetsUnique s ∧ Coherent s ∧ PhaseHolds s ∧
      (s.bus.available = false → s.bus.done = false))

/-! ### Accounting -/

/-- P4: instructions are reads plus writes, and program counter advances (rule R139). -/
def InstructionsCounted (s : State) : Prop :=
  ∀ c, (s.stats.get c).totalInstructions.toNat = (s.stats.get c).totalReads.toNat + (s.stats.get c).totalWrites.toNat ∧
    (s.stats.get c).totalInstructions.toNat = s.pc.get c

/-- P5: the misses of all cores together are at most the bus transactions (rule R140). -/
def MissesBounded (s : State) : Prop :=
  (s.stats.get 0).cacheMisses.toNat + (s.stats.get 1).cacheMisses.toNat + (s.stats.get 2).cacheMisses.toNat +
    (s.stats.get 3).cacheMisses.toNat ≤ s.totalBusTransactions.toNat

/-- P7: the ticks charged to a core are at most the ticks taken (rules R138, R190). -/
def CyclesBounded (s : State) : Prop :=
  ∀ c, (s.stats.get c).totalCycles.toNat + (s.stats.get c).idleCycles.toNat ≤ s.globalCycle.toNat

/-- The accounting properties of a run that no fault has stopped. -/
def Accounted (s : State) : Prop :=
  s.faultCode ≠ .fNone ∨ (InstructionsCounted s ∧ MissesBounded s ∧ CyclesBounded s)

/-! ### The terms of the statements -/

/-- An increment of counter `x` by `k` fits its 64 bits (rule R199). -/
abbrev HasRoom (s : State) (x : Counter) (k : Nat) : Prop := (s.counter x).toNat + k < 2 ^ 64

/-- Every counter of the list can grow by its amount (rule R199). -/
abbrev HasRooms (s : State) (l : List (Counter × Nat)) : Prop := ∀ p ∈ l, HasRoom s p.1 p.2

/-- The counters that the completion of an access by core `c` counts up, `kind` being its read or write counter
(rules R126, R127). -/
def completionCounters (c : CoreId) (kind : StatName) : List (Counter × Nat) :=
  [(.lruCtr c, 1), (.stat c kind, 1), (.stat c .totalInstructions, 1), (.stat c .totalCycles, 1)]

/-- The counters that an issue by core `c` counts up, `B` bytes being one block (rules R132, R133). -/
def issueCounters (c : CoreId) (B : Nat) (w : Bool) : List (Counter × Nat) :=
  [(.stat c .cacheMisses, 1), (.stat c .totalCycles, 1), (.stat c .dataTrafficBytes, B), (.busTransactions, 1),
    (.busTrafficBytes, B)] ++ (if w then [(.stat c .busInvalidations, 1)] else [])

/-- The counters that a writeback of one block of `B` bytes by cache `c` counts up (rules R149, R156, R158). -/
def writebackCounters (c : CoreId) (B : Nat) : List (Counter × Nat) :=
  [(.stat c .writebacks, 1), (.stat c .dataTrafficBytes, B), (.busTransactions, 1), (.busTrafficBytes, B)]

/-- The tag array of a cache with line `w` of set `si` rewritten by `f`. -/
def lineRewritten (cfg : Config) (sets : List (Nat × List Line)) (si w : Nat) (f : Line → Line) :
    List (Nat × List Line) := writeSet cfg.E si ((readSet cfg.E si sets).modify w f) sets

/-- The caches of `s` with the line in the victim slot of set `si` of cache `c` replaced by a touched line
with tag `t` and state `m` (rules R112, R113). -/
def installedCaches (s : State) (c : CoreId) (si : Nat) (t : Tag) (m : Mesi) : Quad Cache :=
  s.cache.set c
    { sets := lineRewritten s.cfg (s.cache.get c).sets si (s.victim c si)
        (fun _ => { tag := t, mesi := m, lru := (s.cache.get c).lruCtr + 1 })
      lruCtr := (s.cache.get c).lruCtr + 1 }

/-- The lines of `t` are those of `s` with the copies of the block `(si, tg)` outside `c0` INVALID; no LRU
counter differs (rules R158, R163). -/
def OtherCopiesInvalidated (s t : State) (c0 : CoreId) (si : Nat) (tg : Tag) : Prop :=
  (∀ c, (t.cache.get c).lruCtr = (s.cache.get c).lruCtr) ∧
    ∀ c si' w, t.lineAt c si' w =
      if c ≠ c0 ∧ si' = si ∧ s.lookup c si tg = some w then
        (s.lineAt c si' w).map fun l => { l with mesi := .invalid }
      else s.lineAt c si' w

/-- The lines of `t` are those of `s` with the victim of set `si` of cache `c0` INVALID and the one other SHARED
copy of its block, where there is exactly one, EXCLUSIVE; no LRU counter differs (rules R148, R150). -/
def VictimDropped (s t : State) (c0 : CoreId) (si : Nat) : Prop :=
  (∀ c, (t.cache.get c).lruCtr = (s.cache.get c).lruCtr) ∧
    ∀ c si' w, t.lineAt c si' w =
      if c = c0 ∧ si' = si ∧ w = s.victim c0 si then
        (s.lineAt c si' w).map fun l => { l with mesi := .invalid }
      else if s.sharers c0 si (s.victimLine c0 si).tag = [c] ∧ si' = si ∧
          s.lookup c si (s.victimLine c0 si).tag = some w then
        (s.lineAt c si' w).map fun l => { l with mesi := .exclusive }
      else s.lineAt c si' w

end Sys2Proof.Machine
end

