-- ==== Sys2Proof/Certificates/Slice0/Obligations.lean ====
section
/-! DEFINITION. The statements about the model, from the numbered rules of the spec. -/

section

open Sys2Proof Sys2Proof.Machine

/-! ### Encoding -/

/-- Decoding an encoded command gives it back: every command, with every core number and every address. -/
def Obligations.DecodeOfEncodeIsTheCommand : Prop :=
  ∀ i : Instr, i.wf = true → decode (encode i) = .instr i

/-- A word that decodes to a command is the word of that command: no two words mean the same. -/
def Obligations.EncodeOfDecodedWordIsTheWord : Prop :=
  ∀ (cw : CommandWord) (i : Instr), decode cw = .instr i → encode i = cw

/-- A bus word is refused exactly when bit 36 is set and bits 35..34 are not `11`; no request word is refused
(rule R97). -/
def Obligations.OnlyReservedBusWordsAreRefused : Prop :=
  (∀ w : BusWord, decode (.bus w) = .refused .reservedBusWord ↔
      w.getLsbD 36 = true ∧ w.extractLsb' 34 2 ≠ 0b11#2) ∧
    ∀ w : ReqWord, ∃ i, decode (.req w) = .instr i

/-- Words written out from the encodings of rules R89, R90 and R92–R96 decode to the commands they stand for. -/
def Obligations.WrittenWordsDecode : Prop :=
  decode (.req 0x0FFFFFFFF#33) = .instr (.prRd 0xFFFFFFFF#32) ∧
    decode (.req 0x1DEADBEEF#33) = .instr (.prWr 0xDEADBEEF#32) ∧
    decode (.bus 0x0200000060#37) = .instr (.busRd 2 0x60#32) ∧
    decode (.bus 0x0700000000#37) = .instr (.busRdX 3 0x0#32) ∧
    decode (.bus 0x0900000000#37) = .instr (.busUpgr 1 0x0#32) ∧
    decode (.bus 0x1C00000040#37) = .instr (.flushEvict 0 0x40#32) ∧
    decode (.bus 0x0D00000000#37) = .instr (.flushInterv 1 0x0#32) ∧
    decode (.bus 0x1400000000#37) = .refused .reservedBusWord

/-- The bus word shows `evict`, `req_type`, `src_core` and `addr` in the bits of rule R91, and it decodes to the
command that a snoop runs, where `evict` is set only in a FLUSH. -/
def Obligations.BusWordShowsTheBusRecord : Prop :=
  ∀ (b : Bus) (c : CoreId), b.srcCore = some c → ∃ w, b.word = some w ∧
    w.getLsbD 36 = b.evict ∧ w.extractLsb' 34 2 = b.reqType.code ∧ w.extractLsb' 32 2 = BitVec.ofNat 2 c.val ∧
    w.extractLsb' 0 32 = b.addr ∧
    ((b.evict = true → b.reqType = .flush) → ∃ i, decode (.bus w) = .instr i ∧ b.command = some i)

/-- A trace line is a record exactly when it has the form `ws* op ws+ hexaddr ws*` of rule R104 with a value below
`2^32`, and its request word holds the write bit of the op and the value. -/
def Obligations.TraceLineIsTheGrammar : Prop :=
  ∀ (line : List Char) (w : ReqWord), parseLine line = some w ↔
    ∃ (b1 b2 b3 p ds : List Char) (op : Char) (vs : List Nat),
      line = b1 ++ op :: b2 ++ p ++ ds ++ b3 ∧ (∀ x ∈ b1 ++ b2 ++ b3, x = ' ' ∨ x = '\t') ∧ b2 ≠ [] ∧
      (op = 'R' ∨ op = 'W') ∧ (p = [] ∨ p = ['0', 'x'] ∨ p = ['0', 'X']) ∧ ds ≠ [] ∧ ds.map hexDigit = vs.map some ∧
      vs.foldl (fun v d => 16 * v + d) 0 < 2 ^ 32 ∧
      w = packReq (op == 'W') (BitVec.ofNat 32 (vs.foldl (fun v d => 16 * v + d) 0))

/-! ### Address decode -/

/-- `tag_of` and `set_of` are the mathematical shifts and the mask of rules R61 and R62, within their bounds, also
where `s + b = 32`, `s = 0` or `b = 32`. -/
def Obligations.TagAndSetAreTheAddressFields : Prop :=
  ∀ (cfg : Config) (a : Addr), cfg.legal = true →
    (tagOf cfg a).toNat = a.toNat / 2 ^ (cfg.s + cfg.b) ∧ (tagOf cfg a).toNat < 2 ^ (32 - cfg.s - cfg.b) ∧
      (cfg.s + cfg.b = 32 → tagOf cfg a = 0) ∧
      setOf cfg a = a.toNat / 2 ^ cfg.b &&& (2 ^ cfg.s - 1) ∧ setOf cfg a ≤ 2 ^ cfg.s - 1 ∧
      (cfg.s = 0 → setOf cfg a = 0) ∧ (cfg.b = 32 → setOf cfg a = 0)

/-- Two addresses name the same block exactly when their tags and sets agree, and the block of an address lies at
`(tag · 2^s + set) · 2^b`. The equivalence is the spec's own inference from R61 and R62 (20_memory.md section 2,
"since `a >> b = tag_of(a) · 2^s + set_of(a)`"). -/
def Obligations.SameBlockIsSameTagAndSet : Prop :=
  ∀ (cfg : Config) (a1 a2 : Addr), cfg.legal = true →
    (a1.toNat / 2 ^ cfg.b = a2.toNat / 2 ^ cfg.b ↔ tagOf cfg a1 = tagOf cfg a2 ∧ setOf cfg a1 = setOf cfg a2) ∧
      (sameBlock cfg a1 a2 = true ↔ a1.toNat / 2 ^ cfg.b = a2.toNat / 2 ^ cfg.b) ∧
      blockAddress cfg (tagOf cfg a1) (setOf cfg a1) = a1.toNat / 2 ^ cfg.b * 2 ^ cfg.b

/-- Two commands whose addresses lie in one block act alike: the two requests and BusUpgr leave states that differ
at most in the address recorded on the bus, which keeps its offset bits (rule R34), the other commands the same
answer (rule R63). -/
def Obligations.OffsetBitsAreDiscarded : Prop :=
  ∀ (s : State) (c : CoreId) (a1 a2 : Addr), sameBlock s.cfg a1 a2 = true →
    (∀ i1 i2, (i1, i2) = (.prRd a1, .prRd a2) ∨ (i1, i2) = (.prWr a1, .prWr a2) ∨
        (i1, i2) = (.busUpgr c a1, .busUpgr c a2) →
      (∃ r, exec i1 s = .refused r ∧ exec i2 s = .refused r) ∨
        ∃ t1 t2, exec i1 s = .next t1 ∧ exec i2 s = .next t2 ∧
          t2 = { t1 with bus := { t1.bus with addr := t2.bus.addr } }) ∧
    exec (.busRd c a1) s = exec (.busRd c a2) s ∧ exec (.busRdX c a1) s = exec (.busRdX c a2) s ∧
    exec (.flushEvict c a1) s = exec (.flushEvict c a2) s ∧ exec (.flushInterv c a1) s = exec (.flushInterv c a2) s

/-! ### The tag array -/

/-- `lookup` answers the first valid line with the tag, and nothing exactly when there is none: an INVALID line
with the tag is passed over (rule R110). -/
def Obligations.LookupFindsTheFirstValidLine : Prop :=
  ∀ (s : State) (c : CoreId) (si : Nat) (t : Tag),
    (∀ w, s.lookup c si t = some w ↔
      (∃ l, s.lineAt c si w = some l ∧ l.mesi ≠ .invalid ∧ l.tag = t) ∧
        ∀ j < w, ∀ l, s.lineAt c si j = some l → l.mesi = .invalid ∨ l.tag ≠ t) ∧
    (s.lookup c si t = none ↔ ∀ w l, s.lineAt c si w = some l → l.mesi = .invalid ∨ l.tag ≠ t)

/-- `victim` answers a line of the set: the first INVALID one where there is one, and otherwise the first of those
with the smallest `lru` (rule R111). -/
def Obligations.VictimIsFirstInvalidOrLeastRecent : Prop :=
  ∀ (s : State) (c : CoreId) (si : Nat), ArraysShaped s → 1 ≤ s.cfg.E →
    ∃ v, s.lineAt c si (s.victim c si) = some v ∧
      ((∃ w l, s.lineAt c si w = some l ∧ l.mesi = .invalid) →
        v.mesi = .invalid ∧ ∀ j < s.victim c si, ∀ l, s.lineAt c si j = some l → l.mesi ≠ .invalid) ∧
      ((∀ w l, s.lineAt c si w = some l → l.mesi ≠ .invalid) →
        (∀ w l, s.lineAt c si w = some l → v.lru.toNat ≤ l.lru.toNat) ∧
          ∀ j < s.victim c si, ∀ l, s.lineAt c si j = some l → v.lru.toNat < l.lru.toNat)

/-- `touch` counts the LRU counter of its cache up and stamps the line with the new value, and writes nothing else;
where the counter is full it raises F_OVERFLOW and writes nothing (rule R112). -/
def Obligations.TouchStampsTheLine : Prop :=
  ∀ (s : State) (c : CoreId) (si w : Nat), ArraysShaped s → s.faultCode = .fNone →
    (HasRoom s (.lruCtr c) 1 →
      touch c si w s = { s with cache := (touch c si w s).cache } ∧
        (∀ c', ((touch c si w s).cache.get c').lruCtr =
          if c' = c then (s.cache.get c').lruCtr + 1 else (s.cache.get c').lruCtr) ∧
        ∀ c' si' w', (touch c si w s).lineAt c' si' w' =
          if c' = c ∧ si' = si ∧ w' = w then
            (s.lineAt c' si' w').map fun l => { l with lru := (s.cache.get c).lruCtr + 1 }
          else s.lineAt c' si' w') ∧
    (¬ HasRoom s (.lruCtr c) 1 → touch c si w s = { s with faultCode := .fOverflow })

/-- `install` replaces the line in the victim slot by the block, touched, and writes nothing else (rule R113). -/
def Obligations.InstallReplacesTheVictim : Prop :=
  ∀ (s : State) (c : CoreId) (si : Nat) (t : Tag) (m : Mesi), ArraysShaped s → 1 ≤ s.cfg.E → si < s.cfg.numSets →
    s.faultCode = .fNone → HasRoom s (.lruCtr c) 1 →
      install c si t m s = { s with cache := (install c si t m s).cache } ∧
        (∀ c', ((install c si t m s).cache.get c').lruCtr =
          if c' = c then (s.cache.get c').lruCtr + 1 else (s.cache.get c').lruCtr) ∧
        ∀ c' si' w', (install c si t m s).lineAt c' si' w' =
          if c' = c ∧ si' = si ∧ w' = s.victim c si then
            some { tag := t, mesi := m, lru := (s.cache.get c).lruCtr + 1 }
          else s.lineAt c' si' w'

/-! ### Processor requests -/

/-- READ_HIT (rule R126): a read that hits completes, whatever the bus does; a full counter raises F_OVERFLOW. -/
def Obligations.PrRdHitCompletes : Prop :=
  ∀ (s : State) (a : Addr) (c : CoreId) (si k : Nat), s.faultCode = .fNone → c = s.turn → si = setOf s.cfg a →
    s.lookup c si (tagOf s.cfg a) = some k →
    (HasRooms s (completionCounters c .totalReads) →
      exec (.prRd a) s = .next
        { s with
          cache := s.cache.set c
            { sets := lineRewritten s.cfg (s.cache.get c).sets si k
                (fun l => { l with lru := (s.cache.get c).lruCtr + 1 })
              lruCtr := (s.cache.get c).lruCtr + 1 }
          stats := s.stats.set c
            { s.stats.get c with
              totalReads := (s.stats.get c).totalReads + 1
              totalInstructions := (s.stats.get c).totalInstructions + 1
              totalCycles := (s.stats.get c).totalCycles + 1 }
          pc := s.pc.set c (s.pc.get c + 1) }) ∧
    (¬ HasRooms s (completionCounters c .totalReads) →
      ∃ t, exec (.prRd a) s = .next t ∧ t.faultCode = .fOverflow ∧ t.pc = s.pc)

/-- WRITE_HIT_ME (rule R127): a write that hits M or E makes the line M and completes, without the bus; a full
counter raises F_OVERFLOW. -/
def Obligations.PrWrHitOnOwnedLineCompletes : Prop :=
  ∀ (s : State) (a : Addr) (c : CoreId) (si k : Nat), ArraysShaped s → s.faultCode = .fNone → c = s.turn →
    si = setOf s.cfg a → s.lookup c si (tagOf s.cfg a) = some k →
    (s.mesiOf c si (tagOf s.cfg a) = .modified ∨ s.mesiOf c si (tagOf s.cfg a) = .exclusive) →
    (HasRooms s (completionCounters c .totalWrites) →
      exec (.prWr a) s = .next
        { s with
          cache := s.cache.set c
            { sets := lineRewritten s.cfg (s.cache.get c).sets si k
                (fun l => { l with mesi := .modified, lru := (s.cache.get c).lruCtr + 1 })
              lruCtr := (s.cache.get c).lruCtr + 1 }
          stats := s.stats.set c
            { s.stats.get c with
              totalWrites := (s.stats.get c).totalWrites + 1
              totalInstructions := (s.stats.get c).totalInstructions + 1
              totalCycles := (s.stats.get c).totalCycles + 1 }
          pc := s.pc.set c (s.pc.get c + 1) }) ∧
    (¬ HasRooms s (completionCounters c .totalWrites) →
      ∃ t, exec (.prWr a) s = .next t ∧ t.faultCode = .fOverflow ∧ t.pc = s.pc)

/-- A write that hits SHARED with the bus available does exactly what the BusUpgr of its core and address does
(rules R128, R129, R171). -/
def Obligations.PrWrHitOnSharedLineIsTheUpgrade : Prop :=
  ∀ (s : State) (a : Addr), s.bus.available = true →
    s.mesiOf s.turn (setOf s.cfg a) (tagOf s.cfg a) = .shared → exec (.prWr a) s = exec (.busUpgr s.turn a) s

/-- STALL (rule R131): on a busy bus a miss, and a write hit on SHARED, only charge the tick: to `total_cycles`
where `bus.src_core` is the core, to `idle_cycles` otherwise; a full counter raises F_OVERFLOW. -/
def Obligations.BusyBusStallsTheCore : Prop :=
  ∀ (s : State) (a : Addr) (c : CoreId) (i : Instr), s.faultCode = .fNone → c = s.turn → s.bus.available = false →
    ((i = .prRd a ∧ s.lookup c (setOf s.cfg a) (tagOf s.cfg a) = none) ∨
      (i = .prWr a ∧ (s.lookup c (setOf s.cfg a) (tagOf s.cfg a) = none ∨
        s.mesiOf c (setOf s.cfg a) (tagOf s.cfg a) = .shared))) →
    (s.bus.srcCore = some c →
      (HasRoom s (.stat c .totalCycles) 1 → exec i s = .next
        { s with
          stats := s.stats.set c { s.stats.get c with totalCycles := (s.stats.get c).totalCycles + 1 } }) ∧
      (¬ HasRoom s (.stat c .totalCycles) 1 → exec i s = .next { s with faultCode := .fOverflow })) ∧
    (s.bus.srcCore ≠ some c →
      (HasRoom s (.stat c .idleCycles) 1 → exec i s = .next
        { s with
          stats := s.stats.set c { s.stats.get c with idleCycles := (s.stats.get c).idleCycles + 1 } }) ∧
      (¬ HasRoom s (.stat c .idleCycles) 1 → exec i s = .next { s with faultCode := .fOverflow }))

/-- ISSUE (rule R132) of a read miss: a BusRd is put on the bus, waiting for its first observation, and the miss is
charged; no line changes and the program counter stays. A full counter raises F_OVERFLOW. -/
def Obligations.ReadMissIssuesBusRd : Prop :=
  ∀ (s : State) (a : Addr) (c : CoreId), s.faultCode = .fNone → c = s.turn → s.bus.available = true →
    s.lookup c (setOf s.cfg a) (tagOf s.cfg a) = none →
    (HasRooms s (issueCounters c s.cfg.blockSize false) →
      exec (.prRd a) s = .next
        { s with
          bus := { s.bus with
            available := false, done := true, srcCore := some c, addr := a, reqType := .busRd
            respCore := none, evict := false }
          stats := s.stats.set c
            { s.stats.get c with
              cacheMisses := (s.stats.get c).cacheMisses + 1
              totalCycles := (s.stats.get c).totalCycles + 1
              dataTrafficBytes := (s.stats.get c).dataTrafficBytes + BitVec.ofNat 64 s.cfg.blockSize }
          totalBusTransactions := s.totalBusTransactions + 1
          totalBusTrafficBytes := s.totalBusTrafficBytes + BitVec.ofNat 64 s.cfg.blockSize }) ∧
    (¬ HasRooms s (issueCounters c s.cfg.blockSize false) →
      ∃ t, exec (.prRd a) s = .next t ∧ t.faultCode = .fOverflow ∧ t.cache = s.cache ∧ t.pc = s.pc)

/-- ISSUE (rules R132, R133) of a write miss: as a read miss with a BusRdX, and one `bus_invalidations` more. -/
def Obligations.WriteMissIssuesBusRdX : Prop :=
  ∀ (s : State) (a : Addr) (c : CoreId), s.faultCode = .fNone → c = s.turn → s.bus.available = true →
    s.lookup c (setOf s.cfg a) (tagOf s.cfg a) = none →
    (HasRooms s (issueCounters c s.cfg.blockSize true) →
      exec (.prWr a) s = .next
        { s with
          bus := { s.bus with
            available := false, done := true, srcCore := some c, addr := a, reqType := .busRdX
            respCore := none, evict := false }
          stats := s.stats.set c
            { s.stats.get c with
              cacheMisses := (s.stats.get c).cacheMisses + 1
              totalCycles := (s.stats.get c).totalCycles + 1
              dataTrafficBytes := (s.stats.get c).dataTrafficBytes + BitVec.ofNat 64 s.cfg.blockSize
              busInvalidations := (s.stats.get c).busInvalidations + 1 }
          totalBusTransactions := s.totalBusTransactions + 1
          totalBusTrafficBytes := s.totalBusTrafficBytes + BitVec.ofNat 64 s.cfg.blockSize }) ∧
    (¬ HasRooms s (issueCounters c s.cfg.blockSize true) →
      ∃ t, exec (.prWr a) s = .next t ∧ t.faultCode = .fOverflow ∧ t.cache = s.cache ∧ t.pc = s.pc)

/-- Every access attempt that raises no fault adds exactly 1 to `total_cycles + idle_cycles` of its core, and
nothing to those of the others: an inference the spec draws from R126–R133 (41_processor_access.md section 6,
"Each access attempt … adds exactly 1"). -/
def Obligations.AttemptChargesOneTick : Prop :=
  ∀ (s t : State) (a : Addr) (i : Instr), i = .prRd a ∨ i = .prWr a → s.faultCode = .fNone →
    exec i s = .next t → t.faultCode = .fNone → ∀ c,
      (t.stats.get c).totalCycles.toNat + (t.stats.get c).idleCycles.toNat =
        (s.stats.get c).totalCycles.toNat + (s.stats.get c).idleCycles.toNat + if c = s.turn then 1 else 0

/-- What a PrRd leaves alone: everything of the other cores, every line but the one it hits, whose tag and state it
keeps, the counters that R126, R131 and R132 do not name, and on a hit or a stall the bus and its totals. -/
def Obligations.PrRdFrame : Prop :=
  ∀ (s t : State) (a : Addr) (c : CoreId), ArraysShaped s → c = s.turn → exec (.prRd a) s = .next t →
    (t.cfg = s.cfg ∧ t.traces = s.traces ∧ t.coreDone = s.coreDone ∧ t.activeCores = s.activeCores ∧
      t.globalCycle = s.globalCycle ∧ t.turn = s.turn) ∧
    (∀ c', c' ≠ c → t.cache.get c' = s.cache.get c' ∧ t.stats.get c' = s.stats.get c' ∧ t.pc.get c' = s.pc.get c') ∧
    (∀ n, n ∉ [.totalInstructions, .totalReads, .totalCycles, .idleCycles, .cacheMisses, .dataTrafficBytes] →
      (t.stats.get c).read n = (s.stats.get c).read n) ∧
    (∀ si w, ¬ (si = setOf s.cfg a ∧ s.lookup c si (tagOf s.cfg a) = some w) →
      t.lineAt c si w = s.lineAt c si w) ∧
    (∀ w l, s.lookup c (setOf s.cfg a) (tagOf s.cfg a) = some w → s.lineAt c (setOf s.cfg a) w = some l →
      ∃ x, t.lineAt c (setOf s.cfg a) w = some { l with lru := x }) ∧
    (s.lookup c (setOf s.cfg a) (tagOf s.cfg a) ≠ none ∨ s.bus.available = false →
      t.bus = s.bus ∧ t.totalBusTransactions = s.totalBusTransactions ∧
        t.totalBusTrafficBytes = s.totalBusTrafficBytes) ∧
    (t.bus.cyclesRemaining = s.bus.cyclesRemaining ∧ t.bus.prevCore = s.bus.prevCore ∧
      t.bus.prevReqType = s.bus.prevReqType ∧ t.bus.prevMesi = s.bus.prevMesi)

/-- What a PrWr leaves alone: the statistics, program counters and LRU counters of the other cores, every line but
those that hold its block, the tags of all lines and the `lru` of the other caches' lines, the counters that R127,
R129, R131, R132 and R133 do not name, and on a hit every bus field but the three that an upgrade writes. -/
def Obligations.PrWrFrame : Prop :=
  ∀ (s t : State) (a : Addr) (c : CoreId), ArraysShaped s → c = s.turn → exec (.prWr a) s = .next t →
    (t.cfg = s.cfg ∧ t.traces = s.traces ∧ t.coreDone = s.coreDone ∧ t.activeCores = s.activeCores ∧
      t.globalCycle = s.globalCycle ∧ t.turn = s.turn) ∧
    (∀ c', c' ≠ c → (t.cache.get c').lruCtr = (s.cache.get c').lruCtr ∧ t.stats.get c' = s.stats.get c' ∧
      t.pc.get c' = s.pc.get c') ∧
    (∀ n, n ∉ [.totalInstructions, .totalWrites, .totalCycles, .idleCycles, .cacheMisses, .busInvalidations,
        .dataTrafficBytes] → (t.stats.get c).read n = (s.stats.get c).read n) ∧
    (∀ c' si w, ¬ (si = setOf s.cfg a ∧ s.lookup c' si (tagOf s.cfg a) = some w) →
      t.lineAt c' si w = s.lineAt c' si w) ∧
    (∀ c' w l, s.lookup c' (setOf s.cfg a) (tagOf s.cfg a) = some w → s.lineAt c' (setOf s.cfg a) w = some l →
      ∃ m x, t.lineAt c' (setOf s.cfg a) w = some { l with mesi := m, lru := x } ∧ (c' ≠ c → x = l.lru)) ∧
    (s.lookup c (setOf s.cfg a) (tagOf s.cfg a) ≠ none ∨ s.bus.available = false →
      t.bus = { s.bus with srcCore := t.bus.srcCore, addr := t.bus.addr, reqType := t.bus.reqType } ∧
        t.totalBusTrafficBytes = s.totalBusTrafficBytes) ∧
    (t.bus.cyclesRemaining = s.bus.cyclesRemaining ∧ t.bus.prevCore = s.bus.prevCore ∧
      t.bus.prevReqType = s.bus.prevReqType ∧ t.bus.prevMesi = s.bus.prevMesi)

/-! ### BusUpgr -/

/-- BUSUPGR (rule R129) with SNOOP_UPGR (rule R163): where the writer holds the block SHARED and every other holder
holds it SHARED, the other copies become INVALID, the writer's line M, and the write completes in the same step. -/
def Obligations.BusUpgrTakesOwnership : Prop :=
  ∀ (s : State) (c : CoreId) (a : Addr) (si k : Nat) (tg : Tag), ArraysShaped s → s.faultCode = .fNone →
    si = setOf s.cfg a → tg = tagOf s.cfg a → s.bus.available = true → s.lookup c si tg = some k →
    (∀ c', s.lookup c' si tg ≠ none → s.mesiOf c' si tg = .shared) →
    HasRooms s ([(.stat c .busInvalidations, 1), (.busTransactions, 1)] ++ completionCounters c .totalWrites) →
    ∃ t, exec (.busUpgr c a) s = .next t ∧
      t = { s with
        cache := t.cache
        bus := { s.bus with srcCore := some c, addr := a, reqType := .busUpgr }
        totalBusTransactions := s.totalBusTransactions + 1
        stats := s.stats.set c
          { s.stats.get c with
            busInvalidations := (s.stats.get c).busInvalidations + 1
            totalWrites := (s.stats.get c).totalWrites + 1
            totalInstructions := (s.stats.get c).totalInstructions + 1
            totalCycles := (s.stats.get c).totalCycles + 1 }
        pc := s.pc.set c (s.pc.get c + 1) } ∧
      (∀ c', (t.cache.get c').lruCtr = if c' = c then (s.cache.get c').lruCtr + 1 else (s.cache.get c').lruCtr) ∧
      ∀ c' si' w, t.lineAt c' si' w =
        if c' = c ∧ si' = si ∧ w = k then
          (s.lineAt c' si' w).map fun l => { l with mesi := .modified, lru := (s.cache.get c).lruCtr + 1 }
        else if c' ≠ c ∧ si' = si ∧ s.lookup c' si tg = some w then
          (s.lineAt c' si' w).map fun l => { l with mesi := .invalid }
        else s.lineAt c' si' w

/-- SNOOP_UPGR (rule R163): a BusUpgr that finds an E or M copy in another cache raises F_COHERENCE; nothing is
counted and the write does not complete. -/
def Obligations.BusUpgrFindingAnOwnerFaults : Prop :=
  ∀ (s : State) (c c' : CoreId) (a : Addr), s.faultCode = .fNone → s.bus.available = true →
    s.mesiOf c (setOf s.cfg a) (tagOf s.cfg a) = .shared → c' ≠ c →
    (s.mesiOf c' (setOf s.cfg a) (tagOf s.cfg a) = .exclusive ∨
      s.mesiOf c' (setOf s.cfg a) (tagOf s.cfg a) = .modified) →
    ∃ t, exec (.busUpgr c a) s = .next t ∧ t.faultCode = .fCoherence ∧ t.stats = s.stats ∧ t.pc = s.pc ∧
      t.totalBusTransactions = s.totalBusTransactions

/-- A snoop that finds BUSUPGR on a busy bus raises F_BUS_STATE and changes nothing else, whatever core the record
names (rules R164, R202), and so does the command itself on any busy bus (the model's choice, log 11). -/
def Obligations.BusUpgrOnBusyBusFaults : Prop :=
  ∀ s : State, s.faultCode = .fNone → s.bus.available = false →
    (s.bus.reqType = .busUpgr → snoop s = .next { s with faultCode := .fBusState }) ∧
      ∀ c a, exec (.busUpgr c a) s = .next { s with faultCode := .fBusState }

/-- The model's choice (logs 9 and 10), where no rule says what happens: a BusUpgr on an available bus by a core
that does not hold the block SHARED is refused, and so is a snoop that needs the source cache of a record with
`src_core = −1`. -/
def Obligations.StatesWithoutARuleAreRefused : Prop :=
  (∀ (s : State) (c : CoreId) (a : Addr), s.faultCode = .fNone → s.bus.available = true →
    s.mesiOf c (setOf s.cfg a) (tagOf s.cfg a) ≠ .shared → exec (.busUpgr c a) s = .refused .upgradeNotShared) ∧
  ∀ s : State, s.bus.available = false → s.bus.srcCore = none →
    (s.bus.reqType = .busRd ∨ s.bus.reqType = .busRdX) → (s.bus.done = true ∨ s.bus.cyclesRemaining = 0) →
    snoop s = .refused .noBusSource

/-! ### Victim preparation -/

/-- At the first observation of a demand whose victim is not MODIFIED, the demand acts as on the state that victim
preparation leaves, in which the victim slot is INVALID, and preparing again changes nothing (rules R146, R147). -/
def Obligations.DemandStartsAfterPreparation : Prop :=
  ∀ (s u : State) (c : CoreId) (a : Addr) (si : Nat), ArraysShaped s → 1 ≤ s.cfg.E → s.faultCode = .fNone →
    si = setOf s.cfg a → s.bus.available = false → s.bus.done = true → (s.victimLine c si).mesi ≠ .modified →
    u = victimPrep c si s.bus.reqType s → u.faultCode = .fNone →
    (u.victimLine c si).mesi = .invalid ∧ (∀ r, victimPrep c si r u = u) ∧
      exec (.busRd c a) s = exec (.busRd c a) u ∧ exec (.busRdX c a) s = exec (.busRdX c a) u

/-- Victim preparation over a clean victim (rules R147, R148, R150): the victim becomes INVALID, the only other
SHARED copy of its block EXCLUSIVE, and one eviction is counted; nothing else changes. -/
def Obligations.CleanVictimIsDropped : Prop :=
  ∀ (s : State) (c : CoreId) (si : Nat) (req : ReqType), ArraysShaped s → s.faultCode = .fNone → si < s.cfg.numSets →
    (s.victimLine c si).mesi ≠ .invalid → (s.victimLine c si).mesi ≠ .modified →
    HasRoom s (.stat c .cacheEvictions) 1 →
    VictimDropped s (victimPrep c si req s) c si ∧
      victimPrep c si req s =
        { s with
          cache := (victimPrep c si req s).cache
          stats := s.stats.set c
            { s.stats.get c with cacheEvictions := (s.stats.get c).cacheEvictions + 1 } }

/-- An observation of a BusRd or BusRdX whose victim is MODIFIED drops the victim and chains the eviction
writeback, charged to the requester; the demand waits (rules R147–R150). -/
def Obligations.DirtyVictimChainsEvictionFlush : Prop :=
  ∀ (s : State) (c : CoreId) (a : Addr) (i : Instr) (req : ReqType), ArraysShaped s → s.faultCode = .fNone →
    (i = .busRd c a ∧ req = .busRd) ∨ (i = .busRdX c a ∧ req = .busRdX) →
    s.bus.available = false → s.bus.done = true → (s.victimLine c (setOf s.cfg a)).mesi = .modified →
    HasRooms s ((.stat c .cacheEvictions, 1) :: writebackCounters c s.cfg.blockSize) →
    ∃ t, exec i s = .next t ∧ VictimDropped s t c (setOf s.cfg a) ∧
      t = { s with
        cache := t.cache
        bus := { s.bus with
          prevReqType := req, prevMesi := .modified, reqType := .flush, evict := true, done := true }
        stats := s.stats.set c
          { s.stats.get c with
            cacheEvictions := (s.stats.get c).cacheEvictions + 1
            writebacks := (s.stats.get c).writebacks + 1
            dataTrafficBytes := (s.stats.get c).dataTrafficBytes + BitVec.ofNat 64 s.cfg.blockSize }
        totalBusTransactions := s.totalBusTransactions + 1
        totalBusTrafficBytes := s.totalBusTrafficBytes + BitVec.ofNat 64 s.cfg.blockSize }

/-! ### BusRd

In the statements about bus commands the source cache and the address are the command's operands `C` and `A`
(rule R98), which in a snoop are those of the bus record; for a record that holds another command, see log 11. -/

/-- BUSRD_START with no other holder (rule R153): the phase is served by memory. -/
def Obligations.BusRdStartsFromMemory : Prop :=
  ∀ (s : State) (c : CoreId) (a : Addr) (si : Nat), s.faultCode = .fNone → si = setOf s.cfg a →
    s.bus.available = false → s.bus.done = true → (s.victimLine c si).mesi = .invalid →
    (∀ c', c' ≠ c → s.lookup c' si (tagOf s.cfg a) = none) →
    exec (.busRd c a) s = .next
      { s with bus := { s.bus with respCore := none, cyclesRemaining := 100, done := false } }

/-- BUSRD_START with other holders (rules R151, R152): the lowest-indexed holder responds, its state is saved and it
is downgraded to SHARED without a touch; no other cache changes. -/
def Obligations.BusRdStartsFromLowestHolder : Prop :=
  ∀ (s : State) (c r : CoreId) (a : Addr) (si k : Nat) (t : Tag), s.faultCode = .fNone → si = setOf s.cfg a →
    t = tagOf s.cfg a → s.bus.available = false → s.bus.done = true → (s.victimLine c si).mesi = .invalid →
    r ≠ c → s.lookup r si t = some k → (∀ c', c' ≠ c → c' < r → s.lookup c' si t = none) →
    exec (.busRd c a) s = .next
      { s with
        cache := s.cache.set r
          { s.cache.get r with
            sets := lineRewritten s.cfg (s.cache.get r).sets si k (fun l => { l with mesi := .shared }) }
        bus := { s.bus with
          respCore := some r, prevMesi := s.mesiOf r si t
          cyclesRemaining := BitVec.ofNat 32 s.cfg.busCycles, done := false } }

/-- BUSRD_DONE_MEM and BUSRDX_DONE (rules R154, R162): the requester installs the block, EXCLUSIVE for a BUSRD and
MODIFIED for a BUSRDX, the bus is available again, and no counter is charged. -/
def Obligations.MemoryPhaseFillsTheRequester : Prop :=
  ∀ (s : State) (c : CoreId) (a : Addr), ArraysShaped s → s.faultCode = .fNone → s.bus.available = false →
    s.bus.done = false → s.bus.cyclesRemaining = 0 → HasRoom s (.lruCtr c) 1 →
    (s.bus.respCore = none → exec (.busRd c a) s = .next
      { s with
        cache := installedCaches s c (setOf s.cfg a) (tagOf s.cfg a) .exclusive
        bus := { s.bus with available := true } }) ∧
    exec (.busRdX c a) s = .next
      { s with
        cache := installedCaches s c (setOf s.cfg a) (tagOf s.cfg a) .modified
        bus := { s.bus with available := true } }

/-- BUSRD_DONE_C2C (rule R155): the requester installs the block SHARED and the responder is charged the supply.
The bus is available again, unless the responder held the block MODIFIED: then its intervention writeback is
chained and charged to it (rule R156). -/
def Obligations.BusRdFillsFromCache : Prop :=
  ∀ (s : State) (c r : CoreId) (a : Addr) (B : Count), ArraysShaped s → s.faultCode = .fNone →
    B = BitVec.ofNat 64 s.cfg.blockSize → s.bus.available = false → s.bus.done = false →
    s.bus.cyclesRemaining = 0 → s.bus.respCore = some r →
    (s.bus.prevMesi ≠ .modified → HasRooms s [(.lruCtr c, 1), (.stat r .dataTrafficBytes, s.cfg.blockSize)] →
      exec (.busRd c a) s = .next
        { s with
          cache := installedCaches s c (setOf s.cfg a) (tagOf s.cfg a) .shared
          stats := s.stats.set r
            { s.stats.get r with dataTrafficBytes := (s.stats.get r).dataTrafficBytes + B }
          bus := { s.bus with available := true } }) ∧
    (s.bus.prevMesi = .modified →
      HasRooms s [(.lruCtr c, 1), (.stat r .dataTrafficBytes, 2 * s.cfg.blockSize), (.stat r .writebacks, 1),
        (.busTransactions, 1), (.busTrafficBytes, s.cfg.blockSize)] →
      exec (.busRd c a) s = .next
        { s with
          cache := installedCaches s c (setOf s.cfg a) (tagOf s.cfg a) .shared
          stats := s.stats.set r
            { s.stats.get r with
              dataTrafficBytes := (s.stats.get r).dataTrafficBytes + B + B
              writebacks := (s.stats.get r).writebacks + 1 }
          bus := { s.bus with
            prevReqType := .busRd, prevCore := some c, srcCore := some r, reqType := .flush
            evict := false, done := true }
          totalBusTransactions := s.totalBusTransactions + 1
          totalBusTrafficBytes := s.totalBusTrafficBytes + B })

/-! ### BusRdX -/

/-- BUSRDX_START with no MODIFIED holder (rules R158, R159): every other copy becomes INVALID, nothing is counted,
and the phase is served by memory. -/
def Obligations.BusRdXStartsFromMemory : Prop :=
  ∀ (s : State) (c : CoreId) (a : Addr) (si : Nat) (t : Tag), ArraysShaped s → s.faultCode = .fNone →
    si = setOf s.cfg a → t = tagOf s.cfg a → s.bus.available = false → s.bus.done = true →
    (s.victimLine c si).mesi = .invalid → (∀ c', c' ≠ c → s.mesiOf c' si t ≠ .modified) →
    ∃ u, exec (.busRdX c a) s = .next u ∧ OtherCopiesInvalidated s u c si t ∧
      u = { s with cache := u.cache, bus := { s.bus with cyclesRemaining := 100, done := false } }

/-- BUSRDX_START with a MODIFIED holder (rule R158): every other copy becomes INVALID, the owner's intervention
writeback is chained and charged to it, and one tick of the requester moves to `idle_cycles`. -/
def Obligations.BusRdXChainsOwnerWriteback : Prop :=
  ∀ (s : State) (c o : CoreId) (a : Addr) (si : Nat) (t : Tag), ArraysShaped s → s.faultCode = .fNone →
    si = setOf s.cfg a → t = tagOf s.cfg a → s.bus.available = false → s.bus.done = true →
    (s.victimLine c si).mesi = .invalid → o ≠ c →
    (∀ c', c' ≠ c → (s.mesiOf c' si t = .modified ↔ c' = o)) →
    HasRooms s ((.stat c .idleCycles, 1) :: writebackCounters o s.cfg.blockSize) →
    (s.stats.get c).totalCycles ≠ 0 →
    ∃ u, exec (.busRdX c a) s = .next u ∧ OtherCopiesInvalidated s u c si t ∧
      u = { s with
        cache := u.cache
        bus := { s.bus with
          prevReqType := .busRdX, prevCore := some c, srcCore := some o, reqType := .flush
          evict := false, done := true }
        stats := (s.stats.set o
            { s.stats.get o with
              writebacks := (s.stats.get o).writebacks + 1
              dataTrafficBytes := (s.stats.get o).dataTrafficBytes + BitVec.ofNat 64 s.cfg.blockSize }).set c
            { s.stats.get c with
              totalCycles := (s.stats.get c).totalCycles - 1
              idleCycles := (s.stats.get c).idleCycles + 1 }
        totalBusTransactions := s.totalBusTransactions + 1
        totalBusTrafficBytes := s.totalBusTrafficBytes + BitVec.ofNat 64 s.cfg.blockSize }

/-- The adjustment of a BusRdX start raises F_UNDERFLOW where the requester's `total_cycles` is 0; what the start
wrote before it stays, and the requester's counters do not change (rules R158, R201). -/
def Obligations.BusRdXAdjustmentUnderflowFaults : Prop :=
  ∀ (s : State) (c o : CoreId) (a : Addr) (si : Nat) (t : Tag), ArraysShaped s → s.faultCode = .fNone →
    si = setOf s.cfg a → t = tagOf s.cfg a → s.bus.available = false → s.bus.done = true →
    (s.victimLine c si).mesi = .invalid → o ≠ c →
    (∀ c', c' ≠ c → (s.mesiOf c' si t = .modified ↔ c' = o)) →
    HasRooms s (writebackCounters o s.cfg.blockSize) → (s.stats.get c).totalCycles = 0 →
    ∃ u, exec (.busRdX c a) s = .next u ∧ u.faultCode = .fUnderflow ∧ u.stats.get c = s.stats.get c ∧
      OtherCopiesInvalidated s u c si t ∧ u.bus.reqType = .flush ∧
      (u.stats.get o).writebacks = (s.stats.get o).writebacks + 1

/-- What a BusRd or BusRdX leaves alone: configuration, traces, program counters and the access counters; the
requester's lines but its victim slot; of the other caches the LRU counters, all tags and stamps, and every line
but those that hold the demanded block or the victim's. -/
def Obligations.BusRdAndBusRdXFrame : Prop :=
  ∀ (s t : State) (c : CoreId) (a : Addr) (i : Instr) (si : Nat), ArraysShaped s → si = setOf s.cfg a →
    i = .busRd c a ∨ i = .busRdX c a → exec i s = .next t →
    (t.cfg = s.cfg ∧ t.traces = s.traces ∧ t.pc = s.pc ∧ t.coreDone = s.coreDone ∧ t.activeCores = s.activeCores ∧
      t.globalCycle = s.globalCycle ∧ t.turn = s.turn ∧ t.bus.addr = s.bus.addr) ∧
    (∀ c' n, n ∈ [.totalInstructions, .totalReads, .totalWrites, .cacheMisses, .busInvalidations] ∨
        (c' ≠ c ∧ n ∈ [.totalCycles, .idleCycles, .cacheEvictions]) →
      (t.stats.get c').read n = (s.stats.get c').read n) ∧
    (∀ si' w, ¬ (si' = si ∧ w = s.victim c si) → t.lineAt c si' w = s.lineAt c si' w) ∧
    (∀ c', c' ≠ c → (t.cache.get c').lruCtr = (s.cache.get c').lruCtr) ∧
    (∀ c' si' w, c' ≠ c → ¬ (si' = si ∧ (s.lookup c' si (tagOf s.cfg a) = some w ∨
        s.lookup c' si (s.victimLine c si).tag = some w)) → t.lineAt c' si' w = s.lineAt c' si' w) ∧
    ∀ c' si' w l, c' ≠ c → s.lineAt c' si' w = some l → ∃ m, t.lineAt c' si' w = some { l with mesi := m }

/-! ### Flush -/

/-- FLUSH_START, EVICT_DONE and INTERV_DONE (rules R157, R160, R161): a writeback of either kind starts its phase of
`memory_cycles` ticks; the end of an eviction writeback restores the demand for its first observation; the end of
an intervention writeback restores the requester, and then a BUSRD makes the bus available and a BUSRDX is
observed again. -/
def Obligations.FlushPhasesStartAndEnd : Prop :=
  ∀ (s : State) (c : CoreId) (a : Addr), s.faultCode = .fNone → s.bus.available = false →
    (s.bus.done = true → ∀ i, i = .flushEvict c a ∨ i = .flushInterv c a →
      exec i s = .next { s with bus := { s.bus with cyclesRemaining := 100, done := false } }) ∧
    (s.bus.done = false → s.bus.cyclesRemaining = 0 →
      exec (.flushEvict c a) s = .next
        { s with bus := { s.bus with reqType := s.bus.prevReqType, evict := false, done := true } } ∧
      (s.bus.prevReqType = .busRd → exec (.flushInterv c a) s = .next
        { s with bus := { s.bus with reqType := .busRd, srcCore := s.bus.prevCore, available := true } }) ∧
      (s.bus.prevReqType = .busRdX → exec (.flushInterv c a) s = .next
        { s with bus := { s.bus with reqType := .busRdX, srcCore := s.bus.prevCore, done := true } }))

/-! ### The snoop and the tick -/

/-- A phase in progress is left alone by its snoop, and an available bus by every snoop (rules R145, R165). -/
def Obligations.RunningPhaseIsLeftAlone : Prop :=
  ∀ s : State,
    (s.bus.available = true → snoop s = .next s) ∧
    (s.faultCode = .fNone → s.bus.available = false → s.bus.done = false → s.bus.cyclesRemaining ≠ 0 →
      s.bus.reqType ≠ .busUpgr → snoop s = .next s)

/-- Three iterations of the snoop loop are all there ever are: an inference the spec draws from R145–R162
(42_bus_snoop.md section 7, "with fuel 3, or with any larger fuel"). -/
def Obligations.SnoopEndsWithinThreeIterations : Prop := ∀ (n : Nat) (s : State), snoopLoop (n + 3) s = snoopLoop 3 s

/-- A tick runs decoded commands: a core's turn runs the command that its request word decodes to; an iteration
of the snoop runs the command that the bus word decodes to, goes on where that left a phase waiting for its first
observation, and ends otherwise (the model's reading of `continue`, log 14); and the step puts these in the order
of rule R180. The core whose turn it is stands in the model's own field `turn` (log 4). -/
def Obligations.StepRunsTheDecodedCommands : Prop :=
  (∀ (s : State) (c : CoreId) (w : ReqWord) (i : Instr), s.coreDone.get c = false →
    (s.traces.get c)[s.pc.get c]? = some w → decode (.req w) = .instr i →
    coreTurn c s = exec i { s with turn := c }) ∧
  (∀ (s t : State) (w : BusWord) (i : Instr) (n : Nat), s.faultCode = .fNone → s.bus.available = false →
    s.bus.word = some w → decode (.bus w) = .instr i → exec i s = .next t → t.faultCode = .fNone →
    snoopLoop (n + 1) s = if t.bus.done then snoopLoop n t else .next t) ∧
  ∀ s : State, s.cfg.legal = true → s.faultCode = .fNone → s.activeCores ≠ 0 →
    step s = stages
      [ snoop, coreTurn 0, coreTurn 1, coreTurn 2, coreTurn 3, fun u => .next { u with turn := 0 }, snoop,
        fun u => .next { u with bus := { u.bus with
          cyclesRemaining := BitVec.ofNat 32 (u.bus.cyclesRemaining.toNat - 1) } },
        fun u => .next (inc .globalCycle 1 u),
        fun u => .next (checkInvariants u) ] s

/-- CORE_TURN (rule R181): a retired core does nothing; a core past the end of its trace retires and nothing else
changes; any other attempts its next access, a write where the op is W. The core whose turn it is stands in the
field `turn` (log 4). -/
def Obligations.CoreTurnRetiresOrAccesses : Prop :=
  ∀ (s : State) (c : CoreId),
    (s.coreDone.get c = true → coreTurn c s = .next s) ∧
    (s.coreDone.get c = false → (s.traces.get c).length ≤ s.pc.get c → 1 ≤ s.activeCores → coreTurn c s = .next
      { s with coreDone := s.coreDone.set c true, activeCores := s.activeCores - 1 }) ∧
    (∀ (op : Bool) (a : Addr), s.coreDone.get c = false →
      (s.traces.get c)[s.pc.get c]? = some (packReq op a) →
      coreTurn c s = exec (if op then .prWr a else .prRd a) { s with turn := c })

/-- Once a fault is raised or every core has retired, no tick is taken and the state stays; a raised fault stops
every command too (rules R47, R180, R187, R198). That the step of a stopped block answers the same state, and a
command on a frozen block too, is the model's choice (logs 7 and 19). -/
def Obligations.StoppedBlockStays : Prop :=
  ∀ s : State,
    (s.cfg.legal = true → s.faultCode ≠ .fNone ∨ s.activeCores = 0 → step s = .next s) ∧
      (s.faultCode ≠ .fNone → ∀ i, exec i s = .next s)

/-- A configuration outside the bounds is refused before reset with F_CONFIG, code 1, which records it, and takes no
tick; any other is reset (rules R8, R196, R197). That the refusal is the Lean fault `config`, from the step too, is
the model's choice (log 8). -/
def Obligations.IllegalConfigurationIsRefused : Prop :=
  (∀ (r : RawConfig) (tr : Quad (List ReqWord)),
    (r.E < 1 ∨ r.s < 0 ∨ r.b < 0 ∨ r.s + r.b > 32 →
        boot r tr = .fault (.config r) ∧ resultCode (boot r tr) = some .fConfig) ∧
      (¬ (r.E < 1 ∨ r.s < 0 ∨ r.b < 0 ∨ r.s + r.b > 32) →
        boot r tr = .next (State.resetWith { s := r.s.toNat, E := r.E.toNat, b := r.b.toNat } tr))) ∧
    FaultCode.fConfig.value = 1 ∧
    ∀ s : State, s.cfg.E < 1 ∨ s.cfg.s + s.cfg.b > 32 →
      step s = .fault (.config { s := s.cfg.s, E := s.cfg.E, b := s.cfg.b })

/-- A tick in which a phase is in progress and no fault arises leaves the bus record as it was with one tick less
to go (rules R165, R183). -/
def Obligations.BusyPhaseCountsDown : Prop :=
  ∀ s t : State, s.faultCode = .fNone → s.activeCores ≠ 0 → s.bus.available = false → s.bus.done = false →
    s.bus.cyclesRemaining ≠ 0 → s.bus.reqType ≠ .busUpgr → step s = .next t → t.faultCode = .fNone →
    t.bus = { s.bus with cyclesRemaining := s.bus.cyclesRemaining - 1 }

/-- A tick that raises no fault counts `global_cycle` up by 1 (rule R184). -/
def Obligations.TickCountsOne : Prop :=
  ∀ s t : State, s.activeCores ≠ 0 → step s = .next t → t.faultCode = .fNone →
    t.globalCycle.toNat = s.globalCycle.toNat + 1

/-- A tick that raises no fault ends with P1 and the set invariant true of every set, block and cache (rules R75,
R185). -/
def Obligations.CheckedTickIsCoherent : Prop :=
  ∀ s t : State, ArraysShaped s → s.activeCores ≠ 0 → step s = .next t → t.faultCode = .fNone →
    SetsUnique t ∧ Coherent t

/-- CHECK_INVARIANTS raises the violation of the lowest set that has one: F_SET_DUPLICATE where some cache holds a
tag twice there, and otherwise F_COHERENCE where some block of it breaks P1; it changes nothing else (rule R200). -/
def Obligations.FirstViolationIsRaised : Prop :=
  ∀ s : State, ArraysShaped s → s.faultCode = .fNone →
    (SetsUnique s → Coherent s → checkInvariants s = s) ∧
    ∀ si, (∀ sj < si, (∀ c, uniqueTags (s.setLines c sj) = true) ∧ ∀ t, coherentCopies (s.copies sj t) = true) →
      ((∃ c, uniqueTags (s.setLines c si) = false) →
        checkInvariants s = { s with faultCode := .fSetDuplicate }) ∧
      ((∀ c, uniqueTags (s.setLines c si) = true) → (∃ t, coherentCopies (s.copies si t) = false) →
        checkInvariants s = { s with faultCode := .fCoherence })

/-- With empty traces a run is one tick: it retires all four cores and counts `global_cycle`, and nothing else
changes: an inference the spec draws from R180, R181 and R186 (43_tick.md section 3, "the run is exactly one
tick"). -/
def Obligations.EmptyTracesTakeOneTick : Prop :=
  ∀ cfg : Config, cfg.legal = true →
    step (State.resetWith cfg (Quad.rep [])) = .next
      { State.resetWith cfg (Quad.rep []) with
        coreDone := Quad.rep true, activeCores := 0, globalCycle := 1 }

/-- P2 follows from P1: where P1 holds, no two caches hold one block MODIFIED. The spec draws the inference from
R73 (20_memory.md section 6, "This follows from rule R73"). -/
def Obligations.OneModifiedOwner : Prop := ∀ s : State, Coherent s → SingleOwner s

/-! ### Reset -/

/-- Reset writes the values of rule R225: every line INVALID with tag 0 and `lru` 0, every counter, program counter
and flag 0, the bus record available with zero codes, four active cores and no fault; the fixed and derived
configuration registers hold their values. -/
def Obligations.ResetValues : Prop :=
  ∀ (cfg : Config) (tr : Quad (List ReqWord)) (s : State), s = State.resetWith cfg tr →
    s.cfg = cfg ∧ s.traces = tr ∧
    numCores = 4 ∧ memoryCycles = 100 ∧ s.cfg.busCycles = 2 * 2 ^ cfg.b / 4 ∧ s.cfg.blockSize = 2 ^ cfg.b ∧
    (∀ c si w, w < cfg.E → s.lineAt c si w = some { tag := 0, mesi := .invalid, lru := 0 }) ∧
    (∀ c, (s.cache.get c).lruCtr = 0 ∧ (∀ n, (s.stats.get c).read n = 0) ∧ s.pc.get c = 0 ∧
      s.coreDone.get c = false) ∧
    s.bus = { available := true, srcCore := none, addr := 0, reqType := .busRd, cyclesRemaining := 0
              respCore := none, done := false, evict := false, prevCore := none, prevReqType := .busRd
              prevMesi := .invalid } ∧
    s.activeCores = 4 ∧ s.globalCycle = 0 ∧ s.totalBusTransactions = 0 ∧ s.totalBusTrafficBytes = 0 ∧
    s.faultCode = .fNone

/-- The reset state of an accepted configuration and of traces that fit has the shape, the run invariants and the
accounting properties; so has the plain reset state, whose configuration and traces are the model's choice
(log 1). -/
def Obligations.ResetHasTheInvariants : Prop :=
  (∀ (cfg : Config) (tr : Quad (List ReqWord)), cfg.legal = true → (∀ c, traceFits (tr.get c) = true) →
    Shaped (State.resetWith cfg tr) ∧ RunSafe (State.resetWith cfg tr) ∧ Accounted (State.resetWith cfg tr)) ∧
  Shaped State.reset ∧ RunSafe State.reset ∧ Accounted State.reset

/-! ### Invariants of the step -/

/-- Every step keeps the shape: legal configuration, canonical tag arrays of `2^s` sets of `E` lines, program counters
within their traces, `active_cores` the number of cores not retired, and a bus record that the rules can write. -/
def Obligations.StepKeepsShape : Prop := ∀ s t : State, Shaped s → step s = .next t → Shaped t

/-- A step from a shaped state neither faults nor is refused. -/
def Obligations.ShapedStatesStep : Prop := ∀ s : State, Shaped s → ∃ t, step s = .next t

/-- Every step keeps the run invariants: unless a counter overflows, no fault arises, the tags of every set are
distinct, every block satisfies P1, and the phase of the bus fits the caches. -/
def Obligations.StepKeepsRunSafe : Prop := ∀ s t : State, Shaped s → RunSafe s → step s = .next t → RunSafe t

/-- In a run from reset no fault but F_OVERFLOW is ever raised: an inference the spec draws from R199–R202
(60_exceptions.md section 1, "Every fault condition in this spec is unreachable"), F_OVERFLOW apart. -/
def Obligations.RunsFaultOnlyByOverflow : Prop :=
  ∀ s : State, Reachable s → s.faultCode = .fNone ∨ s.faultCode = .fOverflow

/-- Every step keeps the accounting: P4, P5 and P7, inferences the spec draws from R126–R133 and R180–R181
(41_processor_access.md section 6, 43_tick.md section 2). -/
def Obligations.StepKeepsAccounted : Prop := ∀ s t : State, Accounted s → step s = .next t → Accounted t

/-- No counter ever decreases, but `total_cycles`; its sum with `idle_cycles` does not decrease in a step that ends
with no fault (rule R30). -/
def Obligations.CountersNeverDecrease : Prop :=
  ∀ s t : State, step s = .next t →
    (∀ x : Counter, (∀ c, x ≠ .stat c .totalCycles) → (s.counter x).toNat ≤ (t.counter x).toNat) ∧
      (t.faultCode = .fNone → ∀ c,
        (s.stats.get c).totalCycles.toNat + (s.stats.get c).idleCycles.toNat ≤
          (t.stats.get c).totalCycles.toNat + (t.stats.get c).idleCycles.toNat)

/-- In a step a program counter stays, or advances by exactly 1 where an instruction of that core is counted; a
retired core stays retired (rules R45, R46). -/
def Obligations.ProgramCountersAdvanceByOne : Prop :=
  ∀ s t : State, step s = .next t → ∀ c,
    (t.pc.get c = s.pc.get c ∨ t.pc.get c = s.pc.get c + 1 ∧ s.coreDone.get c = false ∧
      (t.stats.get c).totalInstructions = (s.stats.get c).totalInstructions + 1) ∧
      (s.coreDone.get c = true → t.coreDone.get c = true)

/-- No command and no step writes the configuration or a trace (rules R20, R49), which the model holds in its state
(log 3). -/
def Obligations.ConfigurationAndTracesStay : Prop :=
  ∀ s t : State, step s = .next t ∨ (∃ i, exec i s = .next t) → t.cfg = s.cfg ∧ t.traces = s.traces

end
end

