-- ==== Sys2Proof/Laws/Decode.lean ====
section
/-! SUPPORT. The fields of packed words, and the codes of the enumerations. -/

namespace Sys2Proof

theorem ReqType.ofCode_code (t : ReqType) : ReqType.ofCode t.code = t := by cases t <;> rfl

theorem ReqType.code_ofCode (v : BitVec 2) : (ReqType.ofCode v).code = v := by revert v; decide

theorem Mesi.ofCode_code (m : Mesi) : Mesi.ofCode m.code = m := by cases m <;> rfl

theorem Mesi.code_ofCode (v : BitVec 2) : (Mesi.ofCode v).code = v := by revert v; decide

/-- The low part of two joined vectors is the second. -/
theorem append_low {n m : Nat} (x : BitVec n) (y : BitVec m) : (x ++ y).extractLsb' 0 m = y := by
  ext i hi
  simp [BitVec.getElem_extractLsb', BitVec.getLsbD_append, hi]

/-- The part of two joined vectors above the second is in the first. -/
theorem append_high {n m : Nat} (x : BitVec n) (y : BitVec m) (i k : Nat) :
    (x ++ y).extractLsb' (m + i) k = x.extractLsb' i k := by
  ext j hj
  simp only [BitVec.getElem_extractLsb', BitVec.getLsbD_append]
  rw [if_neg (by omega)]
  congr 1
  omega

/-- A vector is its high part joined to its low part. -/
theorem append_parts {n m : Nat} (w : BitVec (n + m)) : w.extractLsb' m n ++ w.extractLsb' 0 m = w := by
  ext i hi
  simp only [BitVec.getElem_append, BitVec.getElem_extractLsb']
  split
  · rw [Nat.zero_add, BitVec.getLsbD_eq_getElem hi]
  · rename_i h
    rw [show m + (i - m) = i by omega, BitVec.getLsbD_eq_getElem hi]

/-- A bit is the one-bit field there. -/
theorem getLsbD_eq_field {n : Nat} (w : BitVec n) (i : Nat) : BitVec.ofBool (w.getLsbD i) = w.extractLsb' i 1 := by
  ext j hj
  have : j = 0 := by omega
  subst this
  simp

theorem ofBool_injective {a b : Bool} (h : BitVec.ofBool a = BitVec.ofBool b) : a = b := by
  revert h; revert a b; decide

/-- The parts of four joined vectors. -/
theorem joined_parts {n1 n2 n3 n4 : Nat} (x : BitVec n1) (t : BitVec n2) (c : BitVec n3) (a : BitVec n4) :
    (x ++ t ++ c ++ a).extractLsb' (n4 + (n3 + (n2 + 0))) n1 = x.extractLsb' 0 n1 ∧
      (x ++ t ++ c ++ a).extractLsb' (n4 + (n3 + 0)) n2 = t ∧ (x ++ t ++ c ++ a).extractLsb' (n4 + 0) n3 = c ∧
      (x ++ t ++ c ++ a).extractLsb' 0 n4 = a := by
  refine ⟨?_, ?_, ?_, append_low _ _⟩
  · rw [append_high, append_high, append_high]
  · rw [append_high, append_high, append_low]
  · rw [append_high, append_low]

/-- Four neighbouring parts of a vector, joined, are the vector. -/
theorem joined_of_parts {n1 n2 n3 n4 : Nat} (w : BitVec (n1 + n2 + n3 + n4)) :
    w.extractLsb' (n4 + n3 + n2) n1 ++ w.extractLsb' (n4 + n3) n2 ++ w.extractLsb' n4 n3 ++ w.extractLsb' 0 n4 = w := by
  ext i hi
  simp only [BitVec.getElem_append, BitVec.getElem_extractLsb']
  rw [← BitVec.getLsbD_eq_getElem hi]
  split
  · rw [Nat.zero_add]
  · split
    · congr 1; omega
    · split <;> · congr 1; omega

/-- The fields of a packed bus word (rule R91). -/
theorem busFields_packBus (f : BusFields) : busFields (packBus f) = f := by
  obtain ⟨x, t, c, a⟩ := f
  obtain ⟨h1, h2, h3, h4⟩ := joined_parts (BitVec.ofBool x) t.code (BitVec.ofFin c : BitVec 2) a
  norm_num at h1 h2 h3
  have hx := getLsbD_eq_field (packBus ⟨x, t, c, a⟩) 36
  unfold busFields
  have h36 : (packBus ⟨x, t, c, a⟩).extractLsb' 36 1 = BitVec.ofBool x := h1
  have h34 : (packBus ⟨x, t, c, a⟩).extractLsb' 34 2 = t.code := h2
  have h32 : (packBus ⟨x, t, c, a⟩).extractLsb' 32 2 = BitVec.ofFin c := h3
  have h0 : (packBus ⟨x, t, c, a⟩).extractLsb' 0 32 = a := h4
  rw [h34, h32, h0, ReqType.ofCode_code, ofBool_injective (hx.trans h36)]

/-- A bus word is the packed word of its fields (rule R91). -/
theorem packBus_busFields (w : BusWord) : packBus (busFields w) = w := by
  have h := joined_of_parts (n1 := 1) (n2 := 2) (n3 := 2) (n4 := 32) w
  simp only [packBus, busFields, ReqType.code_ofCode, getLsbD_eq_field]
  exact h

/-- The fields of a packed request word (rule R88). -/
theorem packReq_fields (b : Bool) (a : Addr) :
    (packReq b a).getLsbD 32 = b ∧ (packReq b a).extractLsb' 0 32 = a := by
  have h1 := getLsbD_eq_field (packReq b a) 32
  have h32 : (packReq b a).extractLsb' 32 1 = BitVec.ofBool b :=
    (append_high (BitVec.ofBool b) a 0 1).trans (by cases b <;> rfl)
  exact ⟨ofBool_injective (h1.trans h32), append_low _ _⟩

/-- A request word is the packed word of its fields (rule R88). -/
theorem packReq_of_fields (w : ReqWord) : packReq (w.getLsbD 32) (w.extractLsb' 0 32) = w := by
  unfold packReq
  rw [getLsbD_eq_field]
  exact append_parts (n := 1) (m := 32) w

end Sys2Proof
end

