-- ==== Sys2Proof/Laws/State.lean ====
section
/-! SUPPORT. What each named update of State leaves in each field: one lemma per field per update. -/

namespace Sys2Proof

variable {α : Type}

/-! ### The table of four -/

@[simp] theorem Quad.get_set_self (q : Quad α) (c : CoreId) (x : α) : (q.set c x).get c = x := by
  fin_cases c <;> rfl

@[simp] theorem Quad.get_set_ne (q : Quad α) {c c' : CoreId} (x : α) (h : c' ≠ c) :
    (q.set c x).get c' = q.get c' := by
  fin_cases c <;> fin_cases c' <;> first | rfl | exact absurd rfl h

theorem Quad.get_set (q : Quad α) (c c' : CoreId) (x : α) :
    (q.set c x).get c' = if c' = c then x else q.get c' := by
  by_cases h : c' = c
  · subst h; simp
  · simp [h]

@[simp] theorem Quad.get_rep (x : α) (c : CoreId) : (Quad.rep x).get c = x := by
  fin_cases c <;> rfl

@[simp] theorem Quad.set_get (q : Quad α) (c : CoreId) : q.set c (q.get c) = q := by
  fin_cases c <;> rfl

@[simp] theorem Quad.set_set (q : Quad α) (c : CoreId) (x y : α) : (q.set c x).set c y = q.set c y := by
  fin_cases c <;> rfl

theorem Quad.ext_get {q r : Quad α} (h : ∀ c, q.get c = r.get c) : q = r := by
  have h0 := h 0; have h1 := h 1; have h2 := h 2; have h3 := h 3
  cases q; cases r
  simp only [Quad.get] at h0 h1 h2 h3
  subst h0; subst h1; subst h2; subst h3; rfl

namespace Machine

/-! ### Counters -/

@[simp] theorem State.setCounter_cfg (s : State) (x : Counter) (v : Count) : (s.setCounter x v).cfg = s.cfg := by cases x <;> rfl

@[simp] theorem State.setCounter_traces (s : State) (x : Counter) (v : Count) : (s.setCounter x v).traces = s.traces := by cases x <;> rfl

@[simp] theorem State.setCounter_bus (s : State) (x : Counter) (v : Count) : (s.setCounter x v).bus = s.bus := by cases x <;> rfl

@[simp] theorem State.setCounter_pc (s : State) (x : Counter) (v : Count) : (s.setCounter x v).pc = s.pc := by cases x <;> rfl

@[simp] theorem State.setCounter_coreDone (s : State) (x : Counter) (v : Count) : (s.setCounter x v).coreDone = s.coreDone := by cases x <;> rfl

@[simp] theorem State.setCounter_activeCores (s : State) (x : Counter) (v : Count) : (s.setCounter x v).activeCores = s.activeCores := by cases x <;> rfl

@[simp] theorem State.setCounter_faultCode (s : State) (x : Counter) (v : Count) : (s.setCounter x v).faultCode = s.faultCode := by cases x <;> rfl

@[simp] theorem State.setCounter_turn (s : State) (x : Counter) (v : Count) : (s.setCounter x v).turn = s.turn := by cases x <;> rfl

@[simp] theorem State.setCounter_sets (s : State) (x : Counter) (v : Count) (c : CoreId) :
    ((s.setCounter x v).cache.get c).sets = (s.cache.get c).sets := by
  cases x with
  | lruCtr c' => by_cases h : c = c' <;> simp [State.setCounter, h]
  | _ => rfl

@[simp] theorem Stats.read_write_self (t : Stats) (n : StatName) (v : Count) : (t.write n v).read n = v := by
  cases n <;> rfl

@[simp] theorem Stats.read_write_ne (t : Stats) {n m : StatName} (v : Count) (h : m ≠ n) :
    (t.write n v).read m = t.read m := by
  cases n <;> cases m <;> first | rfl | exact absurd rfl h

/-- A counter just written reads as what was written. -/
@[simp] theorem State.counter_setCounter_self (s : State) (x : Counter) (v : Count) :
    (s.setCounter x v).counter x = v := by
  cases x <;> simp [State.setCounter, State.counter]

/-- Writing one counter leaves every other counter alone. -/
@[simp] theorem State.counter_setCounter_ne (s : State) {x y : Counter} (v : Count) (h : y ≠ x) :
    (s.setCounter x v).counter y = s.counter y := by
  cases x with
  | stat c n =>
    cases y with
    | stat c' n' =>
      by_cases hc : c' = c
      · subst hc
        have hn : n' ≠ n := fun e => h (by rw [e])
        simp [State.setCounter, State.counter, hn]
      · simp [State.setCounter, State.counter, hc]
    | _ => rfl
  | lruCtr c =>
    cases y with
    | lruCtr c' =>
      have hc : c' ≠ c := fun e => h (by rw [e])
      simp [State.setCounter, State.counter, hc]
    | _ => rfl
  | globalCycle => cases y <;> first | rfl | exact absurd rfl h
  | busTransactions => cases y <;> first | rfl | exact absurd rfl h
  | busTrafficBytes => cases y <;> first | rfl | exact absurd rfl h

/-! ### Tag arrays -/

@[simp] theorem State.putSet_cfg (s : State) (c : CoreId) (si : Nat) (L : List Line) : (s.putSet c si L).cfg = s.cfg := rfl

@[simp] theorem State.putSet_traces (s : State) (c : CoreId) (si : Nat) (L : List Line) : (s.putSet c si L).traces = s.traces := rfl

@[simp] theorem State.putSet_stats (s : State) (c : CoreId) (si : Nat) (L : List Line) : (s.putSet c si L).stats = s.stats := rfl

@[simp] theorem State.putSet_bus (s : State) (c : CoreId) (si : Nat) (L : List Line) : (s.putSet c si L).bus = s.bus := rfl

@[simp] theorem State.putSet_pc (s : State) (c : CoreId) (si : Nat) (L : List Line) : (s.putSet c si L).pc = s.pc := rfl

@[simp] theorem State.putSet_coreDone (s : State) (c : CoreId) (si : Nat) (L : List Line) : (s.putSet c si L).coreDone = s.coreDone := rfl

@[simp] theorem State.putSet_activeCores (s : State) (c : CoreId) (si : Nat) (L : List Line) : (s.putSet c si L).activeCores = s.activeCores := rfl

@[simp] theorem State.putSet_globalCycle (s : State) (c : CoreId) (si : Nat) (L : List Line) : (s.putSet c si L).globalCycle = s.globalCycle := rfl

@[simp] theorem State.putSet_totalBusTransactions (s : State) (c : CoreId) (si : Nat) (L : List Line) : (s.putSet c si L).totalBusTransactions = s.totalBusTransactions := rfl

@[simp] theorem State.putSet_totalBusTrafficBytes (s : State) (c : CoreId) (si : Nat) (L : List Line) : (s.putSet c si L).totalBusTrafficBytes = s.totalBusTrafficBytes := rfl

@[simp] theorem State.putSet_faultCode (s : State) (c : CoreId) (si : Nat) (L : List Line) : (s.putSet c si L).faultCode = s.faultCode := rfl

@[simp] theorem State.putSet_turn (s : State) (c : CoreId) (si : Nat) (L : List Line) : (s.putSet c si L).turn = s.turn := rfl

@[simp] theorem State.putSet_lruCtr (s : State) (c c' : CoreId) (si : Nat) (L : List Line) :
    ((s.putSet c si L).cache.get c').lruCtr = (s.cache.get c').lruCtr := by
  by_cases h : c' = c <;> simp [State.putSet, h]

@[simp] theorem State.putSet_cache_ne (s : State) {c c' : CoreId} (si : Nat) (L : List Line) (h : c' ≠ c) :
    (s.putSet c si L).cache.get c' = s.cache.get c' := by
  simp [State.putSet, h]

@[simp] theorem modifyLine_cfg (c : CoreId) (si w : Nat) (f : Line → Line) (s : State) : (modifyLine c si w f s).cfg = s.cfg := rfl

@[simp] theorem modifyLine_traces (c : CoreId) (si w : Nat) (f : Line → Line) (s : State) : (modifyLine c si w f s).traces = s.traces := rfl

@[simp] theorem modifyLine_stats (c : CoreId) (si w : Nat) (f : Line → Line) (s : State) : (modifyLine c si w f s).stats = s.stats := rfl

@[simp] theorem modifyLine_bus (c : CoreId) (si w : Nat) (f : Line → Line) (s : State) : (modifyLine c si w f s).bus = s.bus := rfl

@[simp] theorem modifyLine_pc (c : CoreId) (si w : Nat) (f : Line → Line) (s : State) : (modifyLine c si w f s).pc = s.pc := rfl

@[simp] theorem modifyLine_coreDone (c : CoreId) (si w : Nat) (f : Line → Line) (s : State) : (modifyLine c si w f s).coreDone = s.coreDone := rfl

@[simp] theorem modifyLine_activeCores (c : CoreId) (si w : Nat) (f : Line → Line) (s : State) : (modifyLine c si w f s).activeCores = s.activeCores := rfl

@[simp] theorem modifyLine_globalCycle (c : CoreId) (si w : Nat) (f : Line → Line) (s : State) : (modifyLine c si w f s).globalCycle = s.globalCycle := rfl

@[simp] theorem modifyLine_totalBusTransactions (c : CoreId) (si w : Nat) (f : Line → Line) (s : State) : (modifyLine c si w f s).totalBusTransactions = s.totalBusTransactions := rfl

@[simp] theorem modifyLine_totalBusTrafficBytes (c : CoreId) (si w : Nat) (f : Line → Line) (s : State) : (modifyLine c si w f s).totalBusTrafficBytes = s.totalBusTrafficBytes := rfl

@[simp] theorem modifyLine_faultCode (c : CoreId) (si w : Nat) (f : Line → Line) (s : State) : (modifyLine c si w f s).faultCode = s.faultCode := rfl

@[simp] theorem modifyLine_turn (c : CoreId) (si w : Nat) (f : Line → Line) (s : State) : (modifyLine c si w f s).turn = s.turn := rfl

@[simp] theorem modifyLine_lruCtr (c c' : CoreId) (si w : Nat) (f : Line → Line) (s : State) :
    ((modifyLine c si w f s).cache.get c').lruCtr = (s.cache.get c').lruCtr := State.putSet_lruCtr _ _ _ _ _

@[simp] theorem modifyLine_cache_ne {c c' : CoreId} (si w : Nat) (f : Line → Line) (s : State) (h : c' ≠ c) :
    (modifyLine c si w f s).cache.get c' = s.cache.get c' := State.putSet_cache_ne _ _ _ h

@[simp] theorem setMesi_cfg (c : CoreId) (si w : Nat) (m : Mesi) (s : State) : (setMesi c si w m s).cfg = s.cfg := rfl

@[simp] theorem setMesi_traces (c : CoreId) (si w : Nat) (m : Mesi) (s : State) : (setMesi c si w m s).traces = s.traces := rfl

@[simp] theorem setMesi_stats (c : CoreId) (si w : Nat) (m : Mesi) (s : State) : (setMesi c si w m s).stats = s.stats := rfl

@[simp] theorem setMesi_bus (c : CoreId) (si w : Nat) (m : Mesi) (s : State) : (setMesi c si w m s).bus = s.bus := rfl

@[simp] theorem setMesi_pc (c : CoreId) (si w : Nat) (m : Mesi) (s : State) : (setMesi c si w m s).pc = s.pc := rfl

@[simp] theorem setMesi_coreDone (c : CoreId) (si w : Nat) (m : Mesi) (s : State) : (setMesi c si w m s).coreDone = s.coreDone := rfl

@[simp] theorem setMesi_activeCores (c : CoreId) (si w : Nat) (m : Mesi) (s : State) : (setMesi c si w m s).activeCores = s.activeCores := rfl

@[simp] theorem setMesi_globalCycle (c : CoreId) (si w : Nat) (m : Mesi) (s : State) : (setMesi c si w m s).globalCycle = s.globalCycle := rfl

@[simp] theorem setMesi_totalBusTransactions (c : CoreId) (si w : Nat) (m : Mesi) (s : State) : (setMesi c si w m s).totalBusTransactions = s.totalBusTransactions := rfl

@[simp] theorem setMesi_totalBusTrafficBytes (c : CoreId) (si w : Nat) (m : Mesi) (s : State) : (setMesi c si w m s).totalBusTrafficBytes = s.totalBusTrafficBytes := rfl

@[simp] theorem setMesi_faultCode (c : CoreId) (si w : Nat) (m : Mesi) (s : State) : (setMesi c si w m s).faultCode = s.faultCode := rfl

@[simp] theorem setMesi_turn (c : CoreId) (si w : Nat) (m : Mesi) (s : State) : (setMesi c si w m s).turn = s.turn := rfl

@[simp] theorem setMesi_lruCtr (c c' : CoreId) (si w : Nat) (m : Mesi) (s : State) :
    ((setMesi c si w m s).cache.get c').lruCtr = (s.cache.get c').lruCtr := State.putSet_lruCtr _ _ _ _ _

@[simp] theorem setMesi_cache_ne {c c' : CoreId} (si w : Nat) (m : Mesi) (s : State) (h : c' ≠ c) :
    (setMesi c si w m s).cache.get c' = s.cache.get c' := State.putSet_cache_ne _ _ _ h

@[simp] theorem setHolderMesi_cfg (c : CoreId) (si : Nat) (t : Tag) (m : Mesi) (s : State) : (setHolderMesi c si t m s).cfg = s.cfg := by unfold setHolderMesi; split <;> rfl

@[simp] theorem setHolderMesi_traces (c : CoreId) (si : Nat) (t : Tag) (m : Mesi) (s : State) : (setHolderMesi c si t m s).traces = s.traces := by unfold setHolderMesi; split <;> rfl

@[simp] theorem setHolderMesi_stats (c : CoreId) (si : Nat) (t : Tag) (m : Mesi) (s : State) : (setHolderMesi c si t m s).stats = s.stats := by unfold setHolderMesi; split <;> rfl

@[simp] theorem setHolderMesi_bus (c : CoreId) (si : Nat) (t : Tag) (m : Mesi) (s : State) : (setHolderMesi c si t m s).bus = s.bus := by unfold setHolderMesi; split <;> rfl

@[simp] theorem setHolderMesi_pc (c : CoreId) (si : Nat) (t : Tag) (m : Mesi) (s : State) : (setHolderMesi c si t m s).pc = s.pc := by unfold setHolderMesi; split <;> rfl

@[simp] theorem setHolderMesi_coreDone (c : CoreId) (si : Nat) (t : Tag) (m : Mesi) (s : State) : (setHolderMesi c si t m s).coreDone = s.coreDone := by unfold setHolderMesi; split <;> rfl

@[simp] theorem setHolderMesi_activeCores (c : CoreId) (si : Nat) (t : Tag) (m : Mesi) (s : State) : (setHolderMesi c si t m s).activeCores = s.activeCores := by unfold setHolderMesi; split <;> rfl

@[simp] theorem setHolderMesi_globalCycle (c : CoreId) (si : Nat) (t : Tag) (m : Mesi) (s : State) : (setHolderMesi c si t m s).globalCycle = s.globalCycle := by unfold setHolderMesi; split <;> rfl

@[simp] theorem setHolderMesi_totalBusTransactions (c : CoreId) (si : Nat) (t : Tag) (m : Mesi) (s : State) : (setHolderMesi c si t m s).totalBusTransactions = s.totalBusTransactions := by unfold setHolderMesi; split <;> rfl

@[simp] theorem setHolderMesi_totalBusTrafficBytes (c : CoreId) (si : Nat) (t : Tag) (m : Mesi) (s : State) : (setHolderMesi c si t m s).totalBusTrafficBytes = s.totalBusTrafficBytes := by unfold setHolderMesi; split <;> rfl

@[simp] theorem setHolderMesi_faultCode (c : CoreId) (si : Nat) (t : Tag) (m : Mesi) (s : State) : (setHolderMesi c si t m s).faultCode = s.faultCode := by unfold setHolderMesi; split <;> rfl

@[simp] theorem setHolderMesi_turn (c : CoreId) (si : Nat) (t : Tag) (m : Mesi) (s : State) : (setHolderMesi c si t m s).turn = s.turn := by unfold setHolderMesi; split <;> rfl

@[simp] theorem setHolderMesi_lruCtr (c c' : CoreId) (si : Nat) (t : Tag) (m : Mesi) (s : State) :
    ((setHolderMesi c si t m s).cache.get c').lruCtr = (s.cache.get c').lruCtr := by
  unfold setHolderMesi; split
  · exact State.putSet_lruCtr _ _ _ _ _
  · rfl

@[simp] theorem setHolderMesi_cache_ne {c c' : CoreId} (si : Nat) (t : Tag) (m : Mesi) (s : State) (h : c' ≠ c) :
    (setHolderMesi c si t m s).cache.get c' = s.cache.get c' := by
  unfold setHolderMesi; split
  · exact State.putSet_cache_ne _ _ _ h
  · rfl

/-! ### Faults, program counters, retirement, the end of a tick -/

@[simp] theorem raise_cfg (code : FaultCode) (s : State) : (raise code s).cfg = s.cfg := by unfold raise; split <;> rfl

@[simp] theorem raise_traces (code : FaultCode) (s : State) : (raise code s).traces = s.traces := by unfold raise; split <;> rfl

@[simp] theorem raise_cache (code : FaultCode) (s : State) : (raise code s).cache = s.cache := by unfold raise; split <;> rfl

@[simp] theorem raise_stats (code : FaultCode) (s : State) : (raise code s).stats = s.stats := by unfold raise; split <;> rfl

@[simp] theorem raise_bus (code : FaultCode) (s : State) : (raise code s).bus = s.bus := by unfold raise; split <;> rfl

@[simp] theorem raise_pc (code : FaultCode) (s : State) : (raise code s).pc = s.pc := by unfold raise; split <;> rfl

@[simp] theorem raise_coreDone (code : FaultCode) (s : State) : (raise code s).coreDone = s.coreDone := by unfold raise; split <;> rfl

@[simp] theorem raise_activeCores (code : FaultCode) (s : State) : (raise code s).activeCores = s.activeCores := by unfold raise; split <;> rfl

@[simp] theorem raise_globalCycle (code : FaultCode) (s : State) : (raise code s).globalCycle = s.globalCycle := by unfold raise; split <;> rfl

@[simp] theorem raise_totalBusTransactions (code : FaultCode) (s : State) : (raise code s).totalBusTransactions = s.totalBusTransactions := by unfold raise; split <;> rfl

@[simp] theorem raise_totalBusTrafficBytes (code : FaultCode) (s : State) : (raise code s).totalBusTrafficBytes = s.totalBusTrafficBytes := by unfold raise; split <;> rfl

@[simp] theorem raise_turn (code : FaultCode) (s : State) : (raise code s).turn = s.turn := by unfold raise; split <;> rfl

@[simp] theorem advancePc_cfg (c : CoreId) (s : State) : (advancePc c s).cfg = s.cfg := rfl

@[simp] theorem advancePc_traces (c : CoreId) (s : State) : (advancePc c s).traces = s.traces := rfl

@[simp] theorem advancePc_cache (c : CoreId) (s : State) : (advancePc c s).cache = s.cache := rfl

@[simp] theorem advancePc_stats (c : CoreId) (s : State) : (advancePc c s).stats = s.stats := rfl

@[simp] theorem advancePc_bus (c : CoreId) (s : State) : (advancePc c s).bus = s.bus := rfl

@[simp] theorem advancePc_coreDone (c : CoreId) (s : State) : (advancePc c s).coreDone = s.coreDone := rfl

@[simp] theorem advancePc_activeCores (c : CoreId) (s : State) : (advancePc c s).activeCores = s.activeCores := rfl

@[simp] theorem advancePc_globalCycle (c : CoreId) (s : State) : (advancePc c s).globalCycle = s.globalCycle := rfl

@[simp] theorem advancePc_totalBusTransactions (c : CoreId) (s : State) : (advancePc c s).totalBusTransactions = s.totalBusTransactions := rfl

@[simp] theorem advancePc_totalBusTrafficBytes (c : CoreId) (s : State) : (advancePc c s).totalBusTrafficBytes = s.totalBusTrafficBytes := rfl

@[simp] theorem advancePc_faultCode (c : CoreId) (s : State) : (advancePc c s).faultCode = s.faultCode := rfl

@[simp] theorem advancePc_turn (c : CoreId) (s : State) : (advancePc c s).turn = s.turn := rfl

@[simp] theorem retire_cfg (c : CoreId) (s : State) : (retire c s).cfg = s.cfg := rfl

@[simp] theorem retire_traces (c : CoreId) (s : State) : (retire c s).traces = s.traces := rfl

@[simp] theorem retire_cache (c : CoreId) (s : State) : (retire c s).cache = s.cache := rfl

@[simp] theorem retire_stats (c : CoreId) (s : State) : (retire c s).stats = s.stats := rfl

@[simp] theorem retire_bus (c : CoreId) (s : State) : (retire c s).bus = s.bus := rfl

@[simp] theorem retire_pc (c : CoreId) (s : State) : (retire c s).pc = s.pc := rfl

@[simp] theorem retire_globalCycle (c : CoreId) (s : State) : (retire c s).globalCycle = s.globalCycle := rfl

@[simp] theorem retire_totalBusTransactions (c : CoreId) (s : State) : (retire c s).totalBusTransactions = s.totalBusTransactions := rfl

@[simp] theorem retire_totalBusTrafficBytes (c : CoreId) (s : State) : (retire c s).totalBusTrafficBytes = s.totalBusTrafficBytes := rfl

@[simp] theorem retire_faultCode (c : CoreId) (s : State) : (retire c s).faultCode = s.faultCode := rfl

@[simp] theorem retire_turn (c : CoreId) (s : State) : (retire c s).turn = s.turn := rfl

@[simp] theorem endCorePass_cfg (s : State) : (endCorePass s).cfg = s.cfg := rfl

@[simp] theorem endCorePass_traces (s : State) : (endCorePass s).traces = s.traces := rfl

@[simp] theorem endCorePass_cache (s : State) : (endCorePass s).cache = s.cache := rfl

@[simp] theorem endCorePass_stats (s : State) : (endCorePass s).stats = s.stats := rfl

@[simp] theorem endCorePass_bus (s : State) : (endCorePass s).bus = s.bus := rfl

@[simp] theorem endCorePass_pc (s : State) : (endCorePass s).pc = s.pc := rfl

@[simp] theorem endCorePass_coreDone (s : State) : (endCorePass s).coreDone = s.coreDone := rfl

@[simp] theorem endCorePass_activeCores (s : State) : (endCorePass s).activeCores = s.activeCores := rfl

@[simp] theorem endCorePass_globalCycle (s : State) : (endCorePass s).globalCycle = s.globalCycle := rfl

@[simp] theorem endCorePass_totalBusTransactions (s : State) : (endCorePass s).totalBusTransactions = s.totalBusTransactions := rfl

@[simp] theorem endCorePass_totalBusTrafficBytes (s : State) : (endCorePass s).totalBusTrafficBytes = s.totalBusTrafficBytes := rfl

@[simp] theorem endCorePass_faultCode (s : State) : (endCorePass s).faultCode = s.faultCode := rfl

@[simp] theorem countdown_cfg (s : State) : (countdown s).cfg = s.cfg := rfl

@[simp] theorem countdown_traces (s : State) : (countdown s).traces = s.traces := rfl

@[simp] theorem countdown_cache (s : State) : (countdown s).cache = s.cache := rfl

@[simp] theorem countdown_stats (s : State) : (countdown s).stats = s.stats := rfl

@[simp] theorem countdown_pc (s : State) : (countdown s).pc = s.pc := rfl

@[simp] theorem countdown_coreDone (s : State) : (countdown s).coreDone = s.coreDone := rfl

@[simp] theorem countdown_activeCores (s : State) : (countdown s).activeCores = s.activeCores := rfl

@[simp] theorem countdown_globalCycle (s : State) : (countdown s).globalCycle = s.globalCycle := rfl

@[simp] theorem countdown_totalBusTransactions (s : State) : (countdown s).totalBusTransactions = s.totalBusTransactions := rfl

@[simp] theorem countdown_totalBusTrafficBytes (s : State) : (countdown s).totalBusTrafficBytes = s.totalBusTrafficBytes := rfl

@[simp] theorem countdown_faultCode (s : State) : (countdown s).faultCode = s.faultCode := rfl

@[simp] theorem countdown_turn (s : State) : (countdown s).turn = s.turn := rfl

@[simp] theorem releaseBus_cfg (s : State) : (releaseBus s).cfg = s.cfg := rfl

@[simp] theorem releaseBus_traces (s : State) : (releaseBus s).traces = s.traces := rfl

@[simp] theorem releaseBus_cache (s : State) : (releaseBus s).cache = s.cache := rfl

@[simp] theorem releaseBus_stats (s : State) : (releaseBus s).stats = s.stats := rfl

@[simp] theorem releaseBus_pc (s : State) : (releaseBus s).pc = s.pc := rfl

@[simp] theorem releaseBus_coreDone (s : State) : (releaseBus s).coreDone = s.coreDone := rfl

@[simp] theorem releaseBus_activeCores (s : State) : (releaseBus s).activeCores = s.activeCores := rfl

@[simp] theorem releaseBus_globalCycle (s : State) : (releaseBus s).globalCycle = s.globalCycle := rfl

@[simp] theorem releaseBus_totalBusTransactions (s : State) : (releaseBus s).totalBusTransactions = s.totalBusTransactions := rfl

@[simp] theorem releaseBus_totalBusTrafficBytes (s : State) : (releaseBus s).totalBusTrafficBytes = s.totalBusTrafficBytes := rfl

@[simp] theorem releaseBus_faultCode (s : State) : (releaseBus s).faultCode = s.faultCode := rfl

@[simp] theorem releaseBus_turn (s : State) : (releaseBus s).turn = s.turn := rfl

/-! ### Bus phases -/

@[simp] theorem busRdStartMem_cfg (s : State) : (busRdStartMem s).cfg = s.cfg := rfl

@[simp] theorem busRdStartMem_traces (s : State) : (busRdStartMem s).traces = s.traces := rfl

@[simp] theorem busRdStartMem_cache (s : State) : (busRdStartMem s).cache = s.cache := rfl

@[simp] theorem busRdStartMem_stats (s : State) : (busRdStartMem s).stats = s.stats := rfl

@[simp] theorem busRdStartMem_pc (s : State) : (busRdStartMem s).pc = s.pc := rfl

@[simp] theorem busRdStartMem_coreDone (s : State) : (busRdStartMem s).coreDone = s.coreDone := rfl

@[simp] theorem busRdStartMem_activeCores (s : State) : (busRdStartMem s).activeCores = s.activeCores := rfl

@[simp] theorem busRdStartMem_globalCycle (s : State) : (busRdStartMem s).globalCycle = s.globalCycle := rfl

@[simp] theorem busRdStartMem_totalBusTransactions (s : State) : (busRdStartMem s).totalBusTransactions = s.totalBusTransactions := rfl

@[simp] theorem busRdStartMem_totalBusTrafficBytes (s : State) : (busRdStartMem s).totalBusTrafficBytes = s.totalBusTrafficBytes := rfl

@[simp] theorem busRdStartMem_faultCode (s : State) : (busRdStartMem s).faultCode = s.faultCode := rfl

@[simp] theorem busRdStartMem_turn (s : State) : (busRdStartMem s).turn = s.turn := rfl

@[simp] theorem busRdXStartMem_cfg (s : State) : (busRdXStartMem s).cfg = s.cfg := rfl

@[simp] theorem busRdXStartMem_traces (s : State) : (busRdXStartMem s).traces = s.traces := rfl

@[simp] theorem busRdXStartMem_cache (s : State) : (busRdXStartMem s).cache = s.cache := rfl

@[simp] theorem busRdXStartMem_stats (s : State) : (busRdXStartMem s).stats = s.stats := rfl

@[simp] theorem busRdXStartMem_pc (s : State) : (busRdXStartMem s).pc = s.pc := rfl

@[simp] theorem busRdXStartMem_coreDone (s : State) : (busRdXStartMem s).coreDone = s.coreDone := rfl

@[simp] theorem busRdXStartMem_activeCores (s : State) : (busRdXStartMem s).activeCores = s.activeCores := rfl

@[simp] theorem busRdXStartMem_globalCycle (s : State) : (busRdXStartMem s).globalCycle = s.globalCycle := rfl

@[simp] theorem busRdXStartMem_totalBusTransactions (s : State) : (busRdXStartMem s).totalBusTransactions = s.totalBusTransactions := rfl

@[simp] theorem busRdXStartMem_totalBusTrafficBytes (s : State) : (busRdXStartMem s).totalBusTrafficBytes = s.totalBusTrafficBytes := rfl

@[simp] theorem busRdXStartMem_faultCode (s : State) : (busRdXStartMem s).faultCode = s.faultCode := rfl

@[simp] theorem busRdXStartMem_turn (s : State) : (busRdXStartMem s).turn = s.turn := rfl

@[simp] theorem flushStart_cfg (s : State) : (flushStart s).cfg = s.cfg := rfl

@[simp] theorem flushStart_traces (s : State) : (flushStart s).traces = s.traces := rfl

@[simp] theorem flushStart_cache (s : State) : (flushStart s).cache = s.cache := rfl

@[simp] theorem flushStart_stats (s : State) : (flushStart s).stats = s.stats := rfl

@[simp] theorem flushStart_pc (s : State) : (flushStart s).pc = s.pc := rfl

@[simp] theorem flushStart_coreDone (s : State) : (flushStart s).coreDone = s.coreDone := rfl

@[simp] theorem flushStart_activeCores (s : State) : (flushStart s).activeCores = s.activeCores := rfl

@[simp] theorem flushStart_globalCycle (s : State) : (flushStart s).globalCycle = s.globalCycle := rfl

@[simp] theorem flushStart_totalBusTransactions (s : State) : (flushStart s).totalBusTransactions = s.totalBusTransactions := rfl

@[simp] theorem flushStart_totalBusTrafficBytes (s : State) : (flushStart s).totalBusTrafficBytes = s.totalBusTrafficBytes := rfl

@[simp] theorem flushStart_faultCode (s : State) : (flushStart s).faultCode = s.faultCode := rfl

@[simp] theorem flushStart_turn (s : State) : (flushStart s).turn = s.turn := rfl

@[simp] theorem evictDone_cfg (s : State) : (evictDone s).cfg = s.cfg := rfl

@[simp] theorem evictDone_traces (s : State) : (evictDone s).traces = s.traces := rfl

@[simp] theorem evictDone_cache (s : State) : (evictDone s).cache = s.cache := rfl

@[simp] theorem evictDone_stats (s : State) : (evictDone s).stats = s.stats := rfl

@[simp] theorem evictDone_pc (s : State) : (evictDone s).pc = s.pc := rfl

@[simp] theorem evictDone_coreDone (s : State) : (evictDone s).coreDone = s.coreDone := rfl

@[simp] theorem evictDone_activeCores (s : State) : (evictDone s).activeCores = s.activeCores := rfl

@[simp] theorem evictDone_globalCycle (s : State) : (evictDone s).globalCycle = s.globalCycle := rfl

@[simp] theorem evictDone_totalBusTransactions (s : State) : (evictDone s).totalBusTransactions = s.totalBusTransactions := rfl

@[simp] theorem evictDone_totalBusTrafficBytes (s : State) : (evictDone s).totalBusTrafficBytes = s.totalBusTrafficBytes := rfl

@[simp] theorem evictDone_faultCode (s : State) : (evictDone s).faultCode = s.faultCode := rfl

@[simp] theorem evictDone_turn (s : State) : (evictDone s).turn = s.turn := rfl

@[simp] theorem intervDone_cfg (s : State) : (intervDone s).cfg = s.cfg := by unfold intervDone; split <;> rfl

@[simp] theorem intervDone_traces (s : State) : (intervDone s).traces = s.traces := by unfold intervDone; split <;> rfl

@[simp] theorem intervDone_cache (s : State) : (intervDone s).cache = s.cache := by unfold intervDone; split <;> rfl

@[simp] theorem intervDone_stats (s : State) : (intervDone s).stats = s.stats := by unfold intervDone; split <;> rfl

@[simp] theorem intervDone_pc (s : State) : (intervDone s).pc = s.pc := by unfold intervDone; split <;> rfl

@[simp] theorem intervDone_coreDone (s : State) : (intervDone s).coreDone = s.coreDone := by unfold intervDone; split <;> rfl

@[simp] theorem intervDone_activeCores (s : State) : (intervDone s).activeCores = s.activeCores := by unfold intervDone; split <;> rfl

@[simp] theorem intervDone_globalCycle (s : State) : (intervDone s).globalCycle = s.globalCycle := by unfold intervDone; split <;> rfl

@[simp] theorem intervDone_totalBusTransactions (s : State) : (intervDone s).totalBusTransactions = s.totalBusTransactions := by unfold intervDone; split <;> rfl

@[simp] theorem intervDone_totalBusTrafficBytes (s : State) : (intervDone s).totalBusTrafficBytes = s.totalBusTrafficBytes := by unfold intervDone; split <;> rfl

@[simp] theorem intervDone_faultCode (s : State) : (intervDone s).faultCode = s.faultCode := by unfold intervDone; split <;> rfl

@[simp] theorem intervDone_turn (s : State) : (intervDone s).turn = s.turn := by unfold intervDone; split <;> rfl


/-- Only `fault_code` decides whether a state is frozen (rule R47). -/
theorem State.faulted_eq_of_faultCode {s t : State} (h : s.faultCode = t.faultCode) : s.faulted = t.faulted := by
  simp [State.faulted, h]

@[simp] theorem State.faulted_iff (s : State) : s.faulted = true ↔ s.faultCode ≠ .fNone := by
  simp [State.faulted]

@[simp] theorem State.not_faulted_iff (s : State) : s.faulted = false ↔ s.faultCode = .fNone := by
  simp [State.faulted]

end Machine

end Sys2Proof
end

