-- ==== Sys2Proof/Laws/TagArray.lean ====
section
/-! SUPPORT. The sparse tag array: reading after writing, the canonical form is kept and determines the array,
and what lookup and victim selection answer. -/

namespace Sys2Proof.Machine

/-! ### Sets -/

/-- The sets of a list are sorted by strictly rising index. -/
abbrev Rising (sets : List (Nat × List Line)) : Prop := sets.Pairwise (fun p q => p.1 < q.1)

@[simp] theorem resetSet_length (E : Nat) : (resetSet E).length = E := by simp [resetSet]

/-- Below the first listed index every set is the reset set. -/
theorem readSet_below {E si : Nat} {sets : List (Nat × List Line)} (h : ∀ p ∈ sets, si < p.1) :
    readSet E si sets = resetSet E := by
  cases sets with
  | nil => rfl
  | cons p rest =>
    have hp := h p (List.mem_cons_self ..)
    obtain ⟨k, M⟩ := p
    simp only [readSet] at *
    rw [if_neg (by omega), if_pos hp]

/-- A set just written reads as what was written. -/
@[simp] theorem readSet_writeSet_self (E si : Nat) (L : List Line) {sets : List (Nat × List Line)}
    (h : Rising sets) : readSet E si (writeSet E si L sets) = L := by
  induction sets with
  | nil =>
    simp only [writeSet]
    split
    · rename_i hL; simp [readSet, hL]
    · simp [readSet]
  | cons p rest ih =>
    obtain ⟨k, M⟩ := p
    have hr := List.pairwise_cons.mp h
    simp only [writeSet]
    split
    · rename_i hk
      split
      · rename_i hL
        subst hk
        rw [readSet_below (fun q hq => hr.1 q hq), hL]
      · simp [readSet]
    · rename_i hk
      split
      · rename_i hlt
        split
        · rename_i hL; simp [readSet, hk, hlt, hL]
        · simp [readSet]
      · rename_i hlt
        simp [readSet, hk, hlt, ih hr.2]

/-- Writing one set leaves every other set alone. -/
@[simp] theorem readSet_writeSet_ne (E : Nat) {si sj : Nat} (L : List Line) {sets : List (Nat × List Line)}
    (h : Rising sets) (hne : sj ≠ si) : readSet E sj (writeSet E si L sets) = readSet E sj sets := by
  induction sets with
  | nil =>
    simp only [writeSet]
    split
    · rfl
    · simp [readSet, hne]
  | cons p rest ih =>
    obtain ⟨k, M⟩ := p
    have hr := List.pairwise_cons.mp h
    simp only [writeSet]
    split
    · rename_i hk
      subst hk
      split
      · simp only [readSet, if_neg hne]
        split
        · rename_i hlt
          exact readSet_below (fun q hq => lt_trans hlt (hr.1 q hq))
        · rfl
      · simp [readSet, hne]
    · rename_i hk
      split
      · rename_i hlt
        split
        · rfl
        · simp only [readSet, if_neg hne]
          split
          · rename_i h2
            rw [if_neg (by omega), if_pos (by omega)]
          · rfl
      · simp only [readSet, ih hr.2]

/-- The indices of a written array are the old ones and the written one. -/
theorem mem_writeSet {E si : Nat} {L : List Line} {sets : List (Nat × List Line)} {p : Nat × List Line}
    (h : p ∈ writeSet E si L sets) : p = (si, L) ∧ L ≠ resetSet E ∨ p ∈ sets := by
  induction sets with
  | nil =>
    simp only [writeSet] at h
    split at h
    · simp at h
    · rename_i hL
      exact .inl ⟨by simpa using h, hL⟩
  | cons q rest ih =>
    obtain ⟨k, M⟩ := q
    simp only [writeSet] at h
    split at h
    · split at h
      · exact .inr (List.mem_cons_of_mem _ h)
      · rename_i hL
        rcases List.mem_cons.mp h with h | h
        · exact .inl ⟨h, hL⟩
        · exact .inr (List.mem_cons_of_mem _ h)
    · split at h
      · split at h
        · exact .inr h
        · rename_i hL
          rcases List.mem_cons.mp h with h | h
          · exact .inl ⟨h, hL⟩
          · exact .inr h
      · rcases List.mem_cons.mp h with h | h
        · exact .inr (h ▸ List.mem_cons_self ..)
        · exact (ih h).imp_right (List.mem_cons_of_mem _)

theorem writeSet_rising {E si : Nat} {L : List Line} {sets : List (Nat × List Line)} (h : Rising sets) :
    Rising (writeSet E si L sets) := by
  induction sets with
  | nil =>
    simp only [writeSet]
    split <;> simp [Rising]
  | cons q rest ih =>
    obtain ⟨k, M⟩ := q
    have hr := List.pairwise_cons.mp h
    simp only [writeSet]
    split
    · rename_i hk
      split
      · exact hr.2
      · subst hk
        exact List.pairwise_cons.mpr ⟨hr.1, hr.2⟩
    · rename_i hk
      split
      · rename_i hlt
        split
        · exact h
        · refine List.pairwise_cons.mpr ⟨fun p hp => ?_, h⟩
          rcases List.mem_cons.mp hp with hp | hp
          · subst hp; exact hlt
          · exact lt_trans hlt (hr.1 p hp)
      · rename_i hlt
        refine List.pairwise_cons.mpr ⟨fun p hp => ?_, ih hr.2⟩
        rcases mem_writeSet hp with ⟨hp, _⟩ | hp
        · subst hp
          show k < si
          omega
        · exact hr.1 p hp

/-- Writing a set of `E` lines at a set index of the cache keeps the canonical form. -/
theorem writeSet_wf {cfg : Config} {si : Nat} {L : List Line} {sets : List (Nat × List Line)}
    (h : setsWF cfg sets) (hsi : si < cfg.numSets) (hL : L.length = cfg.E) :
    setsWF cfg (writeSet cfg.E si L sets) := by
  refine ⟨writeSet_rising h.1, fun p hp => ?_⟩
  rcases mem_writeSet hp with ⟨hp, hne⟩ | hp
  · subst hp; exact ⟨hsi, hL, hne⟩
  · exact h.2 p hp

/-- Every set of a canonical array has `E` lines. -/
theorem readSet_length {cfg : Config} {sets : List (Nat × List Line)} (h : setsWF cfg sets) (si : Nat) :
    (readSet cfg.E si sets).length = cfg.E := by
  replace h := h.2
  induction sets with
  | nil => simp [readSet]
  | cons p rest ih =>
    obtain ⟨k, M⟩ := p
    simp only [readSet]
    split
    · exact (h (k, M) (List.mem_cons_self ..)).2.1
    · split
      · simp
      · exact ih fun q hq => h q (List.mem_cons_of_mem _ hq)

/-- The set indices of a canonical array outside the cache read as the reset set. -/
theorem readSet_outside {cfg : Config} {sets : List (Nat × List Line)} (h : setsWF cfg sets) {si : Nat}
    (hsi : cfg.numSets ≤ si) : readSet cfg.E si sets = resetSet cfg.E := by
  replace h := h.2
  induction sets with
  | nil => rfl
  | cons p rest ih =>
    obtain ⟨k, M⟩ := p
    have hk := (h (k, M) (List.mem_cons_self ..)).1
    simp only [readSet]
    rw [if_neg (by simp only at hk; omega), if_neg (by simp only at hk; omega)]
    exact ih fun q hq => h q (List.mem_cons_of_mem _ hq)

/-- Of two writes to one set the later one stands. -/
@[simp] theorem writeSet_writeSet (E si : Nat) (L L' : List Line) {sets : List (Nat × List Line)}
    (h : Rising sets) : writeSet E si L' (writeSet E si L sets) = writeSet E si L' sets := by
  induction sets with
  | nil =>
    by_cases hL : L = resetSet E <;> simp [writeSet, hL]
  | cons p rest ih =>
    obtain ⟨k, M⟩ := p
    have hr := List.pairwise_cons.mp h
    by_cases hk : si = k
    · subst hk
      by_cases hL : L = resetSet E
      · cases rest with
        | nil => simp [writeSet, hL]
        | cons q rest' =>
          obtain ⟨k', M'⟩ := q
          have hlt : si < k' := hr.1 (k', M') (List.mem_cons_self ..)
          have hne : si ≠ k' := by omega
          simp [writeSet, hL, hlt, hne]
      · simp [writeSet, hL]
    · by_cases hlt : si < k
      · by_cases hL : L = resetSet E <;> simp [writeSet, hL, hk, hlt]
      · simp [writeSet, hk, hlt, ih hr.2]

/-- The canonical form determines the array: equal reads, equal arrays. -/
theorem sets_ext {cfg : Config} {A B : List (Nat × List Line)} (hA : setsWF cfg A) (hB : setsWF cfg B)
    (h : ∀ si, readSet cfg.E si A = readSet cfg.E si B) : A = B := by
  induction A generalizing B with
  | nil =>
    cases B with
    | nil => rfl
    | cons q B' =>
      obtain ⟨k, M⟩ := q
      have := h k
      simp only [readSet, if_true] at this
      exact absurd this.symm (hB.2 (k, M) (List.mem_cons_self ..)).2.2
  | cons p A' ih =>
    obtain ⟨j, N⟩ := p
    have hN := (hA.2 (j, N) (List.mem_cons_self ..)).2.2
    have hrA := List.pairwise_cons.mp hA.1
    cases B with
    | nil =>
      have := h j
      simp only [readSet, if_true] at this
      exact absurd this hN
    | cons q B' =>
      obtain ⟨k, M⟩ := q
      have hM := (hB.2 (k, M) (List.mem_cons_self ..)).2.2
      have hrB := List.pairwise_cons.mp hB.1
      have hjk : j = k := by
        rcases Nat.lt_trichotomy j k with hlt | heq | hgt
        · have := h j
          simp only [readSet, if_true, if_neg (Nat.ne_of_lt hlt), if_pos hlt] at this
          exact absurd this hN
        · exact heq
        · have := h k
          simp only [readSet, if_true, if_neg (Nat.ne_of_lt hgt), if_pos hgt] at this
          exact absurd this.symm hM
      subst hjk
      have hNM : N = M := by simpa [readSet] using h j
      subst hNM
      congr 1
      refine ih ⟨hrA.2, fun q hq => hA.2 q (List.mem_cons_of_mem _ hq)⟩
        ⟨hrB.2, fun q hq => hB.2 q (List.mem_cons_of_mem _ hq)⟩ fun si => ?_
      rcases Nat.lt_trichotomy si j with hlt | heq | hgt
      · rw [readSet_below fun q hq => lt_trans hlt (hrA.1 q hq),
          readSet_below fun q hq => lt_trans hlt (hrB.1 q hq)]
      · subst heq
        rw [readSet_below hrA.1, readSet_below hrB.1]
      · have := h si
        simpa only [readSet, if_neg (show ¬ si = j by omega), if_neg (show ¬ si < j by omega)] using this

/-! ### Lookup and victim -/

theorem Line.holds_iff (l : Line) (t : Tag) : l.holds t = true ↔ l.mesi ≠ .invalid ∧ l.tag = t := by
  simp [Line.holds, Line.valid]

/-- `lookup` finds a way exactly when it is the first one that holds the tag valid (rule R110). -/
theorem lookupIn_eq_some {L : List Line} {t : Tag} {w : Nat} :
    lookupIn L t = some w ↔
      ∃ h : w < L.length, L[w].holds t = true ∧ ∀ j (hj : j < w), L[j].holds t = false := by
  rw [lookupIn, List.findIdx?_eq_some_iff_getElem]
  simp

/-- `lookup` finds nothing exactly when no valid line has the tag (rule R110). -/
theorem lookupIn_eq_none {L : List Line} {t : Tag} :
    lookupIn L t = none ↔ ∀ l ∈ L, l.holds t = false := by
  simp [lookupIn, List.findIdx?_eq_none_iff]

/-- The reset set holds nothing. -/
@[simp] theorem lookupIn_resetSet (E : Nat) (t : Tag) : lookupIn (resetSet E) t = none := by
  rw [lookupIn_eq_none]
  intro l hl
  rw [resetSet, List.mem_replicate] at hl
  simp [hl.2, Line.holds, Line.valid, Line.reset]

/-- A set with an INVALID line gives its first INVALID line as victim (rules R111, R117). -/
theorem victimIn_of_invalid {L : List Line} (h : ∃ l ∈ L, l.valid = false) :
    ∃ hw : victimIn L < L.length, L[victimIn L].valid = false ∧
      ∀ j (hj : j < victimIn L), L[j].valid = true := by
  cases hf : L.findIdx? (fun l => !l.valid) with
  | none =>
    rw [List.findIdx?_eq_none_iff] at hf
    obtain ⟨l, hl, hv⟩ := h
    have := hf l hl
    simp [hv] at this
  | some w =>
    have hvw : victimIn L = w := by simp [victimIn, hf]
    rw [List.findIdx?_eq_some_iff_getElem] at hf
    obtain ⟨hw, h1, h2⟩ := hf
    suffices H : ∀ v, v = w → ∃ hv : v < L.length, L[v].valid = false ∧ ∀ j (hj : j < v), L[j].valid = true from
      H _ hvw
    rintro v rfl
    exact ⟨hw, by simpa using h1, fun j hj => by simpa using h2 j hj⟩

/-- A set with no INVALID line gives the first line with the smallest `lru` as victim (rule R111). -/
theorem victimIn_of_valid {L : List Line} (hne : L ≠ []) (h : ∀ l ∈ L, l.valid = true) :
    ∃ hw : victimIn L < L.length, (∀ l ∈ L, L[victimIn L].lru.toNat ≤ l.lru.toNat) ∧
      ∀ j (hj : j < victimIn L), L[victimIn L].lru.toNat < L[j].lru.toNat := by
  have hnone : L.findIdx? (fun l => !l.valid) = none := by
    rw [List.findIdx?_eq_none_iff]
    intro l hl
    simp [h l hl]
  have hvw : victimIn L = L.findIdx (fun l => minLru L == some l.lru.toNat) := by simp [victimIn, hnone]
  suffices H : ∀ v, v = L.findIdx (fun l => minLru L == some l.lru.toNat) →
      ∃ hv : v < L.length, (∀ l ∈ L, L[v].lru.toNat ≤ l.lru.toNat) ∧
        ∀ j (hj : j < v), L[v].lru.toNat < L[j].lru.toNat from H _ hvw
  rintro v rfl
  obtain ⟨m, hm⟩ : ∃ m, minLru L = some m := by
    cases hmin : minLru L with
    | some m => exact ⟨m, rfl⟩
    | none =>
      rw [minLru, List.min?_eq_none_iff, List.map_eq_nil_iff] at hmin
      exact absurd hmin hne
  have hmem := List.min?_eq_some_iff.mp hm
  obtain ⟨l0, hl0, hl0m⟩ := List.mem_map.mp hmem.1
  have hex : ∃ x ∈ L, (fun l : Line => minLru L == some l.lru.toNat) x = true :=
    ⟨l0, hl0, by simp [hm, hl0m]⟩
  have hlt := List.findIdx_lt_length_of_exists hex
  have hat := List.findIdx_getElem (w := hlt)
  have hval : (L[L.findIdx fun l => minLru L == some l.lru.toNat]).lru.toNat = m := by
    have : minLru L = some (L[L.findIdx fun l => minLru L == some l.lru.toNat]).lru.toNat := by
      simpa using hat
    exact (Option.some.inj (hm.symm.trans this)).symm
  refine ⟨hlt, fun l hl => ?_, fun j hj => ?_⟩
  · rw [hval]
    exact hmem.2 _ (List.mem_map.mpr ⟨l, hl, rfl⟩)
  · have hj2 := List.not_of_lt_findIdx hj
    rw [hval]
    have hle := hmem.2 _ (List.mem_map.mpr ⟨L[j], List.getElem_mem _, rfl⟩)
    rcases Nat.lt_or_eq_of_le hle with h1 | h1
    · exact h1
    · simp [hm, h1] at hj2

/-- The victim of a set with lines is one of its ways. -/
theorem victimIn_lt {L : List Line} (hne : L ≠ []) : victimIn L < L.length := by
  by_cases h : ∃ l ∈ L, l.valid = false
  · exact (victimIn_of_invalid h).1
  · refine (victimIn_of_valid hne fun l hl => ?_).1
    by_contra hv
    exact h ⟨l, hl, by simpa using hv⟩

end Sys2Proof.Machine
end

