-- ==== Sys2Proof/Laws/Ops.lean ====
section
/-! SUPPORT. What each shared operation can do: running a rule, counters, line writes, touch, install. -/

namespace Sys2Proof.Machine

/-! ### Running the lines of a rule -/

@[simp] theorem seq_nil (s : State) : seq [] s = s := rfl

/-- A frozen state runs no line. -/
@[simp] theorem seq_of_faulted {fs : List (State → State)} {s : State} (h : s.faultCode ≠ .fNone) :
    seq fs s = s := by
  cases fs with
  | nil => rfl
  | cons f fs => simp [seq, h]

/-- A state that is not frozen runs the first line and then the others. -/
theorem seq_cons {f : State → State} {fs : List (State → State)} {s : State} (h : s.faultCode = .fNone) :
    seq (f :: fs) s = seq fs (f s) := by
  simp [seq, h]

/-- One line run in a state that is not frozen. -/
@[simp] theorem seq_singleton {f : State → State} {s : State} (h : s.faultCode = .fNone) :
    seq [f] s = f s := by
  simp [seq, h]

/-- What every line of a rule leaves alone, the rule leaves alone. -/
theorem seq_keeps {α : Type} (g : State → α) {fs : List (State → State)} (h : ∀ f ∈ fs, ∀ s, g (f s) = g s)
    (s : State) : g (seq fs s) = g s := by
  induction fs generalizing s with
  | nil => rfl
  | cons f fs ih =>
    simp only [seq]
    split
    · rfl
    · rw [ih (fun f' hf' => h f' (List.mem_cons_of_mem _ hf')), h f (List.mem_cons_self ..)]

/-- What every line of a rule keeps true while no fault is raised, the rule keeps true. -/
theorem seq_induct (P : State → Prop) {fs : List (State → State)}
    (h : ∀ f ∈ fs, ∀ s, s.faultCode = .fNone → P s → P (f s)) {s : State} (hs : P s) : P (seq fs s) := by
  induction fs generalizing s with
  | nil => exact hs
  | cons f fs ih =>
    by_cases hf : s.faultCode = .fNone
    · rw [seq_cons hf]
      exact ih (fun f' hf' => h f' (List.mem_cons_of_mem _ hf')) (h f (List.mem_cons_self ..) s hf hs)
    · rwa [seq_of_faulted hf]

/-- A rule that ends without a fault ran its first line without a fault, and then the others. -/
theorem seq_cons_of_unfaulted {f : State → State} {fs : List (State → State)} {s : State}
    (h : (seq (f :: fs) s).faultCode = .fNone) :
    s.faultCode = .fNone ∧ (f s).faultCode = .fNone ∧ seq (f :: fs) s = seq fs (f s) := by
  by_cases hs : s.faultCode = .fNone
  · refine ⟨hs, ?_, seq_cons hs⟩
    rw [seq_cons hs] at h
    by_contra hf
    rw [seq_of_faulted hf] at h
    exact hf h
  · rw [seq_of_faulted hs] at h
    exact absurd h hs

/-- Stages that answer a next state: the first answered one, and the others went on from it. -/
theorem stages_cons_eq_next {f : State → Answer} {fs : List (State → Answer)} {s t : State}
    (hs : s.faultCode = .fNone) :
    stages (f :: fs) s = .next t ↔ ∃ s1, f s = .next s1 ∧ stages fs s1 = .next t := by
  simp only [stages, State.faulted_iff, hs, ne_eq, not_true_eq_false, if_false]
  cases hf : f s <;> simp

@[simp] theorem stages_nil (s : State) : stages [] s = .next s := rfl

@[simp] theorem stages_of_faulted {fs : List (State → Answer)} {s : State} (h : s.faultCode ≠ .fNone) :
    stages fs s = .next s := by
  cases fs with
  | nil => rfl
  | cons f fs => simp [stages, h]

/-- What every stage keeps true, the stages keep true. -/
theorem stages_induct (P : State → Prop) {fs : List (State → Answer)}
    (h : ∀ f ∈ fs, ∀ s s', s.faultCode = .fNone → P s → f s = .next s' → P s') {s t : State} (hs : P s)
    (ht : stages fs s = .next t) : P t := by
  induction fs generalizing s with
  | nil => cases ht; exact hs
  | cons f fs ih =>
    by_cases hf : s.faultCode = .fNone
    · obtain ⟨s1, h1, h2⟩ := (stages_cons_eq_next hf).mp ht
      exact ih (fun f' hf' => h f' (List.mem_cons_of_mem _ hf')) (h f (List.mem_cons_self ..) s s1 hf hs h1) h2
    · rw [stages_of_faulted hf] at ht
      cases ht; exact hs

/-! ### Raising a fault -/

/-- A fault is raised in a state that is not frozen. -/
theorem raise_of_running {s : State} (code : FaultCode) (h : s.faultCode = .fNone) :
    raise code s = { s with faultCode := code } := by
  simp [raise, h]

/-- The first fault stays (rules R47, R207). -/
theorem raise_of_faulted {s : State} (code : FaultCode) (h : s.faultCode ≠ .fNone) : raise code s = s := by
  simp [raise, h]

/-! ### Counters -/

/-- `inc` where the sum fits (rule R11). -/
theorem inc_of_room {x : Counter} {k : Nat} {s : State} (h : HasRoom s x k) :
    inc x k s = s.setCounter x (s.counter x + BitVec.ofNat 64 k) := by
  have hv : BitVec.ofNat 64 ((s.counter x).toNat + k) = s.counter x + BitVec.ofNat 64 k := by
    apply BitVec.eq_of_toNat_eq
    simp
  unfold HasRoom at h
  simp only [inc, h, if_true, hv]

/-- `inc` where the sum does not fit raises F_OVERFLOW and writes nothing (rule R199). -/
theorem inc_of_full {x : Counter} {k : Nat} {s : State} (h : ¬ HasRoom s x k) : inc x k s = raise .fOverflow s := by
  unfold HasRoom at h
  simp only [inc, h, if_false]

/-- An increment that raises no fault wrote the sum. -/
theorem inc_of_unfaulted {x : Counter} {k : Nat} {s : State} (h : (inc x k s).faultCode = .fNone) :
    HasRoom s x k ∧ s.faultCode = .fNone ∧ inc x k s = s.setCounter x (s.counter x + BitVec.ofNat 64 k) := by
  by_cases hr : HasRoom s x k
  · refine ⟨hr, ?_, inc_of_room hr⟩
    rw [inc_of_room hr] at h
    simpa using h
  · rw [inc_of_full hr] at h
    by_cases hs : s.faultCode = .fNone
    · rw [raise_of_running _ hs] at h
      cases h
    · rw [raise_of_faulted _ hs] at h
      exact absurd h hs

/-- A line of a rule that increments a counter with room writes the sum and goes on. -/
theorem seq_inc_of_room {x : Counter} {k : Nat} {fs : List (State → State)} {s : State}
    (hs : s.faultCode = .fNone) (hr : HasRoom s x k) :
    seq (inc x k :: fs) s = seq fs (s.setCounter x (s.counter x + BitVec.ofNat 64 k)) := by
  rw [seq_cons hs, inc_of_room hr]

/-- A line of a rule that increments a full counter ends the rule there with F_OVERFLOW. -/
theorem seq_inc_of_full {x : Counter} {k : Nat} {fs : List (State → State)} {s : State}
    (hs : s.faultCode = .fNone) (hr : ¬ HasRoom s x k) :
    seq (inc x k :: fs) s = { s with faultCode := .fOverflow } := by
  rw [seq_cons hs, inc_of_full hr, raise_of_running _ hs, seq_of_faulted (by simp)]

/-- The room of a counter does not depend on another one. -/
theorem hasRoom_setCounter_ne {s : State} {x y : Counter} {v : Count} {k : Nat} (h : y ≠ x) :
    HasRoom (s.setCounter x v) y k ↔ HasRoom s y k := by
  simp [HasRoom, h]

/-- The value of an incremented counter, where the sum fits. -/
theorem counter_add_toNat {s : State} {x : Counter} {k : Nat} (h : HasRoom s x k) :
    (s.counter x + BitVec.ofNat 64 k).toNat = (s.counter x).toNat + k := by
  unfold HasRoom at h
  rw [BitVec.toNat_add, BitVec.toNat_ofNat]
  omega

@[simp] theorem inc_cfg (x : Counter) (k : Nat) (s : State) : (inc x k s).cfg = s.cfg := by
  unfold inc; split <;> simp

@[simp] theorem inc_traces (x : Counter) (k : Nat) (s : State) : (inc x k s).traces = s.traces := by
  unfold inc; split <;> simp

@[simp] theorem inc_bus (x : Counter) (k : Nat) (s : State) : (inc x k s).bus = s.bus := by
  unfold inc; split <;> simp

@[simp] theorem inc_pc (x : Counter) (k : Nat) (s : State) : (inc x k s).pc = s.pc := by
  unfold inc; split <;> simp

@[simp] theorem inc_coreDone (x : Counter) (k : Nat) (s : State) : (inc x k s).coreDone = s.coreDone := by
  unfold inc; split <;> simp

@[simp] theorem inc_activeCores (x : Counter) (k : Nat) (s : State) : (inc x k s).activeCores = s.activeCores := by
  unfold inc; split <;> simp

@[simp] theorem inc_turn (x : Counter) (k : Nat) (s : State) : (inc x k s).turn = s.turn := by
  unfold inc; split <;> simp

@[simp] theorem inc_sets (x : Counter) (k : Nat) (s : State) (c : CoreId) :
    ((inc x k s).cache.get c).sets = (s.cache.get c).sets := by
  unfold inc; split <;> simp

/-! ### Lines -/

/-- The lines of a set depend on the configuration and that cache's sets alone. -/
theorem setLines_congr {s t : State} {c : CoreId} (hcfg : s.cfg = t.cfg)
    (hsets : (s.cache.get c).sets = (t.cache.get c).sets) (si : Nat) : s.setLines c si = t.setLines c si := by
  simp [State.setLines, hcfg, hsets]

@[simp] theorem setLines_setCounter (s : State) (x : Counter) (v : Count) (c : CoreId) (si : Nat) :
    (s.setCounter x v).setLines c si = s.setLines c si := setLines_congr (by simp) (by simp) si

@[simp] theorem setLines_inc (x : Counter) (k : Nat) (s : State) (c : CoreId) (si : Nat) :
    (inc x k s).setLines c si = s.setLines c si := setLines_congr (by simp) (by simp) si

@[simp] theorem setLines_raise (code : FaultCode) (s : State) (c : CoreId) (si : Nat) :
    (raise code s).setLines c si = s.setLines c si := setLines_congr (by simp) (by simp) si

/-- The sets of every cache are sorted by index: what reading after writing needs. -/
theorem ArraysShaped.rising {s : State} (h : ArraysShaped s) (c : CoreId) : Rising (s.cache.get c).sets := (h c).1

/-- Every set of a shaped array has `E` lines (rule R118). -/
theorem ArraysShaped.setLines_length {s : State} (h : ArraysShaped s) (c : CoreId) (si : Nat) :
    (s.setLines c si).length = s.cfg.E := readSet_length (h c) si

/-- The lines of every set after one set is written. -/
theorem setLines_putSet {s : State} (h : ArraysShaped s) (c c' : CoreId) (si si' : Nat) (L : List Line) :
    (s.putSet c si L).setLines c' si' = if c' = c ∧ si' = si then L else s.setLines c' si' := by
  by_cases hc : c' = c
  · subst hc
    by_cases hsi : si' = si
    · subst hsi
      simp [State.setLines, State.putSet, h.rising]
    · simp [State.setLines, State.putSet, h.rising, hsi]
  · simp [State.setLines, hc]

/-- Every line after one line is rewritten. -/
theorem lineAt_modifyLine {s : State} (h : ArraysShaped s) (c c' : CoreId) (si si' w w' : Nat) (f : Line → Line) :
    (modifyLine c si w f s).lineAt c' si' w' =
      if c' = c ∧ si' = si ∧ w' = w then (s.lineAt c' si' w').map f else s.lineAt c' si' w' := by
  unfold State.lineAt modifyLine
  rw [setLines_putSet h]
  by_cases hcs : c' = c ∧ si' = si
  · obtain ⟨hc, hsi⟩ := hcs
    subst hc; subst hsi
    by_cases hw : w' = w
    · subst hw
      simp
    · have hw2 : w ≠ w' := fun e => hw e.symm
      simp [hw, hw2]
  · rw [if_neg hcs, if_neg fun hh => hcs ⟨hh.1, hh.2.1⟩]

theorem ArraysShaped.congr {s t : State} (h : ArraysShaped s) (hcfg : t.cfg = s.cfg)
    (hsets : ∀ c, (t.cache.get c).sets = (s.cache.get c).sets) : ArraysShaped t := by
  intro c
  rw [hcfg, hsets c]
  exact h c

/-- Rewriting a line of a set of the cache keeps the shape of the arrays. -/
theorem ArraysShaped.modifyLine {s : State} (h : ArraysShaped s) (c : CoreId) {si : Nat} (w : Nat)
    (f : Line → Line) (hsi : si < s.cfg.numSets) : ArraysShaped (modifyLine c si w f s) := by
  intro c'
  show setsWF s.cfg _
  by_cases hc : c' = c
  · subst hc
    have hL : ((s.setLines c' si).modify w f).length = s.cfg.E := by simp [h.setLines_length]
    simpa [Machine.modifyLine, State.putSet] using writeSet_wf (h c') hsi hL
  · simpa [Machine.modifyLine, State.putSet, hc] using h c'

/-- `set_of` names a set of the cache (rule R62). -/
theorem setOf_lt (cfg : Config) (a : Addr) : setOf cfg a < cfg.numSets := by
  unfold setOf Config.numSets
  rw [Nat.and_two_pow_sub_one_eq_mod]
  exact Nat.mod_lt _ (Nat.two_pow_pos _)

/-- Two rewrites of one line are one rewrite. -/
theorem modifyLine_modifyLine {s : State} (h : ArraysShaped s) (c : CoreId) (si w : Nat) (f g : Line → Line) :
    modifyLine c si w g (modifyLine c si w f s) = modifyLine c si w (fun l => g (f l)) s := by
  have hmod : ∀ (L : List Line), (L.modify w f).modify w g = L.modify w (fun l => g (f l)) := by
    intro L
    apply List.ext_getElem?
    intro i
    simp only [List.getElem?_modify]
    by_cases hi : w = i <;> simp [hi, Function.comp_def]
  unfold modifyLine
  rw [setLines_putSet h, if_pos ⟨rfl, rfl⟩, hmod]
  simp [State.putSet, h.rising]

/-- `touch` where the LRU counter has room (rule R112). -/
theorem touch_of_room {c : CoreId} {si w : Nat} {s : State} (hs : s.faultCode = .fNone)
    (hr : HasRoom s (.lruCtr c) 1) :
    touch c si w s =
      modifyLine c si w (fun l => { l with lru := (s.cache.get c).lruCtr + 1 })
        (s.setCounter (.lruCtr c) ((s.cache.get c).lruCtr + 1)) := by
  have h1 : (s.setCounter (.lruCtr c) (s.counter (.lruCtr c) + BitVec.ofNat 64 1)).faultCode = .fNone := by simp [hs]
  have h2 : s.counter (.lruCtr c) + BitVec.ofNat 64 1 = (s.cache.get c).lruCtr + 1 := rfl
  have h3 : ((s.setCounter (.lruCtr c) ((s.cache.get c).lruCtr + 1)).cache.get c).lruCtr =
      (s.cache.get c).lruCtr + 1 := by simp [State.setCounter]
  unfold touch
  rw [seq_cons hs, inc_of_room hr, seq_singleton h1, h2, h3]

/-- `touch` where the LRU counter is full raises F_OVERFLOW and writes nothing (rules R112, R199). -/
theorem touch_of_full {c : CoreId} {si w : Nat} {s : State} (hs : s.faultCode = .fNone)
    (hr : ¬ HasRoom s (.lruCtr c) 1) : touch c si w s = { s with faultCode := .fOverflow } := by
  unfold touch
  rw [seq_cons hs, inc_of_full hr, raise_of_running _ hs, seq_of_faulted (by simp)]

@[simp] theorem touch_cfg (c : CoreId) (si w : Nat) (s : State) : (touch c si w s).cfg = s.cfg := by
  refine seq_keeps (fun s => s.cfg) (fun f hf s => ?_) s
  simp only [List.mem_cons, List.not_mem_nil, or_false] at hf
  rcases hf with rfl | rfl <;> simp

@[simp] theorem touch_traces (c : CoreId) (si w : Nat) (s : State) : (touch c si w s).traces = s.traces := by
  refine seq_keeps (fun s => s.traces) (fun f hf s => ?_) s
  simp only [List.mem_cons, List.not_mem_nil, or_false] at hf
  rcases hf with rfl | rfl <;> simp

@[simp] theorem touch_bus (c : CoreId) (si w : Nat) (s : State) : (touch c si w s).bus = s.bus := by
  refine seq_keeps (fun s => s.bus) (fun f hf s => ?_) s
  simp only [List.mem_cons, List.not_mem_nil, or_false] at hf
  rcases hf with rfl | rfl <;> simp

@[simp] theorem touch_pc (c : CoreId) (si w : Nat) (s : State) : (touch c si w s).pc = s.pc := by
  refine seq_keeps (fun s => s.pc) (fun f hf s => ?_) s
  simp only [List.mem_cons, List.not_mem_nil, or_false] at hf
  rcases hf with rfl | rfl <;> simp

@[simp] theorem touch_coreDone (c : CoreId) (si w : Nat) (s : State) : (touch c si w s).coreDone = s.coreDone := by
  refine seq_keeps (fun s => s.coreDone) (fun f hf s => ?_) s
  simp only [List.mem_cons, List.not_mem_nil, or_false] at hf
  rcases hf with rfl | rfl <;> simp

@[simp] theorem touch_activeCores (c : CoreId) (si w : Nat) (s : State) : (touch c si w s).activeCores = s.activeCores := by
  refine seq_keeps (fun s => s.activeCores) (fun f hf s => ?_) s
  simp only [List.mem_cons, List.not_mem_nil, or_false] at hf
  rcases hf with rfl | rfl <;> simp

@[simp] theorem touch_turn (c : CoreId) (si w : Nat) (s : State) : (touch c si w s).turn = s.turn := by
  refine seq_keeps (fun s => s.turn) (fun f hf s => ?_) s
  simp only [List.mem_cons, List.not_mem_nil, or_false] at hf
  rcases hf with rfl | rfl <;> simp

@[simp] theorem touch_stats (c : CoreId) (si w : Nat) (s : State) : (touch c si w s).stats = s.stats := by
  refine seq_keeps (fun s => s.stats) (fun f hf s => ?_) s
  simp only [List.mem_cons, List.not_mem_nil, or_false] at hf
  rcases hf with rfl | rfl
  · unfold inc; split <;> simp [State.setCounter]
  · rfl

@[simp] theorem touch_globalCycle (c : CoreId) (si w : Nat) (s : State) : (touch c si w s).globalCycle = s.globalCycle := by
  refine seq_keeps (fun s => s.globalCycle) (fun f hf s => ?_) s
  simp only [List.mem_cons, List.not_mem_nil, or_false] at hf
  rcases hf with rfl | rfl
  · unfold inc; split <;> simp [State.setCounter]
  · rfl

@[simp] theorem touch_totalBusTransactions (c : CoreId) (si w : Nat) (s : State) : (touch c si w s).totalBusTransactions = s.totalBusTransactions := by
  refine seq_keeps (fun s => s.totalBusTransactions) (fun f hf s => ?_) s
  simp only [List.mem_cons, List.not_mem_nil, or_false] at hf
  rcases hf with rfl | rfl
  · unfold inc; split <;> simp [State.setCounter]
  · rfl

@[simp] theorem touch_totalBusTrafficBytes (c : CoreId) (si w : Nat) (s : State) : (touch c si w s).totalBusTrafficBytes = s.totalBusTrafficBytes := by
  refine seq_keeps (fun s => s.totalBusTrafficBytes) (fun f hf s => ?_) s
  simp only [List.mem_cons, List.not_mem_nil, or_false] at hf
  rcases hf with rfl | rfl
  · unfold inc; split <;> simp [State.setCounter]
  · rfl

/-- `install` where the LRU counter has room: one line and the LRU counter change (rule R113). -/
theorem install_of_room {c : CoreId} {si : Nat} {t : Tag} {m : Mesi} {s : State} (h : ArraysShaped s)
    (hsi : si < s.cfg.numSets) (hs : s.faultCode = .fNone) (hr : HasRoom s (.lruCtr c) 1) :
    install c si t m s = { s with cache := installedCaches s c si t m } := by
  have h1 : ArraysShaped (modifyLine c si (s.victim c si) (fun l => { l with tag := t }) s) := h.modifyLine c _ _ hsi
  unfold install
  simp only
  rw [seq_cons hs, seq_cons (by simpa using hs)]
  unfold setMesi
  rw [modifyLine_modifyLine h, seq_singleton (by simpa using hs)]
  rw [touch_of_room (by simpa using hs)
    (by simpa [HasRoom, State.counter, modifyLine] using hr)]
  have hsets : ∀ v, (modifyLine c si (s.victim c si) (fun l => { l with tag := t, mesi := m }) s).setCounter
      (.lruCtr c) v =
      modifyLine c si (s.victim c si) (fun l => { l with tag := t, mesi := m }) (s.setCounter (.lruCtr c) v) := by
    intro v
    simp [State.setCounter, modifyLine, State.putSet, State.setLines]
  rw [hsets, modifyLine_modifyLine (h.congr (by simp) (by simp))]
  simp [State.setCounter, modifyLine, State.putSet, State.setLines, installedCaches, lineRewritten]

/-- `install` where the LRU counter is full: the line holds the block, and F_OVERFLOW is raised before the
touch (rules R113, R198, R199). -/
theorem install_of_full {c : CoreId} {si : Nat} {t : Tag} {m : Mesi} {s : State} (h : ArraysShaped s)
    (hs : s.faultCode = .fNone) (hr : ¬ HasRoom s (.lruCtr c) 1) :
    install c si t m s =
      { modifyLine c si (s.victim c si) (fun l => { l with tag := t, mesi := m }) s with
        faultCode := .fOverflow } := by
  unfold install
  simp only
  rw [seq_cons hs, seq_cons (by simpa using hs)]
  unfold setMesi
  rw [modifyLine_modifyLine h, seq_singleton (by simpa using hs)]
  exact touch_of_full (by simpa using hs) (by simpa [HasRoom, State.counter, modifyLine] using hr)

end Sys2Proof.Machine
end

