-- ==== Sys2Proof/Laws/Rules.lean ====
section
/-! SUPPORT. What the shared parts of the rules do: the completion of an access, an issue, the two chained
writebacks, the invalidation of copies, and victim preparation. -/

namespace Sys2Proof.Machine

/-! ### Room -/

theorem hasRooms_cons {s : State} {x : Counter} {k : Nat} {l : List (Counter × Nat)} :
    HasRooms s ((x, k) :: l) ↔ HasRoom s x k ∧ HasRooms s l := by simp [HasRooms]

@[simp] theorem hasRooms_nil (s : State) : HasRooms s [] ↔ True := by simp [HasRooms]

/-- Room depends on the counters alone. -/
theorem hasRooms_congr {s t : State} {l : List (Counter × Nat)} (h : ∀ p ∈ l, t.counter p.1 = s.counter p.1) :
    HasRooms t l ↔ HasRooms s l := by
  unfold HasRooms HasRoom
  exact ⟨fun H p hp => h p hp ▸ H p hp, fun H p hp => (h p hp).symm ▸ H p hp⟩

/-! ### Completion -/

/-- A completed access: the line is touched, three counters and the program counter advance (rules R126, R127). -/
theorem completeAccess_of_room {c : CoreId} {si k : Nat} {kind : StatName} {s : State}
    (hk : kind = .totalReads ∨ kind = .totalWrites) (hs : s.faultCode = .fNone)
    (hr : HasRooms s (completionCounters c kind)) :
    completeAccess c si k kind s =
      { s with
        cache := s.cache.set c
          { sets := lineRewritten s.cfg (s.cache.get c).sets si k
              (fun l => { l with lru := (s.cache.get c).lruCtr + 1 })
            lruCtr := (s.cache.get c).lruCtr + 1 }
        stats := s.stats.set c
          ((((s.stats.get c).write kind ((s.stats.get c).read kind + 1)).write .totalInstructions
            ((s.stats.get c).totalInstructions + 1)).write .totalCycles ((s.stats.get c).totalCycles + 1))
        pc := s.pc.set c (s.pc.get c + 1) } := by
  simp only [completionCounters, hasRooms_cons] at hr
  obtain ⟨h1, h2, h3, h4, -⟩ := hr
  unfold completeAccess
  rw [seq_cons hs, touch_of_room hs h1]
  rw [seq_inc_of_room (by simpa using hs) (by simpa [HasRoom, State.counter, State.setCounter] using h2)]
  rw [seq_inc_of_room (by simpa using hs)
    (by rcases hk with rfl | rfl <;> simpa [HasRoom, State.counter, State.setCounter] using h3)]
  rw [seq_inc_of_room (by simpa using hs)
    (by rcases hk with rfl | rfl <;> simpa [HasRoom, State.counter, State.setCounter] using h4)]
  rw [seq_singleton (by simpa using hs)]
  rcases hk with rfl | rfl <;>
  simp [advancePc, State.setCounter, modifyLine, State.putSet, State.setLines, lineRewritten, State.counter,
    Stats.read, Stats.write]

/-- An access whose completion meets a full counter raises F_OVERFLOW before the program counter advances. -/
theorem completeAccess_of_full {c : CoreId} {si k : Nat} {kind : StatName} {s : State}
    (hk : kind = .totalReads ∨ kind = .totalWrites) (hs : s.faultCode = .fNone)
    (hr : ¬ HasRooms s (completionCounters c kind)) :
    (completeAccess c si k kind s).faultCode = .fOverflow ∧ (completeAccess c si k kind s).pc = s.pc := by
  simp only [completionCounters, hasRooms_cons, hasRooms_nil, and_true] at hr
  unfold completeAccess
  rw [seq_cons hs]
  by_cases h1 : HasRoom s (.lruCtr c) 1
  · rw [touch_of_room hs h1]
    by_cases h2 : HasRoom s (.stat c kind) 1
    · rw [seq_inc_of_room (by simpa using hs) (by simpa [HasRoom, State.counter, State.setCounter] using h2)]
      by_cases h3 : HasRoom s (.stat c .totalInstructions) 1
      · rw [seq_inc_of_room (by simpa using hs)
          (by rcases hk with rfl | rfl <;> simpa [HasRoom, State.counter, State.setCounter] using h3)]
        have h4 : ¬ HasRoom s (.stat c .totalCycles) 1 := fun h4 => hr ⟨h1, h2, h3, h4⟩
        rw [seq_inc_of_full (by simpa using hs)
          (by rcases hk with rfl | rfl <;> simpa [HasRoom, State.counter, State.setCounter] using h4)]
        simp
      · rw [seq_inc_of_full (by simpa using hs)
          (by rcases hk with rfl | rfl <;> simpa [HasRoom, State.counter, State.setCounter] using h3)]
        simp
    · rw [seq_inc_of_full (by simpa using hs) (by simpa [HasRoom, State.counter, State.setCounter] using h2)]
      simp
  · rw [touch_of_full hs h1, seq_of_faulted (by simp)]
    simp

/-! ### Lines that increments walk over -/

/-- Increments of distinct counters with room, then the rest of the rule: every sum is written. -/
theorem seq_incs_of_room {l : List (Counter × Nat)} {fs : List (State → State)} {s : State}
    (hs : s.faultCode = .fNone) (hd : (l.map Prod.fst).Nodup) (hr : HasRooms s l) :
    seq (l.map (fun p => inc p.1 p.2) ++ fs) s =
      seq fs (l.foldl (fun s p => s.setCounter p.1 (s.counter p.1 + BitVec.ofNat 64 p.2)) s) := by
  induction l generalizing s with
  | nil => rfl
  | cons p l ih =>
    obtain ⟨x, k⟩ := p
    rw [hasRooms_cons] at hr
    simp only [List.map_cons, List.nodup_cons] at hd
    simp only [List.map_cons, List.cons_append, List.foldl_cons]
    rw [seq_inc_of_room hs hr.1, ih (by simpa using hs) hd.2]
    refine (hasRooms_congr fun q hq => ?_).mpr hr.2
    exact State.counter_setCounter_ne _ _ fun e => hd.1 (e ▸ List.mem_map_of_mem hq)

/-- Increments of distinct counters, not all with room: F_OVERFLOW, and nothing but counters is written. -/
theorem seq_incs_of_full {l : List (Counter × Nat)} {fs : List (State → State)} {s : State}
    (hs : s.faultCode = .fNone) (hd : (l.map Prod.fst).Nodup) (hr : ¬ HasRooms s l) :
    ∃ t : State, seq (l.map (fun p => inc p.1 p.2) ++ fs) s = { t with faultCode := .fOverflow } ∧
      t.cfg = s.cfg ∧ t.bus = s.bus ∧ t.pc = s.pc ∧ (∀ c, (t.cache.get c).sets = (s.cache.get c).sets) ∧
      ∀ x, x ∉ l.map Prod.fst → t.counter x = s.counter x := by
  induction l generalizing s with
  | nil => simp at hr
  | cons p l ih =>
    obtain ⟨x, k⟩ := p
    rw [hasRooms_cons] at hr
    simp only [List.map_cons, List.nodup_cons] at hd
    simp only [List.map_cons, List.cons_append]
    by_cases hx : HasRoom s x k
    · rw [seq_inc_of_room hs hx]
      have hl : ¬ HasRooms (s.setCounter x (s.counter x + BitVec.ofNat 64 k)) l := fun h => hr ⟨hx, by
        refine (hasRooms_congr fun q hq => ?_).mp h
        exact State.counter_setCounter_ne _ _ fun e => hd.1 (e ▸ List.mem_map_of_mem hq)⟩
      obtain ⟨t, h1, h2, h3, h4, h5, h6⟩ := ih (by simpa using hs) hd.2 hl
      refine ⟨t, h1, by simpa using h2, by simpa using h3, by simpa using h4, by simpa using h5, fun y hy => ?_⟩
      simp only [List.mem_cons, not_or] at hy
      rw [h6 y hy.2, State.counter_setCounter_ne _ _ hy.1]
    · rw [seq_inc_of_full hs hx]
      exact ⟨s, rfl, rfl, rfl, rfl, fun _ => rfl, fun _ _ => rfl⟩

/-! ### Issue -/

/-- The bus record that an issue writes (rule R132). -/
theorem issue_of_room {c : CoreId} {a : Addr} {w : Bool} {s : State} (hs : s.faultCode = .fNone)
    (hr : HasRooms s (issueCounters c s.cfg.blockSize w)) :
    issue c a w s =
      { s with
        bus := { s.bus with
          available := false, done := true, srcCore := some c, addr := a
          reqType := (if w then .busRdX else .busRd), respCore := none, evict := false }
        stats := s.stats.set c
          { s.stats.get c with
            cacheMisses := (s.stats.get c).cacheMisses + 1
            totalCycles := (s.stats.get c).totalCycles + 1
            dataTrafficBytes := (s.stats.get c).dataTrafficBytes + BitVec.ofNat 64 s.cfg.blockSize
            busInvalidations := if w then (s.stats.get c).busInvalidations + 1 else (s.stats.get c).busInvalidations }
        totalBusTransactions := s.totalBusTransactions + 1
        totalBusTrafficBytes := s.totalBusTrafficBytes + BitVec.ofNat 64 s.cfg.blockSize } := by
  unfold issue
  rw [seq_cons hs]
  cases w with
  | false =>
    have h := seq_incs_of_room (l := issueCounters c s.cfg.blockSize false)
      (fs := [fun s => if false then inc (.stat c .busInvalidations) 1 s else s])
      (s := { s with bus := { s.bus with
        available := false, done := true, srcCore := some c, addr := a, reqType := .busRd, respCore := none
        evict := false } }) hs (by simp [issueCounters]) hr
    refine h.trans ?_
    simp only [issueCounters, Bool.false_eq_true, if_false, List.append_nil, List.foldl_cons, List.foldl_nil]
    rw [seq_singleton (by simpa using hs)]
    simp [State.setCounter, State.counter, Stats.write, Stats.read]
  | true =>
    have h := seq_incs_of_room (l := issueCounters c s.cfg.blockSize true) (fs := [])
      (s := { s with bus := { s.bus with
        available := false, done := true, srcCore := some c, addr := a, reqType := .busRdX, respCore := none
        evict := false } }) hs (by simp [issueCounters]) hr
    refine h.trans ?_
    simp [issueCounters, State.setCounter, State.counter, Stats.write, Stats.read]

/-- An issue that meets a full counter raises F_OVERFLOW; no line and no program counter changes. -/
theorem issue_of_full {c : CoreId} {a : Addr} {w : Bool} {s : State} (hs : s.faultCode = .fNone)
    (hr : ¬ HasRooms s (issueCounters c s.cfg.blockSize w)) :
    (issue c a w s).faultCode = .fOverflow ∧ (issue c a w s).cache = s.cache ∧ (issue c a w s).pc = s.pc := by
  have hcache : (issue c a w s).cache = s.cache := by
    unfold issue
    refine seq_keeps (fun s => s.cache) (fun f hf s => ?_) s
    have hi : ∀ n k, (inc (.stat c n) k s).cache = s.cache := by
      intro n k; unfold inc; split <;> simp [State.setCounter]
    simp only [List.mem_cons, List.not_mem_nil, or_false] at hf
    rcases hf with rfl | rfl | rfl | rfl | rfl | rfl | rfl
    · rfl
    · exact hi _ _
    · exact hi _ _
    · exact hi _ _
    · show (inc _ _ s).cache = s.cache
      unfold inc; split <;> simp [State.setCounter]
    · show (inc _ _ s).cache = s.cache
      unfold inc; split <;> simp [State.setCounter]
    · show (if w then inc _ _ s else s).cache = s.cache
      split
      · exact hi _ _
      · rfl
  refine ⟨?_, hcache, ?_⟩ <;>
  · unfold issue
    rw [seq_cons hs]
    cases w with
    | false =>
      obtain ⟨t, h, -, -, hpc, -⟩ := seq_incs_of_full (l := issueCounters c s.cfg.blockSize false)
        (fs := [fun s => if false then inc (.stat c .busInvalidations) 1 s else s])
        (s := { s with bus := { s.bus with
          available := false, done := true, srcCore := some c, addr := a, reqType := .busRd, respCore := none
          evict := false } }) hs (by simp [issueCounters]) hr
      first
        | exact (congrArg State.faultCode h).trans rfl
        | exact (congrArg State.pc h).trans hpc
    | true =>
      obtain ⟨t, h, -, -, hpc, -⟩ := seq_incs_of_full (l := issueCounters c s.cfg.blockSize true) (fs := [])
        (s := { s with bus := { s.bus with
          available := false, done := true, srcCore := some c, addr := a, reqType := .busRdX, respCore := none
          evict := false } }) hs (by simp [issueCounters]) hr
      first
        | exact (congrArg State.faultCode h).trans rfl
        | exact (congrArg State.pc h).trans hpc

/-! ### Chained writebacks -/

/-- CHAIN_EVICT_FLUSH where the counters have room (rule R149). -/
theorem chainEvictFlush_of_room {c : CoreId} {req : ReqType} {s : State} (hs : s.faultCode = .fNone)
    (hr : HasRooms s (writebackCounters c s.cfg.blockSize)) :
    chainEvictFlush c req s =
      { s with
        bus := { s.bus with
          prevReqType := req, prevMesi := .modified, reqType := .flush, evict := true, done := true }
        stats := s.stats.set c
          { s.stats.get c with
            writebacks := (s.stats.get c).writebacks + 1
            dataTrafficBytes := (s.stats.get c).dataTrafficBytes + BitVec.ofNat 64 s.cfg.blockSize }
        totalBusTransactions := s.totalBusTransactions + 1
        totalBusTrafficBytes := s.totalBusTrafficBytes + BitVec.ofNat 64 s.cfg.blockSize } := by
  unfold chainEvictFlush
  rw [seq_cons hs]
  have h := seq_incs_of_room (l := writebackCounters c s.cfg.blockSize) (fs := [])
    (s := { s with bus := { s.bus with
      prevReqType := req, prevMesi := .modified, reqType := .flush, evict := true, done := true } }) hs
    (by simp [writebackCounters]) hr
  refine h.trans ?_
  simp [writebackCounters, State.setCounter, State.counter, Stats.write, Stats.read]

/-- The common part of the intervention writebacks where the counters have room (rules R156, R158). -/
theorem chainIntervFlush_of_room {c owner : CoreId} {req : ReqType} {s : State} (hs : s.faultCode = .fNone)
    (hr : HasRooms s (writebackCounters owner s.cfg.blockSize)) :
    chainIntervFlush c owner req s =
      { s with
        bus := { s.bus with
          prevReqType := req, prevCore := some c, srcCore := some owner, reqType := .flush
          evict := false, done := true }
        stats := s.stats.set owner
          { s.stats.get owner with
            writebacks := (s.stats.get owner).writebacks + 1
            dataTrafficBytes := (s.stats.get owner).dataTrafficBytes + BitVec.ofNat 64 s.cfg.blockSize }
        totalBusTransactions := s.totalBusTransactions + 1
        totalBusTrafficBytes := s.totalBusTrafficBytes + BitVec.ofNat 64 s.cfg.blockSize } := by
  unfold chainIntervFlush
  rw [seq_cons hs]
  have h := seq_incs_of_room (l := writebackCounters owner s.cfg.blockSize) (fs := [])
    (s := { s with bus := { s.bus with
      prevReqType := req, prevCore := some c, srcCore := some owner, reqType := .flush
      evict := false, done := true } }) hs
    (by simp [writebackCounters]) hr
  refine h.trans ?_
  simp [writebackCounters, State.setCounter, State.counter, Stats.write, Stats.read]

/-! ### Copies of a block -/

/-- A cache that holds a block in a state other than INVALID finds it. -/
theorem lookup_of_mesiOf {s : State} {c : CoreId} {si : Nat} {t : Tag} (h : s.mesiOf c si t ≠ .invalid) :
    ∃ k, s.lookup c si t = some k := by
  unfold State.mesiOf at h
  split at h
  · exact ⟨_, ‹_›⟩
  · exact absurd rfl h

/-- The line that a lookup finds is valid and has the tag. -/
theorem lineAt_of_lookup {s : State} {c : CoreId} {si k : Nat} {t : Tag} (h : s.lookup c si t = some k) :
    ∃ l, s.lineAt c si k = some l ∧ l.mesi ≠ .invalid ∧ l.tag = t ∧ s.mesiOf c si t = l.mesi := by
  obtain ⟨hk, h1, -⟩ := lookupIn_eq_some.mp h
  have hl : s.lineAt c si k = some ((s.setLines c si)[k]) := List.getElem?_eq_getElem hk
  obtain ⟨h2, h3⟩ := (Line.holds_iff _ _).mp h1
  exact ⟨_, hl, h2, h3, by simp [State.mesiOf, h, hl]⟩

/-- `mesiOf` is INVALID exactly where the lookup finds nothing. -/
theorem mesiOf_eq_invalid {s : State} {c : CoreId} {si : Nat} {t : Tag} :
    s.mesiOf c si t = .invalid ↔ s.lookup c si t = none := by
  constructor
  · intro h
    cases hl : s.lookup c si t with
    | none => rfl
    | some k =>
      obtain ⟨l, -, h2, -, h4⟩ := lineAt_of_lookup hl
      exact absurd (h4.symm.trans h) h2
  · intro h
    simp [State.mesiOf, h]

/-- Lookups, states of copies and victims depend on the lines of the set alone. -/
theorem lookup_congr {s t : State} {c : CoreId} {si : Nat} (h : t.setLines c si = s.setLines c si) (tg : Tag) :
    t.lookup c si tg = s.lookup c si tg := by simp [State.lookup, h]

theorem mesiOf_congr {s t : State} {c : CoreId} {si : Nat} (h : t.setLines c si = s.setLines c si) (tg : Tag) :
    t.mesiOf c si tg = s.mesiOf c si tg := by simp [State.mesiOf, State.lookup, State.lineAt, h]

theorem victim_congr {s t : State} {c : CoreId} {si : Nat} (h : t.setLines c si = s.setLines c si) :
    t.victim c si = s.victim c si := by simp [State.victim, h]

/-- A state write to one cache leaves the lines of the others alone. -/
theorem setLines_setHolderMesi_ne {s : State} {c c' : CoreId} {si si' : Nat} {t : Tag} {m : Mesi} (h : c' ≠ c) :
    (setHolderMesi c si t m s).setLines c' si' = s.setLines c' si' := by
  unfold State.setLines
  rw [setHolderMesi_cache_ne _ _ _ _ h]
  simp

/-- Every line after the state of one copy is written. -/
theorem lineAt_setHolderMesi {s : State} (h : ArraysShaped s) (c c' : CoreId) (si si' w : Nat) (t : Tag) (m : Mesi) :
    (setHolderMesi c si t m s).lineAt c' si' w =
      if c' = c ∧ si' = si ∧ s.lookup c si t = some w then (s.lineAt c' si' w).map fun l => { l with mesi := m }
      else s.lineAt c' si' w := by
  unfold setHolderMesi
  cases hk : s.lookup c si t with
  | none => simp
  | some k =>
    simp only [setMesi, lineAt_modifyLine h, Option.some.injEq, eq_comm (a := w)]

theorem ArraysShaped.setHolderMesi {s : State} (h : ArraysShaped s) (c : CoreId) {si : Nat} (t : Tag) (m : Mesi)
    (hsi : si < s.cfg.numSets) : ArraysShaped (setHolderMesi c si t m s) := by
  unfold Machine.setHolderMesi
  split
  · exact h.modifyLine c _ _ hsi
  · exact h

/-- Every line after the copies of one block in distinct caches get one state, and everything else as it was. -/
theorem seq_setHolderMesi {L : List CoreId} {si : Nat} {t : Tag} {m : Mesi} {s : State} (h : ArraysShaped s)
    (hsi : si < s.cfg.numSets) (hd : L.Nodup) (hs : s.faultCode = .fNone) :
    ∃ q : Quad Cache, seq (L.map fun c => setHolderMesi c si t m) s = { s with cache := q } ∧
      ArraysShaped { s with cache := q } ∧ (∀ c, (q.get c).lruCtr = (s.cache.get c).lruCtr) ∧
      (∀ c, c ∉ L → q.get c = s.cache.get c) ∧
      ∀ c si' w, ({ s with cache := q } : State).lineAt c si' w =
        if c ∈ L ∧ si' = si ∧ s.lookup c si t = some w then (s.lineAt c si' w).map fun l => { l with mesi := m }
        else s.lineAt c si' w := by
  induction L generalizing s with
  | nil => exact ⟨s.cache, rfl, h, fun _ => rfl, fun _ _ => rfl, fun _ _ _ => by simp⟩
  | cons c0 L ih =>
    simp only [List.nodup_cons] at hd
    obtain ⟨q, h1, h2, h3, h4, h5⟩ := ih (s := Machine.setHolderMesi c0 si t m s) (h.setHolderMesi c0 t m hsi)
      (by simpa using hsi) hd.2 (by simpa using hs)
    have hfield : ({ Machine.setHolderMesi c0 si t m s with cache := q } : State) = { s with cache := q } := by
      unfold Machine.setHolderMesi
      split <;> rfl
    rw [hfield] at h1 h2 h5
    refine ⟨q, ?_, h2, fun c => ?_, fun c hc => ?_, fun c si' w => ?_⟩
    · simp only [List.map_cons]
      rw [seq_cons hs, h1]
    · rw [h3 c, setHolderMesi_lruCtr]
    · simp only [List.mem_cons, not_or] at hc
      rw [h4 c hc.2, setHolderMesi_cache_ne _ _ _ _ hc.1]
    · rw [h5 c si' w, lineAt_setHolderMesi h]
      by_cases hc : c = c0
      · subst hc
        simp [hd.1]
      · rw [lookup_congr (setLines_setHolderMesi_ne hc)]
        simp [hc]

/-- Membership in `holders` (rule R119). -/
@[simp] theorem mem_holders {s : State} {c0 c : CoreId} {si : Nat} {t : Tag} :
    c ∈ s.holders c0 si t ↔ c ≠ c0 ∧ s.lookup c si t ≠ none := by
  simp [State.holders, allCores, Option.isSome_iff_ne_none]
  intro _ _
  fin_cases c <;> simp

theorem holders_nodup (s : State) (c0 : CoreId) (si : Nat) (t : Tag) : (s.holders c0 si t).Nodup := by
  unfold State.holders
  exact List.Nodup.filter _ (by decide)

/-- `holders` is in ascending order (rule R119). -/
theorem holders_ascending (s : State) (c0 : CoreId) (si : Nat) (t : Tag) :
    (s.holders c0 si t).Pairwise (· < ·) := by
  unfold State.holders
  exact List.Pairwise.filter _ (by decide)

/-- Membership in `sharers` (rule R119). -/
@[simp] theorem mem_sharers {s : State} {c0 c : CoreId} {si : Nat} {t : Tag} :
    c ∈ s.sharers c0 si t ↔ c ≠ c0 ∧ s.mesiOf c si t = .shared := by
  simp only [State.sharers, List.mem_filter, mem_holders, decide_eq_true_eq]
  constructor
  · exact fun h => ⟨h.1.1, h.2⟩
  · refine fun h => ⟨⟨h.1, fun hn => ?_⟩, h.2⟩
    rw [mesiOf_eq_invalid.mpr hn] at h
    exact absurd h.2 (by decide)

/-- The invalidation of every other copy of a block (rule R158). -/
theorem invalidateHolders_spec {c0 : CoreId} {si : Nat} {t : Tag} {s : State} (h : ArraysShaped s)
    (hsi : si < s.cfg.numSets) (hs : s.faultCode = .fNone) :
    ∃ q : Quad Cache, invalidateHolders c0 si t s = { s with cache := q } ∧ ArraysShaped { s with cache := q } ∧
      OtherCopiesInvalidated s { s with cache := q } c0 si t := by
  obtain ⟨q, h1, h2, h3, -, h5⟩ := seq_setHolderMesi (m := .invalid) h hsi (holders_nodup s c0 si t) hs
  refine ⟨q, h1, h2, h3, fun c si' w => ?_⟩
  rw [h5 c si' w]
  congr 1
  simp only [mem_holders, ne_eq, eq_iff_iff]
  constructor
  · exact fun ⟨⟨a, _⟩, b, c⟩ => ⟨a, b, c⟩
  · exact fun ⟨a, b, c⟩ => ⟨⟨a, by simp [c]⟩, b, c⟩

/-! ### Victim preparation -/

/-- The line in the victim slot, where it is valid, stands there. -/
theorem lineAt_victim {s : State} {c : CoreId} {si : Nat} (h : (s.victimLine c si).valid = true) :
    s.lineAt c si (s.victim c si) = some (s.victimLine c si) := by
  unfold State.victimLine at h ⊢
  cases hl : s.lineAt c si (s.victim c si) with
  | none => simp [hl, Line.valid, Line.reset] at h
  | some l => rfl

/-- EVICT_VICTIM where the counter has room (rule R148). -/
theorem evictVictim_of_room {c : CoreId} {si v : Nat} {s : State} (hs : s.faultCode = .fNone)
    (hr : HasRoom s (.stat c .cacheEvictions) 1) :
    evictVictim c si v s =
      (setMesi c si v .invalid s).setCounter (.stat c .cacheEvictions) ((s.stats.get c).cacheEvictions + 1) := by
  unfold evictVictim
  rw [seq_cons hs, seq_inc_of_room (by simpa using hs) (by simpa [HasRoom, State.counter] using hr)]
  rfl

/-- The first two lines of victim preparation where the counter has room: the victim is
dropped, the last other sharer promoted, and one eviction counted (rules R147, R148, R150). -/
theorem dropVictim_spec {c : CoreId} {si : Nat} {s : State} (h : ArraysShaped s) (hsi : si < s.cfg.numSets)
    (hs : s.faultCode = .fNone) (hr : HasRoom s (.stat c .cacheEvictions) 1) :
    ∃ q : Quad Cache,
      promoteLastSharer (s.sharers c si (s.victimLine c si).tag) si (s.victimLine c si).tag
          (evictVictim c si (s.victim c si) s) =
        { s with
          cache := q
          stats := s.stats.set c
            { s.stats.get c with cacheEvictions := (s.stats.get c).cacheEvictions + 1 } } ∧
      ArraysShaped { s with cache := q } ∧ VictimDropped s { s with cache := q } c si := by
  have h1 : ArraysShaped (setMesi c si (s.victim c si) .invalid s) := h.modifyLine c _ _ hsi
  rw [evictVictim_of_room hs hr]
  have hone : ∀ r, s.sharers c si (s.victimLine c si).tag = [r] → r ≠ c := by
    intro r hr
    have : r ∈ s.sharers c si (s.victimLine c si).tag := by rw [hr]; exact List.mem_singleton.mpr rfl
    exact (mem_sharers.mp this).1
  have hnone : ∀ q : Quad Cache, (∀ r, s.sharers c si (s.victimLine c si).tag ≠ [r]) →
      q = (setMesi c si (s.victim c si) .invalid s).cache →
      ArraysShaped { s with cache := q } ∧ VictimDropped s { s with cache := q } c si := by
    rintro q hsh rfl
    refine ⟨h1, fun c' => State.putSet_lruCtr _ _ _ _ _, fun c' si' w => ?_⟩
    have hl := lineAt_modifyLine h c c' si si' (s.victim c si) w (fun l => { l with mesi := .invalid })
    rw [show ({ s with cache := (setMesi c si (s.victim c si) .invalid s).cache } : State) =
      modifyLine c si (s.victim c si) (fun l => { l with mesi := .invalid }) s from rfl, hl]
    simp [hsh]
  rcases hsh : s.sharers c si (s.victimLine c si).tag with _ | ⟨r, _ | ⟨r2, rest⟩⟩
  · exact ⟨_, rfl, hnone _ (by simp [hsh]) rfl⟩
  · have hrc := hone r hsh
    have hlk : (setMesi c si (s.victim c si) .invalid s).lookup r si (s.victimLine c si).tag =
        s.lookup r si (s.victimLine c si).tag := by
      refine lookup_congr ?_ _
      simp [State.setLines, hrc]
    refine ⟨(setHolderMesi r si (s.victimLine c si).tag .exclusive
      (setMesi c si (s.victim c si) .invalid s)).cache, ?_, ?_, ?_, ?_⟩
    · simp only [promoteLastSharer]
      have hlk2 : ∀ v, ((setMesi c si (s.victim c si) .invalid s).setCounter (.stat c .cacheEvictions) v).lookup r si
          (s.victimLine c si).tag = s.lookup r si (s.victimLine c si).tag := by
        intro v
        rw [← hlk]
        exact lookup_congr (setLines_setCounter _ _ _ _ _) _
      unfold setHolderMesi
      rw [hlk, hlk2]
      cases s.lookup r si (s.victimLine c si).tag <;> rfl
    · exact (h1.setHolderMesi r _ _ hsi).congr (by simp) (fun _ => rfl)
    · intro c'
      show ((setHolderMesi _ _ _ _ _).cache.get c').lruCtr = _
      simp
    · intro c' si' w
      have hl := lineAt_setHolderMesi h1 r c' si si' w (s.victimLine c si).tag .exclusive
      have hl2 := lineAt_modifyLine h c c' si si' (s.victim c si) w (fun l => { l with mesi := .invalid })
      have e : ({ s with cache := (setHolderMesi r si (s.victimLine c si).tag .exclusive
          (setMesi c si (s.victim c si) .invalid s)).cache } : State).lineAt c' si' w =
          (setHolderMesi r si (s.victimLine c si).tag .exclusive
            (setMesi c si (s.victim c si) .invalid s)).lineAt c' si' w := by
        simp [State.lineAt, State.setLines]
      rw [e, hl, hlk]
      unfold setMesi
      rw [hl2, hsh]
      by_cases hc : c' = c
      · subst hc
        have : ¬ c' = r := fun e => hrc e.symm
        simp [this, hrc]
      · by_cases hcr : c' = r
        · subst hcr; simp [hc]
        · have hrc' : ¬ r = c' := fun e => hcr e.symm
          simp [hc, hcr, hrc']
  · exact ⟨_, rfl, hnone _ (by simp [hsh]) rfl⟩

end Sys2Proof.Machine
end

