-- ==== Sys2Proof/Laws/Exec.lean ====
section
/-! SUPPORT. The induction over a command, once: every meaning is made of increments, line writes in a set of the
cache, bus writes, the program counter's advance, the BusRdX adjustment and faults. -/

namespace Sys2Proof.Machine

/-- What each kind of write that the rules make keeps true. -/
structure Kept (P : State → Prop) : Prop where
  inc : ∀ x k s, x ≠ .globalCycle → P s → P (inc x k s)
  line : ∀ c si w f s, si < s.cfg.numSets → P s → P (modifyLine c si w f s)
  bus : ∀ b s, P s → P { s with bus := b }
  pc : ∀ c s, P s → P (advancePc c s)
  dec : ∀ c s, P s → P (s.setCounter (.stat c .totalCycles) (s.counter (.stat c .totalCycles) - 1))
  raise : ∀ code s, P s → P (raise code s)

variable {P : State → Prop}

/-- Strengthens a kept property by the configuration, which no write touches. -/
theorem Kept.withCfg (h : Kept P) (cfg : Config) : Kept (fun s => P s ∧ s.cfg = cfg) where
  inc x k s hx hs := ⟨h.inc x k s hx hs.1, by simpa using hs.2⟩
  line c si w f s hsi hs := ⟨h.line c si w f s hsi hs.1, by simpa using hs.2⟩
  bus b s hs := ⟨h.bus b s hs.1, hs.2⟩
  pc c s hs := ⟨h.pc c s hs.1, by simpa using hs.2⟩
  dec c s hs := ⟨h.dec c s hs.1, by simpa using hs.2⟩
  raise code s hs := ⟨h.raise code s hs.1, by simpa using hs.2⟩

theorem Kept.setMesi (h : Kept P) {c : CoreId} {si w : Nat} {m : Mesi} {s : State} (hsi : si < s.cfg.numSets)
    (hs : P s) : P (setMesi c si w m s) := h.line c si w _ s hsi hs

theorem Kept.setHolderMesi (h : Kept P) {c : CoreId} {si : Nat} {t : Tag} {m : Mesi} {s : State}
    (hsi : si < s.cfg.numSets) (hs : P s) : P (setHolderMesi c si t m s) := by
  unfold Machine.setHolderMesi
  split
  · exact h.setMesi hsi hs
  · exact hs

theorem Kept.touch (h : Kept P) {c : CoreId} {si w : Nat} {s : State} (hsi : si < s.cfg.numSets) (hs : P s) :
    P (touch c si w s) := by
  have h' := h.withCfg s.cfg
  refine (seq_induct (fun u => P u ∧ u.cfg = s.cfg) (fun f hf u _ hu => ?_) ⟨hs, rfl⟩).1
  simp only [List.mem_cons, List.not_mem_nil, or_false] at hf
  rcases hf with rfl | rfl
  · exact h'.inc _ _ _ (by simp) hu
  · exact h'.line _ _ _ _ _ (by rw [hu.2]; exact hsi) hu

theorem Kept.install (h : Kept P) {c : CoreId} {si : Nat} {t : Tag} {m : Mesi} {s : State}
    (hsi : si < s.cfg.numSets) (hs : P s) : P (install c si t m s) := by
  have h' := h.withCfg s.cfg
  refine (seq_induct (fun u => P u ∧ u.cfg = s.cfg) (fun f hf u _ hu => ?_) ⟨hs, rfl⟩).1
  have hu' : si < u.cfg.numSets := by rw [hu.2]; exact hsi
  simp only [List.mem_cons, List.not_mem_nil, or_false] at hf
  rcases hf with rfl | rfl | rfl
  · exact h'.line _ _ _ _ _ hu' hu
  · exact h'.setMesi hu' hu
  · exact h'.touch hu' hu

theorem Kept.completeAccess (h : Kept P) {c : CoreId} {si k : Nat} {kind : StatName} {s : State}
    (hsi : si < s.cfg.numSets) (hs : P s) : P (completeAccess c si k kind s) := by
  have h' := h.withCfg s.cfg
  refine (seq_induct (fun u => P u ∧ u.cfg = s.cfg) (fun f hf u _ hu => ?_) ⟨hs, rfl⟩).1
  have hu' : si < u.cfg.numSets := by rw [hu.2]; exact hsi
  simp only [List.mem_cons, List.not_mem_nil, or_false] at hf
  rcases hf with rfl | rfl | rfl | rfl | rfl
  · exact h'.touch hu' hu
  · exact h'.inc _ _ _ (by simp) hu
  · exact h'.inc _ _ _ (by simp) hu
  · exact h'.inc _ _ _ (by simp) hu
  · exact h'.pc _ _ hu

theorem Kept.chainEvictFlush (h : Kept P) {c : CoreId} {req : ReqType} {s : State} (hs : P s) :
    P (chainEvictFlush c req s) := by
  refine seq_induct P (fun f hf u _ hu => ?_) hs
  simp only [List.mem_cons, List.not_mem_nil, or_false] at hf
  rcases hf with rfl | rfl | rfl | rfl | rfl
  · exact h.bus _ _ hu
  all_goals exact h.inc _ _ _ (by simp) hu

theorem Kept.chainIntervFlush (h : Kept P) {c o : CoreId} {req : ReqType} {s : State} (hs : P s) :
    P (chainIntervFlush c o req s) := by
  refine seq_induct P (fun f hf u _ hu => ?_) hs
  simp only [List.mem_cons, List.not_mem_nil, or_false] at hf
  rcases hf with rfl | rfl | rfl | rfl | rfl
  · exact h.bus _ _ hu
  all_goals exact h.inc _ _ _ (by simp) hu

theorem Kept.victimPrep (h : Kept P) {c : CoreId} {si : Nat} {req : ReqType} {s : State} (hsi : si < s.cfg.numSets)
    (hs : P s) : P (victimPrep c si req s) := by
  have h' := h.withCfg s.cfg
  unfold Machine.victimPrep
  simp only
  split
  · refine (seq_induct (fun u => P u ∧ u.cfg = s.cfg) (fun f hf u hun hu => ?_) ⟨hs, rfl⟩).1
    have hu' : si < u.cfg.numSets := by rw [hu.2]; exact hsi
    simp only [List.mem_cons, List.not_mem_nil, or_false] at hf
    rcases hf with rfl | rfl | rfl
    · refine seq_induct (fun u => P u ∧ u.cfg = s.cfg) (fun f hf v _ hv => ?_) hu
      have hv' : si < v.cfg.numSets := by rw [hv.2]; exact hsi
      simp only [List.mem_cons, List.not_mem_nil, or_false] at hf
      rcases hf with rfl | rfl
      · exact h'.setMesi hv' hv
      · exact h'.inc _ _ _ (by simp) hv
    · unfold promoteLastSharer
      split
      · exact h'.setHolderMesi hu' hu
      · exact hu
    · simp only
      split
      · exact h'.chainEvictFlush hu
      · exact hu
  · exact hs

/-- A rule that writes one copy after the other keeps what each write keeps. -/
theorem Kept.holderWrites {L : List CoreId} {g : CoreId → State → State} {s : State} (hs : P s)
    (hg : ∀ c u, u.cfg = s.cfg → P u → P (g c u) ∧ (g c u).cfg = s.cfg) : P (seq (L.map g) s) := by
  refine (seq_induct (fun u => P u ∧ u.cfg = s.cfg) (fun f hf u _ hu => ?_) ⟨hs, rfl⟩).1
  obtain ⟨c, -, rfl⟩ := List.mem_map.mp hf
  exact hg c u hu.2 hu.1

theorem Kept.busRdStart (h : Kept P) {c : CoreId} {si : Nat} {t : Tag} {s : State} (hsi : si < s.cfg.numSets)
    (hs : P s) : P (busRdStart c si t s) := by
  have h' := h.withCfg s.cfg
  unfold Machine.busRdStart
  split
  · exact h.bus _ _ hs
  · refine (seq_induct (fun u => P u ∧ u.cfg = s.cfg) (fun f hf u _ hu => ?_) ⟨hs, rfl⟩).1
    have hu' : si < u.cfg.numSets := by rw [hu.2]; exact hsi
    simp only [List.mem_cons, List.not_mem_nil, or_false] at hf
    rcases hf with rfl | rfl | rfl
    · exact h'.bus _ _ hu
    · exact h'.setHolderMesi hu' hu
    · exact h'.bus _ _ hu

theorem Kept.invalidateHolders (h : Kept P) {c : CoreId} {si : Nat} {t : Tag} {s : State}
    (hsi : si < s.cfg.numSets) (hs : P s) : P (invalidateHolders c si t s) :=
  Kept.holderWrites hs fun c' u hu hPu =>
    ⟨h.setHolderMesi (by rw [hu]; exact hsi) hPu, by simpa using hu⟩

theorem Kept.busRdXStart (h : Kept P) {c : CoreId} {si : Nat} {t : Tag} {s : State} (hsi : si < s.cfg.numSets)
    (hs : P s) : P (busRdXStart c si t s) := by
  have h' := h.withCfg s.cfg
  have hadj : ∀ u, P u → P (adjustRequester c u) := by
    intro u hu
    unfold adjustRequester
    split
    · exact h.raise _ _ hu
    · refine seq_induct P (fun f hf v _ hv => ?_) hu
      simp only [List.mem_cons, List.not_mem_nil, or_false] at hf
      rcases hf with rfl | rfl
      · exact h.dec _ _ hv
      · exact h.inc _ _ _ (by simp) hv
  unfold Machine.busRdXStart
  split
  · refine (seq_induct (fun u => P u ∧ si < u.cfg.numSets) (fun f hf u _ hu => ?_) ⟨hs, hsi⟩).1
    simp only [List.mem_cons, List.not_mem_nil, or_false] at hf
    rcases hf with rfl | rfl
    · exact (Kept.invalidateHolders (P := fun v => P v ∧ v.cfg = u.cfg) (h.withCfg u.cfg) hu.2 ⟨hu.1, rfl⟩).imp_right
        fun e => by rw [e]; exact hu.2
    · exact ⟨h.bus _ _ hu.1, hu.2⟩
  · refine (seq_induct (fun u => P u ∧ si < u.cfg.numSets) (fun f hf u _ hu => ?_) ⟨hs, hsi⟩).1
    simp only [List.mem_cons, List.not_mem_nil, or_false] at hf
    rcases hf with rfl | rfl | rfl
    · exact (Kept.invalidateHolders (P := fun v => P v ∧ v.cfg = u.cfg) (h.withCfg u.cfg) hu.2 ⟨hu.1, rfl⟩).imp_right
        fun e => by rw [e]; exact hu.2
    · exact (Kept.chainIntervFlush (P := fun v => P v ∧ v.cfg = u.cfg) (h.withCfg u.cfg) ⟨hu.1, rfl⟩).imp_right
        fun e => by rw [e]; exact hu.2
    · refine ⟨hadj _ hu.1, ?_⟩
      have : (adjustRequester c u).cfg = u.cfg := by
        unfold adjustRequester
        split
        · simp
        · refine seq_keeps State.cfg (fun f hf v => ?_) u
          simp only [List.mem_cons, List.not_mem_nil, or_false] at hf
          rcases hf with rfl | rfl <;> simp
      rw [this]
      exact hu.2

theorem Kept.fill (h : Kept P) {c : CoreId} {si : Nat} {t : Tag} {m : Mesi} {s : State} (hsi : si < s.cfg.numSets)
    (hs : P s) : P (seq [Machine.install c si t m, releaseBus] s) := by
  have h' := h.withCfg s.cfg
  refine (seq_induct (fun u => P u ∧ u.cfg = s.cfg) (fun f hf u _ hu => ?_) ⟨hs, rfl⟩).1
  have hu' : si < u.cfg.numSets := by rw [hu.2]; exact hsi
  simp only [List.mem_cons, List.not_mem_nil, or_false] at hf
  rcases hf with rfl | rfl
  · exact h'.install hu' hu
  · exact h'.bus _ _ hu

theorem Kept.busRdDoneC2C (h : Kept P) {c r : CoreId} {si : Nat} {t : Tag} {s : State} (hsi : si < s.cfg.numSets)
    (hs : P s) : P (busRdDoneC2C c r si t s) := by
  have h' := h.withCfg s.cfg
  refine (seq_induct (fun u => P u ∧ u.cfg = s.cfg) (fun f hf u _ hu => ?_) ⟨hs, rfl⟩).1
  have hu' : si < u.cfg.numSets := by rw [hu.2]; exact hsi
  simp only [List.mem_cons, List.not_mem_nil, or_false] at hf
  rcases hf with rfl | rfl | rfl
  · exact h'.install hu' hu
  · exact h'.inc _ _ _ (by simp) hu
  · simp only
    split
    · exact h'.chainIntervFlush hu
    · exact h'.bus _ _ hu

theorem Kept.observeBusRd (h : Kept P) {c : CoreId} {a : Addr} {s : State} (hs : P s) : P (observeBusRd c a s) := by
  have hsi := setOf_lt s.cfg a
  unfold Machine.observeBusRd
  simp only
  split
  · exact hs
  · split
    · split
      · exact h.victimPrep hsi hs
      · have h' := h.withCfg s.cfg
        refine (seq_induct (fun u => P u ∧ u.cfg = s.cfg) (fun f hf u _ hu => ?_) ⟨hs, rfl⟩).1
        have hu' : setOf s.cfg a < u.cfg.numSets := by rw [hu.2]; exact hsi
        simp only [List.mem_cons, List.not_mem_nil, or_false] at hf
        rcases hf with rfl | rfl
        · exact h'.victimPrep hu' hu
        · exact h'.busRdStart hu' hu
    · split
      · split
        · exact h.fill hsi hs
        · exact h.busRdDoneC2C hsi hs
      · exact hs

theorem Kept.observeBusRdX (h : Kept P) {c : CoreId} {a : Addr} {s : State} (hs : P s) : P (observeBusRdX c a s) := by
  have hsi := setOf_lt s.cfg a
  unfold Machine.observeBusRdX
  simp only
  split
  · exact hs
  · split
    · split
      · exact h.victimPrep hsi hs
      · have h' := h.withCfg s.cfg
        refine (seq_induct (fun u => P u ∧ u.cfg = s.cfg) (fun f hf u _ hu => ?_) ⟨hs, rfl⟩).1
        have hu' : setOf s.cfg a < u.cfg.numSets := by rw [hu.2]; exact hsi
        simp only [List.mem_cons, List.not_mem_nil, or_false] at hf
        rcases hf with rfl | rfl
        · exact h'.victimPrep hu' hu
        · exact h'.busRdXStart hu' hu
    · split
      · exact h.fill hsi hs
      · exact hs

theorem Kept.intervDone (h : Kept P) {s : State} (hs : P s) : P (intervDone s) := by
  unfold Machine.intervDone
  split <;> exact h.bus _ _ hs

theorem Kept.busUpgr (h : Kept P) {c : CoreId} {a : Addr} {k : Nat} {s : State} (hs : P s) : P (busUpgr c a k s) := by
  have hsi := setOf_lt s.cfg a
  have h' := h.withCfg s.cfg
  refine (seq_induct (fun u => P u ∧ u.cfg = s.cfg) (fun f hf u _ hu => ?_) ⟨hs, rfl⟩).1
  have hu' : setOf s.cfg a < u.cfg.numSets := by rw [hu.2]; exact hsi
  simp only [List.mem_cons, List.not_mem_nil, or_false] at hf
  rcases hf with rfl | rfl | rfl | rfl | rfl | rfl
  · exact h'.bus _ _ hu
  · refine (Kept.holderWrites (P := fun u => P u ∧ u.cfg = s.cfg) hu fun c' v hv hPv => ⟨?_, ?_⟩)
    · unfold snoopUpgrAt
      split
      · exact h'.setHolderMesi (by rw [hPv.2]; exact hsi) hPv
      · exact h'.raise _ _ hPv
    · unfold snoopUpgrAt
      split <;> simpa using hv
  · exact h'.inc _ _ _ (by simp) hu
  · exact h'.inc _ _ _ (by simp) hu
  · exact h'.setMesi hu' hu
  · exact h'.completeAccess hu' hu

theorem Kept.access (h : Kept P) {c : CoreId} {a : Addr} {w : Bool} {s : State} (hs : P s) : P (access c a w s) := by
  have hsi := setOf_lt s.cfg a
  unfold Machine.access
  split
  · exact h.completeAccess hsi hs
  · have h' := h.withCfg s.cfg
    refine (seq_induct (fun u => P u ∧ u.cfg = s.cfg) (fun f hf u _ hu => ?_) ⟨hs, rfl⟩).1
    have hu' : setOf s.cfg a < u.cfg.numSets := by rw [hu.2]; exact hsi
    simp only [List.mem_cons, List.not_mem_nil, or_false] at hf
    rcases hf with rfl | rfl
    · exact h'.setMesi hu' hu
    · exact h'.completeAccess hu' hu
  · exact h.busUpgr hs
  · refine seq_induct P (fun f hf u _ hu => ?_) hs
    simp only [List.mem_cons, List.not_mem_nil, or_false] at hf
    rcases hf with rfl | rfl | rfl | rfl | rfl | rfl | rfl
    · exact h.bus _ _ hu
    · exact h.inc _ _ _ (by simp) hu
    · exact h.inc _ _ _ (by simp) hu
    · exact h.inc _ _ _ (by simp) hu
    · exact h.inc _ _ _ (by simp) hu
    · exact h.inc _ _ _ (by simp) hu
    · show P (if _ then _ else _)
      split
      · exact h.inc _ _ _ (by simp) hu
      · exact hu
  · unfold stall
    split <;> exact h.inc _ _ _ (by simp) hs

/-- What every write of the rules keeps true, every command keeps true. -/
theorem Kept.exec (h : Kept P) {i : Instr} {s t : State} (hs : P s) (ht : exec i s = .next t) : P t := by
  have hone : ∀ {f : State → State}, (∀ u, P u → P (f u)) → P (seq [f] s) := fun hf =>
    seq_induct P (fun g hg u _ hu => by
      rw [List.mem_singleton.mp hg]
      exact hf u hu) hs
  cases i with
  | prRd a => cases ht; exact hone fun u hu => h.access hu
  | prWr a => cases ht; exact hone fun u hu => h.access hu
  | busRd c a => cases ht; exact hone fun u hu => h.observeBusRd hu
  | busRdX c a => cases ht; exact hone fun u hu => h.observeBusRdX hu
  | busUpgr c a =>
    simp only [Machine.exec, execBusUpgr] at ht
    split at ht
    · cases ht; exact hs
    · split at ht
      · split at ht
        · split at ht
          · cases ht; exact h.busUpgr hs
          · cases ht
        · cases ht
      · cases ht; exact h.raise _ _ hs
  | flushEvict c a =>
    cases ht
    refine hone fun u hu => ?_
    unfold observeFlushEvict
    split
    · exact hu
    · split
      · exact h.bus _ _ hu
      · split
        · exact h.bus _ _ hu
        · exact hu
  | flushInterv c a =>
    cases ht
    refine hone fun u hu => ?_
    unfold observeFlushInterv
    split
    · exact hu
    · split
      · exact h.bus _ _ hu
      · split
        · exact h.intervDone hu
        · exact hu

end Sys2Proof.Machine
end

