-- ==== Sys2Proof/Laws/PerInstr.lean ====
section
/-! SUPPORT. The family of statements about every command, one lemma per constructor of `Instr`. -/

namespace Sys2Proof.Laws.OpcodeRow

/-- The fixed bits of a command's row in the opcode table: its mask. -/
def mask (i : Instr) : Nat :=
  match i with
  | .prRd _ => 0x100000000
  | .prWr _ => 0x100000000
  | .busRd _ _ => 0x1C00000000
  | .busRdX _ _ => 0x1C00000000
  | .busUpgr _ _ => 0x1C00000000
  | .flushEvict _ _ => 0x1C00000000
  | .flushInterv _ _ => 0x1C00000000

/-- The values of those bits: the row's match. -/
def pattern (i : Instr) : Nat :=
  match i with
  | .prRd _ => 0x000000000
  | .prWr _ => 0x100000000
  | .busRd _ _ => 0x0000000000
  | .busRdX _ _ => 0x0400000000
  | .busUpgr _ _ => 0x0800000000
  | .flushEvict _ _ => 0x1C00000000
  | .flushInterv _ _ => 0x0C00000000

/-- The bits of a word under a mask. -/
def masked (cw : CommandWord) (m : Nat) : CommandWord :=
  match cw with
  | .req w => .req (w &&& BitVec.ofNat 33 m)
  | .bus w => .bus (w &&& BitVec.ofNat 37 m)

/-- A word of the format of a command's row, with a given number in it. -/
def rowWord (i : Instr) (n : Nat) : CommandWord :=
  match i with
  | .prRd _ => .req (BitVec.ofNat 33 n)
  | .prWr _ => .req (BitVec.ofNat 33 n)
  | .busRd _ _ => .bus (BitVec.ofNat 37 n)
  | .busRdX _ _ => .bus (BitVec.ofNat 37 n)
  | .busUpgr _ _ => .bus (BitVec.ofNat 37 n)
  | .flushEvict _ _ => .bus (BitVec.ofNat 37 n)
  | .flushInterv _ _ => .bus (BitVec.ofNat 37 n)

/-- The word of a well-formed command has the format and the fixed bits of its row of the opcode table
(rules R89, R90, R92–R96). -/
def Statement (i : Instr) : Prop := i.wf = true → masked (encode i) (mask i) = rowWord i (pattern i)

/-- Masking the write bit of a request word leaves the write bit. -/
theorem packReq_masked (w : Bool) (a : Addr) :
    packReq w a &&& BitVec.ofNat 33 0x100000000 = BitVec.ofBool w ++ 0#32 := by
  have h : BitVec.ofNat 33 0x100000000 = 1#1 ++ 0#32 := by decide
  have e : BitVec.ofBool w &&& 1#1 = BitVec.ofBool w := by cases w <;> decide
  rw [h, packReq]
  exact (BitVec.and_append).trans (by rw [e, BitVec.and_zero])

/-- Masking `X` and `T` of a bus word leaves these two fields. -/
theorem packBus_masked (f : BusFields) :
    packBus f &&& BitVec.ofNat 37 0x1C00000000 = BitVec.ofBool f.x ++ f.t.code ++ 0#2 ++ 0#32 := by
  obtain ⟨x, t, c, a⟩ := f
  have h : BitVec.ofNat 37 0x1C00000000 = (0b11100#5 : BitVec (1 + 2 + 2)) ++ 0#32 := by decide
  have e : (BitVec.ofBool x ++ t.code ++ (BitVec.ofFin c : BitVec 2)) &&& (0b11100#5 : BitVec (1 + 2 + 2)) =
      BitVec.ofBool x ++ t.code ++ 0#2 := by
    revert c; cases x <;> cases t <;> decide
  rw [h, packBus]
  exact (BitVec.and_append).trans (by rw [e, BitVec.and_zero])

theorem prRd (a : Addr) : Statement (.prRd a) := fun _ =>
  congrArg CommandWord.req ((packReq_masked false a).trans (by simp only [pattern]; decide))

theorem prWr (a : Addr) : Statement (.prWr a) := fun _ =>
  congrArg CommandWord.req ((packReq_masked true a).trans (by simp only [pattern]; decide))

theorem busRd (c : CoreId) (a : Addr) : Statement (.busRd c a) := fun _ =>
  congrArg CommandWord.bus ((packBus_masked ⟨false, .busRd, c, a⟩).trans (by simp only [pattern]; decide))

theorem busRdX (c : CoreId) (a : Addr) : Statement (.busRdX c a) := fun _ =>
  congrArg CommandWord.bus ((packBus_masked ⟨false, .busRdX, c, a⟩).trans (by simp only [pattern]; decide))

theorem busUpgr (c : CoreId) (a : Addr) : Statement (.busUpgr c a) := fun _ =>
  congrArg CommandWord.bus ((packBus_masked ⟨false, .busUpgr, c, a⟩).trans (by simp only [pattern]; decide))

theorem flushEvict (c : CoreId) (a : Addr) : Statement (.flushEvict c a) := fun _ =>
  congrArg CommandWord.bus ((packBus_masked ⟨true, .flush, c, a⟩).trans (by simp only [pattern]; decide))

theorem flushInterv (c : CoreId) (a : Addr) : Statement (.flushInterv c a) := fun _ =>
  congrArg CommandWord.bus ((packBus_masked ⟨false, .flush, c, a⟩).trans (by simp only [pattern]; decide))

end Sys2Proof.Laws.OpcodeRow
end

