-- ==== Sys2Proof/Laws/Tick.lean ====
section
/-! SUPPORT. The inductions over a tick, once: what every command, turn and closing stage keeps true, the step keeps
true; and the end-of-tick check of a shaped state looks at every set. -/

namespace Sys2Proof.Machine

/-! ### The snoop -/

/-- One iteration of the snoop loop on a busy bus that names a command. -/
theorem snoopLoop_succ {n : Nat} {s : State} {i : Instr} (hs : s.faultCode = .fNone) (hav : s.bus.available = false)
    (hi : s.bus.command = some i) :
    snoopLoop (n + 1) s =
      match exec i s with
      | .next t => if t.faultCode = .fNone then (if t.bus.done then snoopLoop n t else .next t) else .next t
      | .fault r => .fault r
      | .refused r => .refused r := by
  simp only [snoopLoop, hav, hi, Bool.false_eq_true, if_false, stages]
  simp only [State.faulted_iff, hs, ne_eq, not_true_eq_false, if_false]
  cases exec i s with
  | next t =>
    by_cases ht : t.faultCode = .fNone
    · simp only [ht, not_true_eq_false, if_false, if_true]
      by_cases hd : t.bus.done = true
      · simp only [hd, if_true]
        cases snoopLoop n t <;> rfl
      · simp only [hd, Bool.false_eq_true, if_false]
    · simp [ht]
  | fault r => rfl
  | refused r => rfl

/-- An available bus ends the snoop loop. -/
theorem snoopLoop_available {n : Nat} {s : State} (hav : s.bus.available = true) : snoopLoop n s = .next s := by
  cases n <;> simp [snoopLoop, hav]

/-- What every bus command that a snoop runs keeps true, the snoop keeps true. -/
theorem snoopLoop_induct (P : State → Prop)
    (hcmd : ∀ i s s', s.faultCode = .fNone → s.bus.available = false → s.bus.command = some i → P s →
      exec i s = .next s' → P s')
    {n : Nat} {s t : State} (hs : P s) (ht : snoopLoop n s = .next t) : P t := by
  induction n generalizing s with
  | zero => cases ht; exact hs
  | succ n ih =>
    by_cases hf : s.faultCode = .fNone
    · cases hav : s.bus.available with
      | true => rw [snoopLoop_available hav] at ht; cases ht; exact hs
      | false =>
        cases hi : s.bus.command with
        | none => simp [snoopLoop, hav, hi] at ht
        | some i =>
          rw [snoopLoop_succ hf hav hi] at ht
          cases he : exec i s with
          | next s1 =>
            have h1 := hcmd i s s1 hf hav hi hs he
            rw [he] at ht
            simp only at ht
            split at ht
            · split at ht
              · exact ih h1 ht
              · cases ht; exact h1
            · cases ht; exact h1
          | fault r => rw [he] at ht; cases ht
          | refused r => rw [he] at ht; cases ht
    · cases hav : s.bus.available with
      | true => rw [snoopLoop_available hav] at ht; cases ht; exact hs
      | false =>
        cases hi : s.bus.command with
        | none => simp [snoopLoop, hav, hi] at ht
        | some i =>
          simp only [snoopLoop, hav, hi, Bool.false_eq_true, if_false, stages_of_faulted hf] at ht
          cases ht; exact hs

/-! ### The tick and the step -/

/-- What the snooped commands, the core turns and the closing stages keep true, a tick keeps true. -/
theorem tick_induct (P : State → Prop)
    (hcmd : ∀ i s s', s.faultCode = .fNone → s.bus.available = false → s.bus.command = some i → P s →
      exec i s = .next s' → P s')
    (hturn : ∀ c s s', s.faultCode = .fNone → P s → coreTurn c s = .next s' → P s')
    (hend : ∀ s, s.faultCode = .fNone → P s → P (endCorePass s))
    (hcount : ∀ s, s.faultCode = .fNone → P s → P (countdown s))
    (hcycle : ∀ s, s.faultCode = .fNone → P s → P (inc .globalCycle 1 s))
    (hcheck : ∀ s, s.faultCode = .fNone → P s → P (checkInvariants s))
    {s t : State} (hs : P s) (ht : tick s = .next t) : P t := by
  refine stages_induct P (fun f hf u v hu hPu huv => ?_) hs ht
  simp only [List.mem_cons, List.not_mem_nil, or_false] at hf
  rcases hf with rfl | rfl | rfl | rfl | rfl | rfl | rfl | rfl | rfl | rfl
  · exact snoopLoop_induct P hcmd hPu huv
  · exact hturn _ u v hu hPu huv
  · exact hturn _ u v hu hPu huv
  · exact hturn _ u v hu hPu huv
  · exact hturn _ u v hu hPu huv
  · cases huv; exact hend u hu hPu
  · exact snoopLoop_induct P hcmd hPu huv
  · cases huv; exact hcount u hu hPu
  · cases huv; exact hcycle u hu hPu
  · cases huv; exact hcheck u hu hPu

/-- What a step answers, where it answers a next state: the state itself once the block has stopped, and otherwise
the tick's. -/
theorem step_eq_next {s t : State} (h : step s = .next t) :
    s.cfg.legal = true ∧ ((s.ticking = false ∧ t = s) ∨ (s.ticking = true ∧ tick s = .next t)) := by
  simp only [step, advance] at h
  split at h
  · rename_i hl
    split at h
    · rename_i ht
      exact ⟨hl, .inr ⟨ht, h⟩⟩
    · rename_i ht
      cases h
      exact ⟨hl, .inl ⟨by simpa using ht, rfl⟩⟩
  · cases h

/-- A tick is taken exactly where no fault is raised and a core is active (rule R180). -/
theorem ticking_iff {s : State} : s.ticking = true ↔ s.faultCode = .fNone ∧ s.activeCores ≠ 0 := by
  simp [State.ticking, State.ended]

/-- What every stage of a tick keeps true, a step keeps true. -/
theorem step_induct (P : State → Prop)
    (hcmd : ∀ i s s', s.faultCode = .fNone → s.bus.available = false → s.bus.command = some i → P s →
      exec i s = .next s' → P s')
    (hturn : ∀ c s s', s.faultCode = .fNone → P s → coreTurn c s = .next s' → P s')
    (hend : ∀ s, s.faultCode = .fNone → P s → P (endCorePass s))
    (hcount : ∀ s, s.faultCode = .fNone → P s → P (countdown s))
    (hcycle : ∀ s, s.faultCode = .fNone → P s → P (inc .globalCycle 1 s))
    (hcheck : ∀ s, s.faultCode = .fNone → P s → P (checkInvariants s))
    {s t : State} (hs : P s) (ht : step s = .next t) : P t := by
  rcases (step_eq_next ht).2 with ⟨-, rfl⟩ | ⟨-, h⟩
  · exact hs
  · exact tick_induct P hcmd hturn hend hcount hcycle hcheck hs h

/-- The three things a core turn can be (rule R181). -/
theorem coreTurn_cases {c : CoreId} {s s' : State} (h : coreTurn c s = .next s') :
    (s.coreDone.get c = true ∧ s' = s) ∨
      (s.coreDone.get c = false ∧ (s.traces.get c).length ≤ s.pc.get c ∧ s' = retire c s) ∨
      ∃ a, s.coreDone.get c = false ∧ s.pc.get c < (s.traces.get c).length ∧
        (exec (.prRd a) { s with turn := c } = .next s' ∨ exec (.prWr a) { s with turn := c } = .next s') := by
  unfold coreTurn at h
  split at h
  · rename_i hd
    cases h
    exact .inl ⟨hd, rfl⟩
  · rename_i hd
    have hd' : s.coreDone.get c = false := by simpa using hd
    split at h
    · rename_i hf
      cases h
      exact .inr (.inl ⟨hd', by simpa [State.fetch] using hf, rfl⟩)
    · rename_i w hf
      refine .inr (.inr ⟨w.extractLsb' 0 32, hd', ?_, ?_⟩)
      · obtain ⟨hlt, -⟩ := List.getElem?_eq_some_iff.mp hf
        exact hlt
      · unfold decodeReq at h
        split at h
        · exact .inr h
        · exact .inl h

/-! ### The end-of-tick check -/

theorem mem_insertIndex {x y : Nat} {l : List Nat} : y ∈ insertIndex x l ↔ y = x ∨ y ∈ l := by
  induction l with
  | nil => simp [insertIndex]
  | cons z zs ih =>
    simp only [insertIndex]
    split
    · simp
    · split
      · rename_i h; subst h; simp
      · simp only [List.mem_cons, ih]
        tauto

theorem insertIndex_rising {x : Nat} {l : List Nat} (h : l.Pairwise (· < ·)) :
    (insertIndex x l).Pairwise (· < ·) := by
  induction l with
  | nil => simp [insertIndex]
  | cons z zs ih =>
    have hz := List.pairwise_cons.mp h
    simp only [insertIndex]
    split
    · rename_i hlt
      exact List.pairwise_cons.mpr ⟨fun y hy => by
        rcases List.mem_cons.mp hy with rfl | hy
        · exact hlt
        · exact lt_trans hlt (hz.1 y hy), h⟩
    · split
      · exact h
      · rename_i h1 h2
        refine List.pairwise_cons.mpr ⟨fun y hy => ?_, ih hz.2⟩
        rcases mem_insertIndex.mp hy with rfl | hy
        · omega
        · exact hz.1 y hy

/-- The listed sets are those of some cache's list. -/
theorem mem_listedSets {s : State} {si : Nat} :
    si ∈ s.listedSets ↔ ∃ c, ∃ p ∈ (s.cache.get c).sets, p.1 = si := by
  have h : ∀ l : List Nat, si ∈ l.foldr insertIndex [] ↔ si ∈ l := by
    intro l
    induction l with
    | nil => simp
    | cons x l ih => simp [mem_insertIndex, ih]
  unfold State.listedSets
  rw [h]
  simp only [List.mem_flatMap, List.mem_map]
  constructor
  · exact fun ⟨c, _, p, hp, e⟩ => ⟨c, p, hp, e⟩
  · exact fun ⟨c, p, hp, e⟩ => ⟨c, by fin_cases c <;> simp [allCores], p, hp, e⟩

/-- The check visits the sets in ascending order (rule R200). -/
theorem listedSets_rising (s : State) : s.listedSets.Pairwise (· < ·) := by
  unfold State.listedSets
  generalize (allCores.flatMap fun c => (s.cache.get c).sets.map fun p => p.1) = l
  induction l with
  | nil => simp
  | cons x l ih => exact insertIndex_rising ih

/-- A set that no cache lists is the reset set in every cache. -/
theorem setLines_of_unlisted {s : State} {si : Nat} (h : si ∉ s.listedSets) (c : CoreId) :
    s.setLines c si = resetSet s.cfg.E := by
  have hn : ∀ p ∈ (s.cache.get c).sets, p.1 ≠ si := fun p hp e => h (mem_listedSets.mpr ⟨c, p, hp, e⟩)
  unfold State.setLines
  generalize (s.cache.get c).sets = l at hn
  induction l with
  | nil => rfl
  | cons p l ih =>
    obtain ⟨k, M⟩ := p
    have hk : si ≠ k := fun e => hn (k, M) (List.mem_cons_self ..) e.symm
    simp only [readSet, if_neg hk]
    split
    · rfl
    · exact ih fun q hq => hn q (List.mem_cons_of_mem _ hq)

theorem filter_resetSet (E : Nat) (p : Line → Bool) (h : p Line.reset = false) : (resetSet E).filter p = [] := by
  rw [List.filter_eq_nil_iff]
  intro l hl
  rw [resetSet, List.mem_replicate] at hl
  rw [hl.2, h]
  simp

/-- A set that no cache lists breaks no invariant. -/
theorem unlisted_is_safe {s : State} {si : Nat} (h : si ∉ s.listedSets) :
    (∀ c, uniqueTags (s.setLines c si) = true) ∧ ∀ t, coherentCopies (s.copies si t) = true := by
  constructor
  · intro c
    rw [setLines_of_unlisted h, uniqueTags, filter_resetSet _ _ (by decide)]
    simp
  · intro t
    have : s.copies si t = [] := by
      simp only [State.copies, setLines_of_unlisted h, List.flatMap_eq_nil_iff]
      intro c _
      rw [filter_resetSet _ _ (by simp [Line.holds, Line.valid, Line.reset])]
      rfl
    rw [this]
    decide

/-- What the check of one set answers (rule R200). -/
theorem setViolation_spec (s : State) (si : Nat) :
    s.setViolation si =
      if ∀ c, uniqueTags (s.setLines c si) = true then
        (if ∀ t, coherentCopies (s.copies si t) = true then none else some .fCoherence)
      else some .fSetDuplicate := by
  have hall : (allCores.all fun c => uniqueTags (s.setLines c si)) = true ↔
      ∀ c, uniqueTags (s.setLines c si) = true := by
    simp only [List.all_eq_true]
    exact ⟨fun h c => h c (by fin_cases c <;> simp [allCores]), fun h c _ => h c⟩
  have hcoh : ((s.heldTags si).all fun t => coherentCopies (s.copies si t)) = true ↔
      ∀ t, coherentCopies (s.copies si t) = true := by
    simp only [List.all_eq_true]
    refine ⟨fun h t => ?_, fun h t _ => h t⟩
    by_cases ht : t ∈ s.heldTags si
    · exact h t ht
    · have : s.copies si t = [] := by
        simp only [State.copies, List.flatMap_eq_nil_iff, List.map_eq_nil_iff, List.filter_eq_nil_iff]
        intro c hc l hl hh
        refine ht (List.mem_flatMap.mpr ⟨c, hc, List.mem_map.mpr ⟨l, ?_, ((Line.holds_iff _ _).mp hh).2⟩⟩)
        rw [List.mem_filter]
        exact ⟨hl, by simpa [Line.valid] using ((Line.holds_iff _ _).mp hh).1⟩
      rw [this]
      decide
  unfold State.setViolation
  by_cases h1 : ∀ c, uniqueTags (s.setLines c si) = true
  · rw [if_pos (hall.mpr h1), if_pos h1]
    by_cases h2 : ∀ t, coherentCopies (s.copies si t) = true
    · rw [if_pos (hcoh.mpr h2), if_pos h2]
    · rw [if_neg fun h => h2 (hcoh.mp h), if_neg h2]
  · rw [if_neg fun h => h1 (hall.mp h), if_neg h1]

/-- The check either changes nothing or raises a fault. -/
theorem checkInvariants_cases (s : State) :
    (checkInvariants s = s ∧ ∀ si ∈ s.listedSets, s.setViolation si = none) ∨
      ∃ code, (code = .fSetDuplicate ∨ code = .fCoherence) ∧ checkInvariants s = raise code s := by
  unfold checkInvariants
  cases h : s.listedSets.findSome? s.setViolation with
  | none => exact .inl ⟨rfl, List.findSome?_eq_none_iff.mp h⟩
  | some code =>
    obtain ⟨si, -, hsi⟩ := List.exists_of_findSome?_eq_some h
    refine .inr ⟨code, ?_, rfl⟩
    rw [setViolation_spec] at hsi
    split at hsi
    · split at hsi
      · cases hsi
      · cases hsi; exact .inr rfl
    · cases hsi; exact .inl rfl

/-- Where no listed set has a violation, the set invariant and P1 hold of every set. -/
theorem safe_of_listed {s : State} (h : ∀ si ∈ s.listedSets, s.setViolation si = none) :
    SetsUnique s ∧ Coherent s := by
  have hall : ∀ si, (∀ c, uniqueTags (s.setLines c si) = true) ∧ ∀ t, coherentCopies (s.copies si t) = true := by
    intro si
    by_cases hsi : si ∈ s.listedSets
    · have hv := h si hsi
      rw [setViolation_spec] at hv
      split at hv
      · rename_i hu
        split at hv
        · rename_i hc; exact ⟨hu, hc⟩
        · cases hv
      · cases hv
    · exact unlisted_is_safe hsi
  exact ⟨fun c si => (hall si).1 c, fun si t => (hall si).2 t⟩

end Sys2Proof.Machine
end

