-- ==== Sys2Proof/Machine/Report.lean ====
section
/-! DEFINITION. What the reporter reads when a run has ended (rules R102, R216, R217). The report's text is
out of scope (00_scope.md section 3). -/

namespace Sys2Proof.Machine

/-- The miss rate of core `c`, `100 · cache_misses / total_instructions`, and 0 with no instructions: an exact
rational (rule R216, decision D34). -/
def missRate (s : State) (c : CoreId) : Rat :=
  let st := s.stats.get c
  if st.totalInstructions = 0 then 0
  else (100 * (st.cacheMisses.toNat : Rat)) / (st.totalInstructions.toNat : Rat)

/-- The capacity of a cache in bytes, `2^s · E · B` (rule R217). -/
def capacityBytes (cfg : Config) : Nat := 2 ^ cfg.s * cfg.E * cfg.blockSize

/-- The capacity of a cache in KB, before any rounding, in the open unit KB_UNIT (rule R217, decision D55, log 16). -/
def capacityKB (cfg : Config) : Rat := (capacityBytes cfg : Rat) / (Config.kbUnit : Rat)

/-- The values the reporter reads or derives (rules R102, R216, R217). -/
structure Report where
  /-- The echoed stem of the trace file names (rules R103, R217, log 21). -/
  tracePrefix : List Char
  cfg : Config
  blockSize : Nat
  setCount : Nat
  cacheKB : Rat
  protocol : String
  writePolicy : String
  replacement : String
  stats : Quad Stats
  missRates : Quad Rat
  totalBusTransactions : Count
  totalBusTrafficBytes : Count
deriving Repr

/-- The report of a final state, for the stem of the trace file names that the environment gave; reading it changes
nothing (rules R102, R217, log 21). -/
def report (tracePrefix : List Char) (s : State) : Report :=
  { tracePrefix := tracePrefix
    cfg := s.cfg
    blockSize := s.cfg.blockSize
    setCount := s.cfg.numSets
    cacheKB := capacityKB s.cfg
    protocol := "MESI"
    writePolicy := "write-back/write-allocate"
    replacement := "LRU"
    stats := s.stats
    missRates := ⟨missRate s 0, missRate s 1, missRate s 2, missRate s 3⟩
    totalBusTransactions := s.totalBusTransactions
    totalBusTrafficBytes := s.totalBusTrafficBytes }

end Sys2Proof.Machine
end

