-- ==== Sys2Proof/Tests/Slice0.lean ====
section
/-! SUPPORT. Small tests with expected results from the spec's vectors, and the witness of each statement: a
concrete state and operands that meet its hypotheses together. -/

namespace Sys2Proof.Machine.Tests

open Sys2Proof Sys2Proof.Machine

/-! ### Well-formedness and configurations -/

/-- 30_encoding.md R97: `1 00`, `1 01` and `1 10` are reserved. -/
theorem test_wf_refuses_reserved_bus_fields :
    BusFields.wf ⟨true, .busRd, 0, 0⟩ = false ∧ BusFields.wf ⟨true, .busRdX, 1, 0⟩ = false ∧
      BusFields.wf ⟨true, .busUpgr, 2, 0⟩ = false ∧ BusFields.wf ⟨true, .flush, 3, 0⟩ = true := by decide

/-- 30_encoding.md R88, R91, R108: 33 and 37 bits. -/
theorem test_wf_refuses_wide_words :
    reqWordFits 0x200000000 = false ∧ reqWordFits 0x1FFFFFFFF = true ∧ busWordFits 0x2000000000 = false ∧
      busWordFits 0x1FFFFFFFFF = true := by decide

/-- 95_test_vectors.md section 2.4, the refused configurations. -/
theorem test_config_refused :
    ∀ r ∈ [(⟨1, 0, 4⟩ : RawConfig), ⟨-1, 2, 4⟩, ⟨1, 2, -1⟩, ⟨1, 2, 32⟩, ⟨0, 1, 33⟩], r.legal = false := by decide

/-- 95_test_vectors.md section 2.4, the accepted configurations. -/
theorem test_config_accepted :
    ∀ r ∈ [(⟨1, 2, 4⟩ : RawConfig), ⟨0, 1, 0⟩, ⟨0, 1, 32⟩, ⟨32, 1, 0⟩, ⟨31, 2, 1⟩], r.legal = true := by decide

/-- 60_exceptions.md R196, R197: a refused configuration is recorded, and the result of the run is F_CONFIG, code 1. -/
theorem test_config_fault :
    boot ⟨1, 2, 32⟩ State.reset.traces = .fault (.config ⟨1, 2, 32⟩) ∧
      (resultCode (boot ⟨1, 2, 32⟩ State.reset.traces)).map FaultCode.value = some 1 := ⟨rfl, by decide⟩

/-! ### Words -/

/-- One word of every command, written bit by bit from 30_encoding.md R89, R90, R92–R96: the fixed bits, the source
core, then the address. -/
theorem test_decode_bit_by_bit :
    decode (.req 0b0_00000000000000000000000000010000#33) = .instr (.prRd 0x10) ∧
      decode (.req 0b1_11011110101011011011111011101111#33) = .instr (.prWr 0xDEADBEEF) ∧
      decode (.bus 0b0_00_10_00000000000000000000000001100000#37) = .instr (.busRd 2 0x60) ∧
      decode (.bus 0b0_01_01_00000000000000000000000000000000#37) = .instr (.busRdX 1 0x0) ∧
      decode (.bus 0b0_10_11_10000000000000000000000000000001#37) = .instr (.busUpgr 3 0x80000001) ∧
      decode (.bus 0b1_11_00_00000000000000000000000001000000#37) = .instr (.flushEvict 0 0x40) ∧
      decode (.bus 0b0_11_01_00000000000000000000000000000000#37) = .instr (.flushInterv 1 0x0) := by decide

/-- 30_encoding.md R97: the three reserved patterns, written bit by bit. -/
theorem test_decode_reserved :
    decode (.bus 0b1_00_00_00000000000000000000000000000000#37) = .refused .reservedBusWord ∧
      decode (.bus 0b1_01_11_11111111111111111111111111111111#37) = .refused .reservedBusWord ∧
      decode (.bus 0b1_10_01_00000000000000000000000000000000#37) = .refused .reservedBusWord := by decide

/-- 95_test_vectors.md sections 2.1 and 2.2: words of requests and of bus commands. -/
theorem test_encode_vectors :
    ∀ p ∈ [(Instr.prRd 0xFFFFFFFF, CommandWord.req 0x0FFFFFFFF#33), (.prWr 0xFFFFFFFF, .req 0x1FFFFFFFF#33),
      (.busRd 1 0x0, .bus 0x0100000000#37), (.busRdX 0 0x40, .bus 0x0400000040#37),
      (.busRdX 3 0x0, .bus 0x0700000000#37), (.busUpgr 1 0x0, .bus 0x0900000000#37),
      (.flushInterv 0 0x0, .bus 0x0C00000000#37), (.flushEvict 1 0x0, .bus 0x1D00000000#37)],
      encode p.1 = p.2 := by decide

/-- The opcode-table words of both formats, with their own widths and rounded to bytes (log 5). -/
theorem test_table_words :
    decodeTableWord 33 0x100000000 = some (.prWr 0x0) ∧ decodeTableWord 40 0x100000000 = some (.prWr 0x0) ∧
      decodeTableWord 37 0x0000000000 = some (.busRd 0 0x0) ∧ decodeTableWord 40 0x0400000000 = some (.busRdX 0 0x0) ∧
      decodeTableWord 40 0x1C00000000 = some (.flushEvict 0 0x0) ∧ decodeTableWord 40 0x1400000000 = none := by decide

/-- 95_test_vectors.md section 2.1: well-formed lines. -/
theorem test_parse_records :
    parseLine ['R', ' ', '0', 'x', '0'] = some 0x0#33 ∧ parseLine ['W', ' ', '1', 'F'] = some 0x10000001F#33 ∧
      parseLine [' ', ' ', 'R', '\t', '0', 'X', 'd', 'e', 'a', 'd', 'B', 'E', 'E', 'F', ' '] = some 0x0DEADBEEF#33 ∧
      parseLine ['R', ' ', '0', '0', '0', '0', '0', '0', '0', '0', '0', '0', '1', '0'] = some 0x10#33 := by decide

/-- 95_test_vectors.md section 2.1: malformed and blank lines. -/
theorem test_parse_malformed :
    ∀ l ∈ [['r', ' ', '0', 'x', '1', '0'], ['R'], ['R', ' ', '0', 'x'], ['R', ' ', '1', ' ', 'e'],
      ['R', ' ', '0', 'x', '1', '0', '0', '0', '0', '0', '0', '0', '0'], ['W', '0', 'x', '1', '0'], []],
      parseLine l = none := by decide

/-- 30_encoding.md R104, R105, R106: line ends, skipped lines, and a file that cannot be opened. -/
theorem test_read_trace :
    readTrace (some ['R', ' ', '4', '\r', '\n', '\n', 'x', '\n', 'W', ' ', '8']) = [0x4#33, 0x100000008#33] ∧
      readTrace none = [] := by decide

/-! ### Address decode -/

/-- 95_test_vectors.md section 2.3: tags and sets. -/
theorem test_tags_and_sets :
    ∀ p ∈ [(0x20#32, 1, 4, 0x1#32, 0), (0x4F#32, 1, 4, 0x2#32, 0), (0xFFFFFFFF#32, 1, 4, 0x7FFFFFF#32, 1),
      (0x12345678#32, 3, 5, 0x123456#32, 3), (0xABCDEF01#32, 10, 6, 0xABCD#32, 0x3BC),
      (0x12345678#32, 31, 1, 0x0#32, 0x91A2B3C), (0xDEADBEEF#32, 0, 32, 0x0#32, 0),
      (0xDEADBEEF#32, 32, 0, 0x0#32, 0xDEADBEEF), (0xDEADBEEF#32, 16, 16, 0x0#32, 0xDEAD)],
      tagOf ⟨p.2.1, 1, p.2.2.1⟩ p.1 = p.2.2.2.1 ∧ setOf ⟨p.2.1, 1, p.2.2.1⟩ p.1 = p.2.2.2.2 := by decide

/-- 95_test_vectors.md section 2.3: `bus_cycles`. -/
theorem test_bus_cycles :
    ∀ p ∈ [(0, 0), (1, 1), (2, 2), (4, 8), (10, 512), (32, 2147483648)],
      (Config.mk 0 1 p.1).busCycles = p.2 := by decide

/-! ### The tag array -/

/-- A line with a tag, a state and a stamp. -/
def ln (t : Tag) (m : Mesi) (l : Count) : Line := { tag := t, mesi := m, lru := l }

/-- A line as after reset. -/
def li : Line := Line.reset

/-- A cache that holds `L` in set 0, every other set as after reset. -/
def cacheOf (L : List Line) (n : Count) : Cache := { sets := if L = resetSet 2 then [] else [(0, L)], lruCtr := n }

/-- A block in the scenario configuration with the given lines in set 0 of its four caches, LRU counters of 9, and
the given bus record. -/
def world (L0 L1 L2 L3 : List Line) (b : Bus) : State :=
  { State.reset with cache := ⟨cacheOf L0 9, cacheOf L1 9, cacheOf L2 9, cacheOf L3 9⟩, bus := b }

/-- 95_test_vectors.md TA1–TA6 and TA7–TA9: `victim` and `lookup`. -/
theorem test_victim_and_lookup :
    victimIn [li, li] = 0 ∧ victimIn [ln 5 .exclusive 3, ln 7 .invalid 9] = 1 ∧
      victimIn [ln 5 .exclusive 3, ln 7 .shared 2] = 1 ∧ victimIn [ln 5 .exclusive 4, ln 7 .shared 4] = 0 ∧
      victimIn [ln 0 .invalid 5, ln 0 .invalid 2] = 0 ∧ victimIn [ln 9 .modified 7] = 0 ∧
      lookupIn [ln 3 .invalid 7, ln 3 .exclusive 9] 3 = some 1 ∧ lookupIn [ln 3 .invalid 7, ln 4 .exclusive 9] 3 = none ∧
      lookupIn [li, li] 0 = none := by decide

/-- As TA10 and TA11, with counter 9: `touch` of way 1, and `install` of tag 9 SHARED. -/
theorem test_touch_and_install :
    (touch 0 0 1 (world [ln 5 .exclusive 3, ln 7 .shared 2] [li, li] [li, li] [li, li] Bus.reset)).setLines 0 0 =
        [ln 5 .exclusive 3, ln 7 .shared 10] ∧
      (install 0 0 9 .shared (world [ln 5 .exclusive 3, ln 7 .invalid 9] [li, li] [li, li] [li, li]
        Bus.reset)).setLines 0 0 = [ln 5 .exclusive 3, ln 9 .shared 10] := by decide

/-! ### Commands -/

/-- The answer is a next state with the property `p`. -/
def after (o : Answer) (p : State → Bool) : Bool :=
  match o with
  | .next t => p t
  | .fault _ => false
  | .refused _ => false

/-- An answer that is a next state with a property is that state. -/
theorem next_of_after {o : Answer} {p : State → Bool} (h : after o p = true) : ∃ t, o = .next t ∧ p t = true := by
  cases o with
  | next t => exact ⟨t, rfl, h⟩
  | fault _ => cases h
  | refused _ => cases h

/-- A bus record with a phase in flight. -/
def busy (t : ReqType) (c : CoreId) (a : Addr) (d : Bool) (n : BitVec 32) : Bus :=
  { Bus.reset with available := false, srcCore := some c, addr := a, reqType := t, done := d, cyclesRemaining := n }

/-- The block with the turn given to core `c`. -/
def turnOf (c : CoreId) (s : State) : State := { s with turn := c }

/-- 41_processor_access.md A1: a read hit while the bus is busy with another core's transaction. -/
theorem test_prRd_hit :
    after (exec (.prRd 0x0) (world [ln 0 .exclusive 2, li] [li, li] [li, li] [li, li] (busy .busRd 1 0x40 false 5)))
      (fun t => decide (t.setLines 0 0 = [ln 0 .exclusive 10, li] ∧ t.stats.c0.totalReads = 1 ∧ t.pc.c0 = 1 ∧
        t.bus = busy .busRd 1 0x40 false 5)) = true := by decide

/-- 41_processor_access.md A6: a read miss of core 2 issues a BusRd. -/
theorem test_prRd_issue :
    after (exec (.prRd 0x30) (turnOf 2 (world [li, li] [li, li] [li, li] [li, li] Bus.reset)))
      (fun t => decide (t.bus = busy .busRd 2 0x30 true 0 ∧ t.stats.c2.cacheMisses = 1 ∧ t.stats.c2.totalCycles = 1 ∧
        t.stats.c2.dataTrafficBytes = 16 ∧ t.totalBusTransactions = 1 ∧ t.totalBusTrafficBytes = 16)) = true := by decide

/-- 41_processor_access.md A2: a write hit on an EXCLUSIVE line, with offset 8. -/
theorem test_prWr_hit :
    after (exec (.prWr 0x8) (world [ln 0 .exclusive 2, li] [li, li] [li, li] [li, li] Bus.reset))
      (fun t => decide (t.setLines 0 0 = [ln 0 .modified 10, li] ∧ t.stats.c0.totalWrites = 1 ∧ t.pc.c0 = 1 ∧
        t.bus = Bus.reset)) = true := by decide

/-- 41_processor_access.md A5: a write hit on SHARED stalls on a busy bus. -/
theorem test_prWr_stall :
    after (exec (.prWr 0x0) (world [ln 0 .shared 2, li] [li, li] [li, li] [li, li] (busy .busRd 1 0x40 false 5)))
      (fun t => decide (t.setLines 0 0 = [ln 0 .shared 2, li] ∧ t.stats.c0.idleCycles = 1 ∧ t.pc.c0 = 0)) = true := by
  decide

/-- 42_bus_snoop.md B2: a BusRd starts from the cache that holds the block MODIFIED. -/
theorem test_busRd_start :
    after (exec (.busRd 0 0x0) (world [li, li] [ln 0 .modified 2, li] [li, li] [li, li] (busy .busRd 0 0x0 true 0)))
      (fun t => decide (t.setLines 1 0 = [ln 0 .shared 2, li] ∧ t.bus = { busy .busRd 0 0x0 false 8 with
        respCore := some 1, prevMesi := .modified })) = true := by decide

/-- 42_bus_snoop.md B3: a BusRd filled from a MODIFIED copy; the same snoop starts the intervention writeback. -/
theorem test_busRd_done :
    after (snoop (world [li, li] [ln 0 .shared 2, li] [li, li] [li, li]
        { busy .busRd 0 0x0 false 0 with respCore := some 1, prevMesi := .modified }))
      (fun t => decide (t.setLines 0 0 = [ln 0 .shared 10, li] ∧ t.stats.c1.dataTrafficBytes = 32 ∧
        t.stats.c1.writebacks = 1 ∧ t.totalBusTransactions = 1 ∧ t.totalBusTrafficBytes = 16 ∧
        t.bus = { busy .flush 1 0x0 false 100 with
          respCore := some 1, prevMesi := .modified, prevCore := some 0, prevReqType := .busRd })) = true := by decide

/-- 42_bus_snoop.md B4: a BusRdX invalidates two SHARED copies and is served by memory. -/
theorem test_busRdX_start :
    after (exec (.busRdX 2 0x0) (world [ln 0 .shared 2, li] [ln 0 .shared 3, li] [li, li] [li, li]
        (busy .busRdX 2 0x0 true 0)))
      (fun t => decide (t.setLines 0 0 = [ln 0 .invalid 2, li] ∧ t.setLines 1 0 = [ln 0 .invalid 3, li] ∧
        t.bus = busy .busRdX 2 0x0 false 100 ∧ t.stats = State.reset.stats)) = true := by decide

/-- 42_bus_snoop.md B6: a SHARED victim is dropped and the last other sharer promoted, then the BusRdX starts. -/
theorem test_busRdX_victim :
    after (exec (.busRdX 0 0x0) (world [ln 1 .modified 4, ln 2 .shared 3] [ln 2 .shared 5, li] [li, li] [li, li]
        (busy .busRdX 0 0x0 true 0)))
      (fun t => decide (t.setLines 0 0 = [ln 1 .modified 4, ln 2 .invalid 3] ∧
        t.setLines 1 0 = [ln 2 .exclusive 5, li] ∧ t.stats.c0.cacheEvictions = 1 ∧
        t.bus = busy .busRdX 0 0x0 false 100)) = true := by decide

/-- 41_processor_access.md A4: the upgrade of core 0. -/
theorem test_busUpgr :
    after (exec (.busUpgr 0 0x0) (world [ln 0 .shared 2, li] [ln 0 .shared 2, li] [li, li] [li, li] Bus.reset))
      (fun t => decide (t.setLines 0 0 = [ln 0 .modified 10, li] ∧ t.setLines 1 0 = [ln 0 .invalid 2, li] ∧
        t.stats.c0.busInvalidations = 1 ∧ t.totalBusTransactions = 1 ∧ t.totalBusTrafficBytes = 0 ∧
        t.bus = { Bus.reset with srcCore := some 0, reqType := .busUpgr })) = true := by decide

/-- 95_test_vectors.md F6: a BusUpgr that finds an EXCLUSIVE copy. -/
theorem test_busUpgr_coherence :
    after (exec (.busUpgr 0 0x0) (world [ln 0 .shared 2, li] [ln 0 .exclusive 2, li] [li, li] [li, li] Bus.reset))
      (fun t => decide (t.faultCode = .fCoherence ∧ t.totalBusTransactions = 0)) = true := by decide

/-- 42_bus_snoop.md B7: a MODIFIED victim chains the eviction writeback, which the same snoop starts. -/
theorem test_flushEvict_chained :
    after (snoop (world [ln 1 .modified 2, ln 2 .exclusive 5] [li, li] [li, li] [li, li] (busy .busRd 0 0x0 true 0)))
      (fun t => decide (t.setLines 0 0 = [ln 1 .invalid 2, ln 2 .exclusive 5] ∧ t.stats.c0.cacheEvictions = 1 ∧
        t.stats.c0.writebacks = 1 ∧ t.stats.c0.dataTrafficBytes = 16 ∧ t.totalBusTransactions = 1 ∧
        t.bus = { busy .flush 0 0x0 false 100 with evict := true, prevMesi := .modified })) = true := by decide

/-- 42_bus_snoop.md B8: the end of an eviction writeback; the same snoop starts the BusRdX. -/
theorem test_flushEvict_done :
    after (snoop (world [ln 1 .invalid 2, ln 2 .exclusive 5] [li, li] [li, li] [li, li]
        { busy .flush 0 0x0 false 0 with evict := true, prevReqType := .busRdX }))
      (fun t => decide (t.bus = { busy .busRdX 0 0x0 false 100 with prevReqType := .busRdX })) = true := by decide

/-- 42_bus_snoop.md B9: the end of a BusRdX's intervention writeback; the same snoop starts the memory phase. -/
theorem test_flushInterv_busRdX :
    after (snoop (world [li, li] [li, li] [li, li] [li, li]
        { busy .flush 3 0x0 false 0 with prevReqType := .busRdX, prevCore := some 2 }))
      (fun t => decide (t.bus = { busy .busRdX 2 0x0 false 100 with prevReqType := .busRdX, prevCore := some 2 })) =
      true := by decide

/-- 42_bus_snoop.md B10: the end of a BusRd's intervention writeback. -/
theorem test_flushInterv_busRd :
    after (exec (.flushInterv 0 0x0) (world [li, li] [li, li] [li, li] [li, li]
        { busy .flush 0 0x0 false 0 with prevCore := some 1 }))
      (fun t => decide (t.bus = { busy .busRd 1 0x0 false 0 with prevCore := some 1, available := true })) = true := by
  decide

/-! ### Faults, the tick and the run -/

/-- 95_test_vectors.md F1, with every other element as reset. -/
theorem test_fault_bus_state :
    after (step { State.reset with bus := { Bus.reset with available := false, reqType := .busUpgr } })
      (fun t => decide (t.faultCode = .fBusState ∧ t.globalCycle = 0)) = true := by decide

/-- 95_test_vectors.md F2 and F3: the end-of-tick check. -/
theorem test_fault_invariants :
    after (step (world [ln 0 .modified 1, li] [ln 0 .modified 1, li] [li, li] [li, li] Bus.reset))
        (fun t => decide (t.faultCode = .fCoherence ∧ t.globalCycle = 1)) = true ∧
      after (step (world [ln 0 .exclusive 1, ln 0 .shared 2] [li, li] [li, li] [li, li] Bus.reset))
        (fun t => decide (t.faultCode = .fSetDuplicate)) = true := by decide

/-- 95_test_vectors.md F4: the adjustment finds `total_cycles[1] = 0`. -/
theorem test_fault_underflow :
    after (snoop (world [ln 0 .modified 1, li] [li, li] [li, li] [li, li] (busy .busRdX 1 0x0 true 0)))
      (fun t => decide (t.faultCode = .fUnderflow ∧ t.stats.c1.idleCycles = 0 ∧ t.stats.c0.writebacks = 1)) = true := by
  decide

/-- 95_test_vectors.md F5: a counter at its last value. -/
theorem test_fault_overflow :
    after (exec (.prRd 0x0) { world [ln 0 .exclusive 2, li] [li, li] [li, li] [li, li] Bus.reset with
        stats := State.reset.stats.set 0 { Stats.reset with totalCycles := 0xFFFFFFFFFFFFFFFF } })
      (fun t => decide (t.faultCode = .fOverflow ∧ t.stats.c0.totalCycles = 0xFFFFFFFFFFFFFFFF ∧
        t.stats.c0.totalReads = 1 ∧ t.pc.c0 = 0)) = true := by decide

/-- 95_test_vectors.md S1, tick 0, with the read placed in the trace of core 0: issue, and the phase starts. -/
theorem test_first_tick_of_a_read :
    after (step (State.reset.withFetchWord 33 0x000000000))
      (fun t => decide (t.bus = busy .busRd 0 0x0 false 99 ∧ t.stats.c0.cacheMisses = 1 ∧ t.globalCycle = 1 ∧
        t.activeCores = 1)) = true := by decide

/-- 42_bus_snoop.md R157, with an eviction writeback placed on the bus: the phase starts in the pre-snoop. -/
theorem test_first_tick_of_a_flush :
    after (step (State.reset.withFetchWord 37 0x1C00000040))
      (fun t => decide (t.bus.cyclesRemaining = 99 ∧ t.bus.done = false ∧ t.bus.evict = true)) = true := by decide

/-- 41_processor_access.md R129, with a BusUpgr of core 1 placed: the core's write performs it. -/
theorem test_first_tick_of_an_upgrade :
    after (step (State.reset.withFetchWord 37 0x0900000000))
      (fun t => decide (t.stats.c1.busInvalidations = 1 ∧ t.bus.reqType = .busUpgr ∧ t.pc.c1 = 1 ∧
        t.mesiOf 1 0 0 = .modified)) = true := by decide

/-- 42_bus_snoop.md R155–R157 and R167 with `b = 0` (log 20): a cache-to-cache phase that starts in the pre-snoop, after
an eviction writeback, ends in the post-snoop, and its intervention writeback has 99 ticks to go after that tick. -/
theorem test_zero_cycle_phase_ends_in_its_tick :
    after (step { State.reset with
        cfg := { s := 0, E := 1, b := 0 }
        cache := ⟨⟨[(0, [ln 1 .invalid 1])], 1⟩, ⟨[(0, [ln 0 .modified 2])], 2⟩, ⟨[], 0⟩, ⟨[], 0⟩⟩
        bus := { busy .flush 0 0x0 false 0 with evict := true } })
      (fun t => decide (t.mesiOf 0 0 0 = .shared ∧ t.bus.reqType = .flush ∧ t.bus.srcCore = some 1 ∧
        t.bus.cyclesRemaining = 99)) = true := by decide

/-- 60_exceptions.md R217, 30_encoding.md R103: the report echoes the stem, and the file of core 2 has its name. -/
theorem test_report_echoes_the_stem :
    (report ['a', 'p', 'p'] State.reset).tracePrefix = ['a', 'p', 'p'] ∧
      traceFileName ['a', 'p', 'p'] 2 =
        ['a', 'p', 'p', '_', 'p', 'r', 'o', 'c', '2', '.', 't', 'r', 'a', 'c', 'e'] := by decide

/-- 00_scope.md R6: the block size and the number of sets of the scenario configuration. -/
theorem test_scenario_sizes : State.reset.cfg.blockSize = 16 ∧ State.reset.cfg.numSets = 2 := by decide

/-! ### Witnesses: the encoding and the address -/

theorem witness_DecodeOfEncodeIsTheCommand : (Instr.busRdX 3 0xFFFFFFFF).wf = true := by decide

theorem witness_EncodeOfDecodedWordIsTheWord : decode (.bus 0x0700000000#37) = .instr (.busRdX 3 0x0) := by decide

theorem witness_BusWordShowsTheBusRecord :
    ({ busy .flush 3 0xFFFFFFFF true 0 with evict := true } : Bus).srcCore = some 3 ∧
      (({ busy .flush 3 0xFFFFFFFF true 0 with evict := true } : Bus).evict = true → ReqType.flush = .flush) := by decide

/-- `s + b = 32` with both above 0, `s = 0` with `b = 32`, `s = b = 0`, and `s = 32`. -/
theorem witness_TagAndSetAreTheAddressFields :
    (Config.mk 16 1 16).legal = true ∧ (Config.mk 0 1 32).legal = true ∧ (Config.mk 0 1 0).legal = true ∧
      (Config.mk 32 1 0).legal = true := by decide

theorem witness_SameBlockIsSameTagAndSet : (Config.mk 16 1 16).legal = true := by decide

theorem witness_OffsetBitsAreDiscarded : sameBlock State.reset.cfg 0x20 0x2F = true := by decide

/-! ### Witnesses: the tag array -/

/-- A world whose sets have two lines each has the shape. -/
theorem world_shaped (L0 L1 L2 L3 : List Line) (b : Bus)
    (h : L0.length = 2 ∧ L1.length = 2 ∧ L2.length = 2 ∧ L3.length = 2) : ArraysShaped (world L0 L1 L2 L3 b) := by
  have hc : ∀ L : List Line, L.length = 2 → setsWF Config.scenario (cacheOf L 9).sets := by
    intro L hL
    unfold cacheOf
    by_cases hr : L = resetSet 2
    · simp [setsWF, hr]
    · simp [setsWF, hr, hL, Config.numSets, Config.scenario]
  intro c
  fin_cases c
  exacts [hc _ h.1, hc _ h.2.1, hc _ h.2.2.1, hc _ h.2.2.2]

/-- What holds of the lines of a set holds of `lineAt`. -/
theorem lineAt_of_all {s : State} {c : CoreId} {si : Nat} {P : Line → Prop} (h : ∀ l ∈ s.setLines c si, P l) (w : Nat)
    (l : Line) (hl : s.lineAt c si w = some l) : P l := h l (List.mem_of_getElem? hl)

/-- Core 0 holds block 0 EXCLUSIVE; the bus is available. -/
def idle : State := world [ln 0 .exclusive 2, li] [li, li] [li, li] [li, li] Bus.reset

/-- Core 0's set 0 is full; core 1 holds one of its blocks, SHARED. -/
def full : State := world [ln 1 .shared 4, ln 2 .exclusive 3] [ln 1 .shared 2, li] [li, li] [li, li] Bus.reset

theorem idle_shaped : ArraysShaped idle := world_shaped _ _ _ _ _ (by decide)

theorem full_shaped : ArraysShaped full := world_shaped _ _ _ _ _ (by decide)

/-- A set with an INVALID line, and a full set. -/
theorem witness_VictimIsFirstInvalidOrLeastRecent :
    (ArraysShaped idle ∧ 1 ≤ idle.cfg.E ∧ ∃ w l, idle.lineAt 0 0 w = some l ∧ l.mesi = .invalid) ∧
      ArraysShaped full ∧ 1 ≤ full.cfg.E ∧ ∀ w l, full.lineAt 0 0 w = some l → l.mesi ≠ .invalid :=
  ⟨⟨idle_shaped, by decide, 1, li, by decide⟩, full_shaped, by decide,
    fun w l h => lineAt_of_all (P := fun l => l.mesi ≠ .invalid) (by decide) w l h⟩

/-- The block with the LRU counter of core 0 at its last value. -/
def lruFull : State :=
  { State.reset with cache := State.reset.cache.set 0 (cacheOf [ln 0 .exclusive 2, li] 0xFFFFFFFFFFFFFFFF) }

theorem lruFull_shaped : ArraysShaped lruFull := by unfold ArraysShaped; decide

theorem witness_TouchStampsTheLine :
    (ArraysShaped idle ∧ idle.faultCode = .fNone ∧ HasRoom idle (.lruCtr 0) 1) ∧
      ArraysShaped lruFull ∧ lruFull.faultCode = .fNone ∧ ¬ HasRoom lruFull (.lruCtr 0) 1 :=
  ⟨⟨idle_shaped, by decide⟩, lruFull_shaped, by decide⟩

theorem witness_InstallReplacesTheVictim :
    ArraysShaped full ∧ 1 ≤ full.cfg.E ∧ 1 < full.cfg.numSets ∧ full.faultCode = .fNone ∧ HasRoom full (.lruCtr 0) 1 :=
  ⟨full_shaped, by decide⟩

/-! ### Witnesses: the processor requests -/

theorem witness_PrRdHitCompletes :
    (idle.faultCode = .fNone ∧ 0 = idle.turn ∧ 0 = setOf idle.cfg 0xF ∧ idle.lookup 0 0 (tagOf idle.cfg 0xF) = some 0 ∧
      HasRooms idle (completionCounters 0 .totalReads)) ∧
    lruFull.faultCode = .fNone ∧ 0 = lruFull.turn ∧ 0 = setOf lruFull.cfg 0xF ∧
      lruFull.lookup 0 0 (tagOf lruFull.cfg 0xF) = some 0 ∧
      ¬ HasRooms lruFull (completionCounters 0 .totalReads) := by decide

theorem witness_PrWrHitOnOwnedLineCompletes :
    (ArraysShaped idle ∧ idle.faultCode = .fNone ∧ 0 = idle.turn ∧ 0 = setOf idle.cfg 0xF ∧
      idle.lookup 0 0 (tagOf idle.cfg 0xF) = some 0 ∧ idle.mesiOf 0 0 (tagOf idle.cfg 0xF) = .exclusive ∧
      HasRooms idle (completionCounters 0 .totalWrites)) ∧
    ArraysShaped lruFull ∧ lruFull.faultCode = .fNone ∧ 0 = lruFull.turn ∧ 0 = setOf lruFull.cfg 0xF ∧
      lruFull.lookup 0 0 (tagOf lruFull.cfg 0xF) = some 0 ∧ lruFull.mesiOf 0 0 (tagOf lruFull.cfg 0xF) = .exclusive ∧
      ¬ HasRooms lruFull (completionCounters 0 .totalWrites) :=
  ⟨⟨idle_shaped, by decide⟩, lruFull_shaped, by decide⟩

/-- Cores 0 and 1 share block 0; the bus is available. -/
def shared : State := world [ln 0 .shared 2, li] [ln 0 .shared 2, li] [li, li] [li, li] Bus.reset

theorem shared_shaped : ArraysShaped shared := world_shaped _ _ _ _ _ (by decide)

theorem witness_PrWrHitOnSharedLineIsTheUpgrade :
    shared.bus.available = true ∧ shared.mesiOf shared.turn (setOf shared.cfg 0x0) (tagOf shared.cfg 0x0) = .shared := by
  decide

/-- Core 0 holds block 0 SHARED; the bus is busy with a transaction of core `c`. -/
def stalled (c : CoreId) : State :=
  world [ln 0 .shared 2, li] [li, li] [li, li] [li, li] (busy .busRd c 0x40 false 5)

/-- The state with the given statistics for core 0. -/
def withStats (s : State) (x : Stats) : State := { s with stats := s.stats.set 0 x }

/-- The state with the two cycle counters of core 0 at their last value. -/
def cyclesFull (s : State) : State :=
  withStats s { Stats.reset with totalCycles := 0xFFFFFFFFFFFFFFFF, idleCycles := 0xFFFFFFFFFFFFFFFF }

/-- A read miss and a write hit on SHARED; the initiator and another core; room and no room. -/
theorem witness_BusyBusStallsTheCore :
    (∀ c : CoreId, ∀ s ∈ [stalled c, cyclesFull (stalled c)],
      s.faultCode = .fNone ∧ 0 = s.turn ∧ s.bus.available = false ∧
        s.lookup 0 (setOf s.cfg 0x20) (tagOf s.cfg 0x20) = none ∧
        s.mesiOf 0 (setOf s.cfg 0x0) (tagOf s.cfg 0x0) = .shared) ∧
    (stalled 0).bus.srcCore = some 0 ∧ HasRoom (stalled 0) (.stat 0 .totalCycles) 1 ∧
      ¬ HasRoom (cyclesFull (stalled 0)) (.stat 0 .totalCycles) 1 ∧
    (stalled 3).bus.srcCore ≠ some 0 ∧ HasRoom (stalled 3) (.stat 0 .idleCycles) 1 ∧
      ¬ HasRoom (cyclesFull (stalled 3)) (.stat 0 .idleCycles) 1 := by decide

theorem witness_ReadMissIssuesBusRd :
    ∀ s ∈ [idle, cyclesFull idle], s.faultCode = .fNone ∧ 0 = s.turn ∧ s.bus.available = true ∧
      s.lookup 0 (setOf s.cfg 0x20) (tagOf s.cfg 0x20) = none ∧
      (HasRooms s (issueCounters 0 s.cfg.blockSize false) ↔ s = idle) := by decide

/-- The last counter of the list alone is full in the third state. -/
theorem witness_WriteMissIssuesBusRdX :
    ∀ s ∈ [idle, cyclesFull idle, withStats idle { Stats.reset with busInvalidations := 0xFFFFFFFFFFFFFFFF }],
      s.faultCode = .fNone ∧ 0 = s.turn ∧ s.bus.available = true ∧
        s.lookup 0 (setOf s.cfg 0x20) (tagOf s.cfg 0x20) = none ∧
        (HasRooms s (issueCounters 0 s.cfg.blockSize true) ↔ s = idle) := by decide

theorem witness_AttemptChargesOneTick :
    idle.faultCode = .fNone ∧ (∃ t, exec (.prRd 0x20) idle = .next t ∧ t.faultCode = .fNone) ∧
      ∃ t, exec (.prWr 0x0) idle = .next t ∧ t.faultCode = .fNone :=
  ⟨by decide, ⟨_, rfl, by decide⟩, _, rfl, by decide⟩

/-- A hit, a miss on an available bus and a miss on a busy bus. -/
theorem witness_PrRdFrame :
    (ArraysShaped idle ∧ 0 = idle.turn ∧ (∃ t, exec (.prRd 0x0) idle = .next t) ∧
      idle.lookup 0 (setOf idle.cfg 0x0) (tagOf idle.cfg 0x0) = some 0 ∧
      idle.lineAt 0 (setOf idle.cfg 0x0) 0 = some (ln 0 .exclusive 2)) ∧
    (∃ t, exec (.prRd 0x20) idle = .next t) ∧
    ArraysShaped (stalled 3) ∧ 0 = (stalled 3).turn ∧ (∃ t, exec (.prRd 0x20) (stalled 3) = .next t) ∧
      (stalled 3).bus.available = false :=
  ⟨⟨idle_shaped, by decide, ⟨_, rfl⟩, by decide⟩, ⟨_, rfl⟩, world_shaped _ _ _ _ _ (by decide), by decide, ⟨_, rfl⟩,
    by decide⟩

/-- An upgrade, a miss on an available bus and a stall. -/
theorem witness_PrWrFrame :
    (ArraysShaped shared ∧ 0 = shared.turn ∧ (∃ t, exec (.prWr 0x0) shared = .next t) ∧
      shared.lookup 1 (setOf shared.cfg 0x0) (tagOf shared.cfg 0x0) = some 0 ∧
      shared.lineAt 1 (setOf shared.cfg 0x0) 0 = some (ln 0 .shared 2)) ∧
    (∃ t, exec (.prWr 0x20) shared = .next t) ∧
    ArraysShaped (stalled 3) ∧ 0 = (stalled 3).turn ∧ (∃ t, exec (.prWr 0x0) (stalled 3) = .next t) ∧
      (stalled 3).bus.available = false :=
  ⟨⟨shared_shaped, by decide, ⟨_, rfl⟩, by decide⟩, ⟨_, rfl⟩, world_shaped _ _ _ _ _ (by decide), by decide, ⟨_, rfl⟩,
    by decide⟩

/-! ### Witnesses: BusUpgr -/

theorem witness_BusUpgrTakesOwnership :
    ArraysShaped shared ∧ shared.faultCode = .fNone ∧ 0 = setOf shared.cfg 0x0 ∧ 0 = tagOf shared.cfg 0x0 ∧
      shared.bus.available = true ∧ shared.lookup 0 0 0 = some 0 ∧
      (∀ c', shared.lookup c' 0 0 ≠ none → shared.mesiOf c' 0 0 = .shared) ∧
      HasRooms shared ([(.stat 0 .busInvalidations, 1), (.busTransactions, 1)] ++ completionCounters 0 .totalWrites) :=
  ⟨shared_shaped, by decide⟩

/-- An EXCLUSIVE and a MODIFIED copy in another cache. -/
theorem witness_BusUpgrFindingAnOwnerFaults :
    ∀ m ∈ [Mesi.exclusive, .modified], ∀ s ∈ [world [ln 0 .shared 2, li] [ln 0 m 2, li] [li, li] [li, li] Bus.reset],
      s.faultCode = .fNone ∧ s.bus.available = true ∧ s.mesiOf 0 (setOf s.cfg 0x0) (tagOf s.cfg 0x0) = .shared ∧
        s.mesiOf 1 (setOf s.cfg 0x0) (tagOf s.cfg 0x0) = m := by decide

/-- The record of F1, with the source core of reset and with core 1. -/
theorem witness_BusUpgrOnBusyBusFaults :
    ∀ b ∈ [{ Bus.reset with available := false, reqType := .busUpgr }, busy .busUpgr 1 0x0 true 0],
      ({ idle with bus := b } : State).faultCode = .fNone ∧ b.available = false ∧ b.reqType = .busUpgr := by decide

theorem witness_StatesWithoutARuleAreRefused :
    (idle.faultCode = .fNone ∧ idle.bus.available = true ∧
      idle.mesiOf 0 (setOf idle.cfg 0x0) (tagOf idle.cfg 0x0) ≠ .shared) ∧
    ({ Bus.reset with available := false } : Bus).srcCore = none ∧
      ({ Bus.reset with available := false } : Bus).reqType = .busRd ∧
      ({ Bus.reset with available := false } : Bus).cyclesRemaining = 0 := by decide

/-! ### Witnesses: victim preparation -/

/-- The block `full` with a demand of core 0 for block 0 that waits for its first observation. -/
def fullDemand (r : ReqType) : State := { full with bus := busy r 0 0x0 true 0 }

/-- Core 0's set 0 is full, its least recent line MODIFIED; a demand of core 0 waits for its first observation. -/
def dirtyDemand (r : ReqType) : State :=
  world [ln 1 .modified 2, ln 2 .exclusive 5] [li, li] [li, li] [li, li] (busy r 0 0x0 true 0)

theorem fullDemand_shaped (r : ReqType) : ArraysShaped (fullDemand r) := full_shaped

theorem witness_DemandStartsAfterPreparation :
    ArraysShaped (fullDemand .busRd) ∧ 1 ≤ (fullDemand .busRd).cfg.E ∧ (fullDemand .busRd).faultCode = .fNone ∧
      0 = setOf (fullDemand .busRd).cfg 0x0 ∧ (fullDemand .busRd).bus.available = false ∧
      (fullDemand .busRd).bus.done = true ∧ ((fullDemand .busRd).victimLine 0 0).mesi ≠ .modified ∧
      ∃ u, u = victimPrep 0 0 (fullDemand .busRd).bus.reqType (fullDemand .busRd) ∧ u.faultCode = .fNone :=
  ⟨fullDemand_shaped _, by decide, by decide, by decide, by decide, by decide, by decide, _, rfl, by decide⟩

/-- The victim is SHARED, with one other sharer. -/
def sharedVictim : State :=
  world [ln 1 .shared 3, ln 2 .exclusive 4] [ln 1 .shared 2, li] [li, li] [li, li] (busy .busRd 0 0x0 true 0)

theorem witness_CleanVictimIsDropped :
    ArraysShaped sharedVictim ∧ sharedVictim.faultCode = .fNone ∧ 0 < sharedVictim.cfg.numSets ∧
      (sharedVictim.victimLine 0 0).mesi ≠ .invalid ∧ (sharedVictim.victimLine 0 0).mesi ≠ .modified ∧
      HasRoom sharedVictim (.stat 0 .cacheEvictions) 1 ∧
      sharedVictim.sharers 0 0 (sharedVictim.victimLine 0 0).tag = [1] :=
  ⟨world_shaped _ _ _ _ _ (by decide), by decide⟩

theorem witness_DirtyVictimChainsEvictionFlush (r : ReqType) :
    ArraysShaped (dirtyDemand r) ∧ (dirtyDemand r).faultCode = .fNone ∧ (dirtyDemand r).bus.available = false ∧
      (dirtyDemand r).bus.done = true ∧
      ((dirtyDemand r).victimLine 0 (setOf (dirtyDemand r).cfg 0x0)).mesi = .modified ∧
      HasRooms (dirtyDemand r) ((.stat 0 .cacheEvictions, 1) :: writebackCounters 0 (dirtyDemand r).cfg.blockSize) :=
  ⟨world_shaped _ _ _ _ _ (by decide), by cases r <;> decide⟩

/-! ### Witnesses: BusRd -/

/-- Core 0's demand `r` for block 0 with `done = d`; the other caches hold the block in the given states, `li` none. -/
def demand (r : ReqType) (d : Bool) (l1 l2 : Line) : State :=
  world [ln 3 .exclusive 4, ln 0 .invalid 1] [l1, li] [l2, li] [li, li] (busy r 0 0x0 d 0)

theorem demand_shaped (r : ReqType) (d : Bool) (l1 l2 : Line) : ArraysShaped (demand r d l1 l2) :=
  world_shaped _ _ _ _ _ (by simp)

theorem witness_BusRdStartsFromMemory :
    ∀ s ∈ [demand .busRd true li li], s.faultCode = .fNone ∧ 0 = setOf s.cfg 0x0 ∧ s.bus.available = false ∧
      s.bus.done = true ∧ (s.victimLine 0 0).mesi = .invalid ∧
      ∀ c', c' ≠ 0 → s.lookup c' 0 (tagOf s.cfg 0x0) = none := by decide

/-- Two SHARED holders; the lower-indexed one responds. -/
theorem witness_BusRdStartsFromLowestHolder :
    ∀ s ∈ [demand .busRd true (ln 0 .shared 2) (ln 0 .shared 3), demand .busRd true (ln 0 .modified 2) li],
      s.faultCode = .fNone ∧ 0 = setOf s.cfg 0x0 ∧ 0 = tagOf s.cfg 0x0 ∧ s.bus.available = false ∧
        s.bus.done = true ∧ (s.victimLine 0 0).mesi = .invalid ∧ s.lookup 1 0 0 = some 0 ∧
        ∀ c', c' ≠ 0 → c' < 1 → s.lookup c' 0 0 = none := by decide

theorem witness_MemoryPhaseFillsTheRequester (r : ReqType) :
    ArraysShaped (demand r false li li) ∧ (demand r false li li).faultCode = .fNone ∧
      (demand r false li li).bus.available = false ∧ (demand r false li li).bus.done = false ∧
      (demand r false li li).bus.cyclesRemaining = 0 ∧ HasRoom (demand r false li li) (.lruCtr 0) 1 ∧
      (demand r false li li).bus.respCore = none :=
  ⟨demand_shaped _ _ _ _, by cases r <;> decide⟩

/-- A BusRd of core 0 at its end, supplied by core 1, which held the block in state `m`. -/
def supplied (m : Mesi) : State :=
  { demand .busRd false (ln 0 .shared 2) li with
    bus := { busy .busRd 0 0x0 false 0 with respCore := some 1, prevMesi := m } }

theorem witness_BusRdFillsFromCache :
    (∀ m, ArraysShaped (supplied m)) ∧
    (∀ m ∈ [Mesi.exclusive, .shared, .modified],
      (supplied m).faultCode = .fNone ∧ (supplied m).bus.available = false ∧ (supplied m).bus.done = false ∧
        (supplied m).bus.cyclesRemaining = 0 ∧ (supplied m).bus.respCore = some 1) ∧
    HasRooms (supplied .exclusive) [(.lruCtr 0, 1), (.stat 1 .dataTrafficBytes, (supplied .exclusive).cfg.blockSize)] ∧
    HasRooms (supplied .modified) [(.lruCtr 0, 1), (.stat 1 .dataTrafficBytes, 2 * (supplied .modified).cfg.blockSize),
      (.stat 1 .writebacks, 1), (.busTransactions, 1), (.busTrafficBytes, (supplied .modified).cfg.blockSize)] :=
  ⟨fun _ => demand_shaped .busRd false (ln 0 .shared 2) li, by decide⟩

/-! ### Witnesses: BusRdX -/

/-- Two SHARED copies elsewhere, and one EXCLUSIVE copy. -/
theorem witness_BusRdXStartsFromMemory :
    (∀ l1 l2, ArraysShaped (demand .busRdX true l1 l2)) ∧
    ∀ s ∈ [demand .busRdX true (ln 0 .shared 2) (ln 0 .shared 3), demand .busRdX true (ln 0 .exclusive 2) li],
      s.faultCode = .fNone ∧ 0 = setOf s.cfg 0x0 ∧ 0 = tagOf s.cfg 0x0 ∧ s.bus.available = false ∧
        s.bus.done = true ∧ (s.victimLine 0 0).mesi = .invalid ∧
        (∀ c', c' ≠ 0 → s.mesiOf c' 0 0 ≠ .modified) ∧ s.lookup 1 0 0 = some 0 :=
  ⟨fun _ _ => demand_shaped _ _ _ _, by decide⟩

/-- Core 1 holds the block MODIFIED; core 0, which wants it, has one tick charged to `total_cycles`. -/
def owned : State :=
  { demand .busRdX true (ln 0 .modified 2) li with
    stats := State.reset.stats.set 0 { Stats.reset with totalCycles := 1 } }

theorem witness_BusRdXChainsOwnerWriteback :
    ArraysShaped owned ∧ owned.faultCode = .fNone ∧ 0 = setOf owned.cfg 0x0 ∧ 0 = tagOf owned.cfg 0x0 ∧
      owned.bus.available = false ∧ owned.bus.done = true ∧ (owned.victimLine 0 0).mesi = .invalid ∧
      (∀ c', c' ≠ 0 → (owned.mesiOf c' 0 0 = .modified ↔ c' = 1)) ∧
      HasRooms owned ((.stat 0 .idleCycles, 1) :: writebackCounters 1 owned.cfg.blockSize) ∧
      (owned.stats.get 0).totalCycles ≠ 0 :=
  ⟨demand_shaped .busRdX true (ln 0 .modified 2) li, by decide⟩

theorem witness_BusRdXAdjustmentUnderflowFaults :
    (∀ l1 l2, ArraysShaped (demand .busRdX true l1 l2)) ∧
    ∀ s ∈ [demand .busRdX true (ln 0 .modified 2) li],
      s.faultCode = .fNone ∧ 0 = setOf s.cfg 0x0 ∧ 0 = tagOf s.cfg 0x0 ∧ s.bus.available = false ∧
        s.bus.done = true ∧ (s.victimLine 0 0).mesi = .invalid ∧
        (∀ c', c' ≠ 0 → (s.mesiOf c' 0 0 = .modified ↔ c' = 1)) ∧
        HasRooms s (writebackCounters 1 s.cfg.blockSize) ∧ (s.stats.get 0).totalCycles = 0 :=
  ⟨fun _ _ => demand_shaped _ _ _ _, by decide⟩

theorem witness_BusRdAndBusRdXFrame :
    (ArraysShaped sharedVictim ∧ 0 = setOf sharedVictim.cfg 0x0 ∧ ∃ t, exec (.busRd 0 0x0) sharedVictim = .next t) ∧
      ArraysShaped owned ∧ 0 = setOf owned.cfg 0x0 ∧ ∃ t, exec (.busRdX 0 0x0) owned = .next t :=
  ⟨⟨world_shaped _ _ _ _ _ (by decide), by decide, _, rfl⟩,
    demand_shaped .busRdX true (ln 0 .modified 2) li, by decide, _, rfl⟩

/-! ### Witnesses: flush, the snoop and the tick -/

/-- A writeback that waits for its first observation, and one at its end before either demand. -/
theorem witness_FlushPhasesStartAndEnd :
    (∀ s ∈ [{ idle with bus := busy .flush 1 0x0 true 0 }], s.faultCode = .fNone ∧ s.bus.available = false ∧
      s.bus.done = true) ∧
    ∀ r ∈ [ReqType.busRd, .busRdX],
      ∀ s ∈ [{ idle with bus := { busy .flush 1 0x0 false 0 with prevReqType := r, prevCore := some 2 } }],
        s.faultCode = .fNone ∧ s.bus.available = false ∧ s.bus.done = false ∧ s.bus.cyclesRemaining = 0 ∧
          s.bus.prevReqType = r := by decide

theorem witness_RunningPhaseIsLeftAlone :
    idle.bus.available = true ∧ (stalled 3).faultCode = .fNone ∧ (stalled 3).bus.available = false ∧
      (stalled 3).bus.done = false ∧ (stalled 3).bus.cyclesRemaining ≠ 0 ∧ (stalled 3).bus.reqType ≠ .busUpgr := by
  decide

/-- A run in progress: core 0's read of block 0 has issued; core 1 holds another block; three cores have retired. -/
def running : State :=
  { world [li, li] [ln 3 .exclusive 2, li] [li, li] [li, li] (busy .busRd 0 0x0 false 99) with
    traces := ⟨[0x000000000#33, 0x100000000#33], [], [], []⟩
    coreDone := ⟨false, true, true, true⟩
    activeCores := 1
    stats := State.reset.stats.set 0 { Stats.reset with cacheMisses := 1, totalCycles := 1, dataTrafficBytes := 16 }
    totalBusTransactions := 1
    totalBusTrafficBytes := 16
    globalCycle := 1 }

theorem running_shaped : Shaped running := by
  refine ⟨by decide, by decide, world_shaped [li, li] [ln 3 .exclusive 2, li] [li, li] [li, li] Bus.reset (by decide),
    ?_, ?_⟩
  · unfold CoresCounted; decide
  · unfold BusLegal; decide

theorem running_safe : RunSafe running := by
  obtain ⟨hu, hc⟩ := safe_of_listed (s := running) (by decide)
  exact .inr ⟨by decide, hu, hc, ⟨by decide, by decide, by decide, by decide, by decide, by decide⟩, by decide⟩

theorem running_accounted : Accounted running := by
  refine .inr ⟨?_, ?_, ?_⟩
  · unfold InstructionsCounted; decide
  · unfold MissesBounded; decide
  · unfold CyclesBounded; decide

/-- The next state of the running block, with no fault. -/
theorem running_steps : ∃ t, step running = .next t ∧ t.faultCode = .fNone := by
  obtain ⟨t, h, ht⟩ := next_of_after (o := step running) (p := fun t => decide (t.faultCode = .fNone)) (by decide)
  exact ⟨t, h, of_decide_eq_true ht⟩

/-- A core with a record, and a snoop of a phase that waits. -/
theorem witness_StepRunsTheDecodedCommands :
    (running.coreDone.get 0 = false ∧ (running.traces.get 0)[running.pc.get 0]? = some 0x000000000#33 ∧
      decode (.req 0x000000000#33) = .instr (.prRd 0x0)) ∧
    (owned.faultCode = .fNone ∧ owned.bus.available = false ∧ owned.bus.word = some 0x0400000000#37 ∧
      decode (.bus 0x0400000000#37) = .instr (.busRdX 0 0x0) ∧
      ∃ t, exec (.busRdX 0 0x0) owned = .next t ∧ t.faultCode = .fNone ∧ t.bus.done = true) ∧
    running.cfg.legal = true ∧ running.faultCode = .fNone ∧ running.activeCores ≠ 0 :=
  ⟨by decide, ⟨by decide, by decide, by decide, by decide, _, rfl, by decide⟩, by decide⟩

/-- A retired core, a core at the end of its trace, and a core with a record. -/
theorem witness_CoreTurnRetiresOrAccesses :
    running.coreDone.get 1 = true ∧
    (State.reset.coreDone.get 3 = false ∧ (State.reset.traces.get 3).length ≤ State.reset.pc.get 3 ∧
      1 ≤ State.reset.activeCores) ∧
    running.coreDone.get 0 = false ∧ (running.traces.get 0)[running.pc.get 0]? = some (packReq false 0x0) := by decide

theorem witness_StoppedBlockStays :
    (∀ s ∈ [{ running with faultCode := .fCoherence }, { running with activeCores := 0 }],
      s.cfg.legal = true ∧ (s.faultCode ≠ .fNone ∨ s.activeCores = 0)) ∧
      ({ running with faultCode := .fCoherence } : State).faultCode ≠ .fNone := by decide

/-- Each bound passed by one, and the configuration at all of them. -/
theorem witness_IllegalConfigurationIsRefused :
    (∀ r ∈ [(⟨0, 0, 0⟩ : RawConfig), ⟨-1, 1, 0⟩, ⟨0, 1, -1⟩, ⟨16, 1, 17⟩],
      r.E < 1 ∨ r.s < 0 ∨ r.b < 0 ∨ r.s + r.b > 32) ∧
    (¬ ((1 : Int) < 1 ∨ (0 : Int) < 0 ∨ (32 : Int) < 0 ∨ (0 : Int) + 32 > 32)) ∧
    ∀ cfg ∈ [Config.mk 0 0 0, Config.mk 16 1 17], cfg.E < 1 ∨ cfg.s + cfg.b > 32 := by decide

theorem witness_BusyPhaseCountsDown :
    running.faultCode = .fNone ∧ running.activeCores ≠ 0 ∧ running.bus.available = false ∧ running.bus.done = false ∧
      running.bus.cyclesRemaining ≠ 0 ∧ running.bus.reqType ≠ .busUpgr ∧
      ∃ t, step running = .next t ∧ t.faultCode = .fNone :=
  ⟨by decide, by decide, by decide, by decide, by decide, by decide, running_steps⟩

theorem witness_TickCountsOne : running.activeCores ≠ 0 ∧ ∃ t, step running = .next t ∧ t.faultCode = .fNone :=
  ⟨by decide, running_steps⟩

theorem witness_CheckedTickIsCoherent :
    ArraysShaped running ∧ running.activeCores ≠ 0 ∧ ∃ t, step running = .next t ∧ t.faultCode = .fNone :=
  ⟨running_shaped.2.2.1, by decide, running_steps⟩

/-- A block whose caches 0 and 1 hold the given lines in set 1, the last one. -/
def inSet1 (L0 L1 : List Line) : State :=
  { State.reset with cache := ⟨⟨[(1, L0)], 9⟩, ⟨[(1, L1)], 9⟩, ⟨[], 0⟩, ⟨[], 0⟩⟩ }

/-- Set 0 of such a block has no violation. -/
theorem inSet1_below (L0 L1 : List Line) (sj : Nat) (h : sj < 1) :
    (∀ c, uniqueTags ((inSet1 L0 L1).setLines c sj) = true) ∧
      ∀ t, coherentCopies ((inSet1 L0 L1).copies sj t) = true := by
  apply unlisted_is_safe
  rw [mem_listedSets]
  rintro ⟨c, p, hp, rfl⟩
  fin_cases c <;> simp [inSet1, Quad.get] at hp <;> subst hp <;> omega

/-- A block without a violation, one with a repeated tag, and one with two owners, each in set 1. -/
theorem witness_FirstViolationIsRaised :
    (ArraysShaped running ∧ running.faultCode = .fNone ∧ SetsUnique running ∧ Coherent running) ∧
    (∀ s ∈ [inSet1 [ln 5 .exclusive 1, ln 5 .shared 2] [ln 6 .shared 1, li]],
      ArraysShaped s ∧ s.faultCode = .fNone ∧
        (∀ sj < 1, (∀ c, uniqueTags (s.setLines c sj) = true) ∧ ∀ t, coherentCopies (s.copies sj t) = true) ∧
        ∃ c, uniqueTags (s.setLines c 1) = false) ∧
    ∀ s ∈ [inSet1 [ln 5 .modified 1, li] [ln 5 .modified 1, li]],
      ArraysShaped s ∧ s.faultCode = .fNone ∧
        (∀ sj < 1, (∀ c, uniqueTags (s.setLines c sj) = true) ∧ ∀ t, coherentCopies (s.copies sj t) = true) ∧
        (∀ c, uniqueTags (s.setLines c 1) = true) ∧ ∃ t, coherentCopies (s.copies 1 t) = false := by
  obtain ⟨hu, hc⟩ := safe_of_listed (s := running) (by decide)
  refine ⟨⟨running_shaped.2.2.1, by decide, hu, hc⟩, ?_, ?_⟩
  · intro s hs
    rw [List.mem_singleton] at hs
    subst hs
    exact ⟨by unfold ArraysShaped; decide, by decide, inSet1_below _ _, 0, by decide⟩
  · intro s hs
    rw [List.mem_singleton] at hs
    subst hs
    exact ⟨by unfold ArraysShaped; decide, by decide, inSet1_below _ _, by decide, 5, by decide⟩

theorem witness_EmptyTracesTakeOneTick : (Config.mk 32 1 0).legal = true ∧ (Config.mk 0 1 32).legal = true := by decide

theorem witness_OneModifiedOwner : Coherent (demand .busRd true (ln 0 .modified 2) li) :=
  (safe_of_listed (by decide)).2

/-! ### Witnesses: reset and the invariants of the step -/

theorem witness_ResetHasTheInvariants :
    (Config.mk 16 1 16).legal = true ∧ ∀ c, traceFits ((Quad.mk [0x0#33] [] [0x1FFFFFFFF#33] []).get c) = true := by
  decide

theorem witness_StepKeepsShape : Shaped running ∧ ∃ t, step running = .next t :=
  ⟨running_shaped, running_steps.imp fun _ h => h.1⟩

theorem witness_ShapedStatesStep : Shaped running := running_shaped

theorem witness_StepKeepsRunSafe : Shaped running ∧ RunSafe running ∧ ∃ t, step running = .next t :=
  ⟨running_shaped, running_safe, running_steps.imp fun _ h => h.1⟩

/-- A state one tick after reset. -/
theorem witness_RunsFaultOnlyByOverflow : ∃ s, Reachable s ∧ s.globalCycle = 1 ∧ s.bus.available = false := by
  obtain ⟨t, h, ht⟩ := next_of_after
    (o := step (State.resetWith Config.scenario ⟨[0x0#33, 0x100000000#33], [], [0x1FFFFFFFF#33], []⟩))
    (p := fun t => decide (t.globalCycle = 1 ∧ t.bus.available = false)) (by decide)
  exact ⟨t, .step _ _ (.reset _ _ (by decide) (by decide)) h, of_decide_eq_true ht⟩

theorem witness_StepKeepsAccounted : Accounted running ∧ ∃ t, step running = .next t :=
  ⟨running_accounted, running_steps.imp fun _ h => h.1⟩

theorem witness_CountersNeverDecrease : ∃ t, step running = .next t ∧ t.faultCode = .fNone := running_steps

theorem witness_ProgramCountersAdvanceByOne : (∃ t, step running = .next t) ∧ running.coreDone.get 1 = true :=
  ⟨running_steps.imp fun _ h => h.1, by decide⟩

theorem witness_ConfigurationAndTracesStay : (∃ t, step running = .next t) ∧ ∃ t i, exec i running = .next t :=
  ⟨running_steps.imp fun _ h => h.1, _, .prRd 0x0, rfl⟩

end Sys2Proof.Machine.Tests
end

section
/-! PROOFS. The scope of the block: a configuration outside rule R8 takes no tick (O44), and a shaped state always
has a next state (O54). The second rests on the bus record: each write that the rules make to it leaves it a record
the rules can write, so a snoop always finds a source core, and the one other refusal, a BusUpgr without a SHARED
copy, needs an available bus, where a snoop runs no command. -/

namespace Sys2Proof

theorem RawConfig.legal_iff (r : RawConfig) : r.legal = true ↔ 1 ≤ r.E ∧ 0 ≤ r.s ∧ 0 ≤ r.b ∧ r.s + r.b ≤ 32 := by
  simp [RawConfig.legal, and_assoc]

theorem Config.legal_iff (cfg : Config) : cfg.legal = true ↔ 1 ≤ cfg.E ∧ cfg.s + cfg.b ≤ 32 := by
  simp [Config.legal]

/-- A request that a transaction on the bus serves, and the only ones a FLUSH saves (rules R40, R160, R161). -/
abbrev ReqType.IsDemand (req : ReqType) : Prop := req = .busRd ∨ req = .busRdX

namespace Machine

/-! ### Illegal configurations -/

theorem boot_of_legal {r : RawConfig} (h : r.legal = true) (tr : Quad (List ReqWord)) :
    boot r tr = .next (State.resetWith r.toConfig tr) := by
  simp [boot, h]

theorem boot_of_illegal {r : RawConfig} (h : r.legal = false) (tr : Quad (List ReqWord)) :
    boot r tr = .fault (.config r) := by
  simp [boot, h]

theorem step_of_illegal {s : State} (h : s.cfg.legal = false) : step s = .fault (.config s.cfg.toRaw) := by
  simp [step, advance, h]

/-- Settles O44: the four bounds are the negation of legality, and `boot` and `step` branch on legality alone. -/
theorem illegalConfigurationIsRefused : Obligations.IllegalConfigurationIsRefused := by
  unfold Obligations.IllegalConfigurationIsRefused
  refine ⟨fun r tr => ⟨fun hout => ?_, fun hin => ?_⟩, rfl, fun s hout => ?_⟩
  · have hlegal : r.legal = false := by
      rw [Bool.eq_false_iff, Ne, RawConfig.legal_iff]
      omega
    rw [boot_of_illegal hlegal]
    exact ⟨rfl, rfl⟩
  · exact boot_of_legal ((RawConfig.legal_iff r).mpr (by omega)) tr
  · have hlegal : s.cfg.legal = false := by
      rw [Bool.eq_false_iff, Ne, Config.legal_iff]
      omega
    exact step_of_illegal hlegal

/-! ### Operations that leave the bus record alone -/

@[simp] theorem install_bus (c : CoreId) (si : Nat) (t : Tag) (m : Mesi) (s : State) :
    (install c si t m s).bus = s.bus := seq_keeps State.bus (by simp) s

@[simp] theorem completeAccess_bus (c : CoreId) (si k : Nat) (kind : StatName) (s : State) :
    (completeAccess c si k kind s).bus = s.bus := seq_keeps State.bus (by simp) s

@[simp] theorem evictVictim_bus (c : CoreId) (si v : Nat) (s : State) : (evictVictim c si v s).bus = s.bus :=
  seq_keeps State.bus (by simp) s

@[simp] theorem promoteLastSharer_bus (sh : List CoreId) (si : Nat) (t : Tag) (s : State) :
    (promoteLastSharer sh si t s).bus = s.bus := by
  unfold promoteLastSharer
  split <;> simp

@[simp] theorem invalidateHolders_bus (c : CoreId) (si : Nat) (t : Tag) (s : State) :
    (invalidateHolders c si t s).bus = s.bus :=
  seq_keeps State.bus (List.forall_mem_map.mpr (by simp)) s

@[simp] theorem snoopUpgrAt_bus (si : Nat) (t : Tag) (c : CoreId) (s : State) :
    (snoopUpgrAt si t c s).bus = s.bus := by
  unfold snoopUpgrAt
  split <;> simp

@[simp] theorem snoopUpgr_bus (c : CoreId) (si : Nat) (t : Tag) (s : State) : (snoopUpgr c si t s).bus = s.bus :=
  seq_keeps State.bus (List.forall_mem_map.mpr (by simp)) s

@[simp] theorem adjustRequester_bus (c : CoreId) (s : State) : (adjustRequester c s).bus = s.bus := by
  unfold adjustRequester
  split
  · simp
  · exact seq_keeps State.bus (by simp) s

@[simp] theorem stall_bus (c : CoreId) (s : State) : (stall c s).bus = s.bus := by
  unfold stall
  split <;> simp

@[simp] theorem checkInvariants_bus (s : State) : (checkInvariants s).bus = s.bus := by
  unfold checkInvariants
  split <;> simp

/-! ### Writes of the bus record -/

theorem BusLegal.of_available {b : Bus} (h : b.available = true) : BusLegal b := by
  simp [BusLegal, h]

/-- ISSUE puts a demand on the bus (rule R132). -/
theorem BusLegal.of_demand {b : Bus} (hsrc : b.srcCore ≠ none) (hreq : ReqType.IsDemand b.reqType)
    (hevict : b.evict = false) : BusLegal b := by
  rcases hreq with h | h <;> simp [BusLegal, hsrc, h, hevict]

/-- CHAIN_EVICT_FLUSH keeps the source core (rule R149). -/
theorem BusLegal.chainEvict {b : Bus} (hb : BusLegal b) {req : ReqType} (hreq : ReqType.IsDemand req) (m : Mesi) :
    BusLegal { b with prevReqType := req, prevMesi := m, reqType := .flush, evict := true, done := true } := by
  intro hbusy
  obtain ⟨hsrc, -, -, -⟩ := hb hbusy
  exact ⟨hsrc, by simp, by simp, fun _ => ⟨hreq, by simp⟩⟩

/-- An intervention writeback names both cores (rules R156, R158). -/
theorem BusLegal.chainInterv (b : Bus) {req : ReqType} (hreq : ReqType.IsDemand req) (c owner : CoreId) :
    BusLegal { b with
      prevReqType := req, prevCore := some c, srcCore := some owner, reqType := .flush, evict := false,
      done := true } :=
  fun _ => ⟨by simp, by simp, by simp, fun _ => ⟨hreq, by simp⟩⟩

/-- EVICT_DONE restores a demand (rule R160). -/
theorem BusLegal.evictDone {s : State} (hb : BusLegal s.bus) (hflush : s.bus.reqType = .flush) :
    BusLegal (evictDone s).bus := by
  intro hbusy
  obtain ⟨hsrc, -, -, hsaved⟩ := hb hbusy
  exact BusLegal.of_demand (b := (Machine.evictDone s).bus) hsrc (hsaved hflush).1 rfl hbusy

/-- INTERV_DONE restores a demand and its saved requester, or ends the transaction (rule R161). -/
theorem BusLegal.intervDone {s : State} (hb : BusLegal s.bus) (hflush : s.bus.reqType = .flush)
    (hevict : s.bus.evict = false) : BusLegal (intervDone s).bus := by
  unfold Machine.intervDone
  split
  · exact BusLegal.of_available rfl
  · intro hbusy
    obtain ⟨-, -, -, hsaved⟩ := hb hbusy
    obtain ⟨hdemand, hprev⟩ := hsaved hflush
    exact BusLegal.of_demand (b := { s.bus with reqType := _, srcCore := _, done := true }) (hprev hevict) hdemand
      hevict hbusy

/-! ### The rules keep the bus record legal -/

/-- Lines that each keep the bus record legal, run in order. -/
theorem busLegal_seq {fs : List (State → State)} (h : ∀ f ∈ fs, ∀ u, BusLegal u.bus → BusLegal (f u).bus)
    {s : State} (hs : BusLegal s.bus) : BusLegal (seq fs s).bus :=
  seq_induct (fun u => BusLegal u.bus) (fun f hf u _ hu => h f hf u hu) hs

theorem chainEvictFlush_busLegal {c : CoreId} {req : ReqType} (hreq : ReqType.IsDemand req) {s : State}
    (hs : BusLegal s.bus) : BusLegal (chainEvictFlush c req s).bus := by
  refine busLegal_seq ?_ hs
  simp only [List.forall_mem_cons, inc_bus]
  exact ⟨fun u hu => hu.chainEvict hreq _, by simp⟩

theorem chainIntervFlush_busLegal {c owner : CoreId} {req : ReqType} (hreq : ReqType.IsDemand req) {s : State}
    (hs : BusLegal s.bus) : BusLegal (chainIntervFlush c owner req s).bus := by
  refine busLegal_seq ?_ hs
  simp only [List.forall_mem_cons, inc_bus]
  exact ⟨fun u _ => BusLegal.chainInterv u.bus hreq c owner, by simp⟩

theorem victimPrep_busLegal {c : CoreId} {si : Nat} {req : ReqType} (hreq : ReqType.IsDemand req) {s : State}
    (hs : BusLegal s.bus) : BusLegal (victimPrep c si req s).bus := by
  unfold victimPrep
  simp only
  split
  · refine busLegal_seq ?_ hs
    simp only [List.forall_mem_cons, evictVictim_bus, promoteLastSharer_bus]
    refine ⟨fun _ hu => hu, fun _ hu => hu, fun u hu => ?_, by simp⟩
    split
    · exact chainEvictFlush_busLegal hreq hu
    · exact hu
  · exact hs

theorem busRdStart_busLegal {c : CoreId} {si : Nat} {t : Tag} {s : State} (hs : BusLegal s.bus) :
    BusLegal (busRdStart c si t s).bus := by
  unfold busRdStart
  split
  · exact hs
  · refine busLegal_seq ?_ hs
    simp only [List.forall_mem_cons, setHolderMesi_bus]
    exact ⟨fun _ hu => hu, fun _ hu => hu, fun _ hu => hu, by simp⟩

theorem busRdXStart_busLegal {c : CoreId} {si : Nat} {t : Tag} {s : State} (hs : BusLegal s.bus) :
    BusLegal (busRdXStart c si t s).bus := by
  unfold busRdXStart
  split
  · refine busLegal_seq ?_ hs
    simp only [List.forall_mem_cons, invalidateHolders_bus]
    exact ⟨fun _ hu => hu, fun _ hu => hu, by simp⟩
  · refine busLegal_seq ?_ hs
    simp only [List.forall_mem_cons, invalidateHolders_bus, adjustRequester_bus]
    exact ⟨fun _ hu => hu, fun _ hu => chainIntervFlush_busLegal (.inr rfl) hu, fun _ hu => hu, by simp⟩

/-- The last lines of rules R154 and R162: the block is installed and the transaction ends. -/
theorem fill_busLegal {c : CoreId} {si : Nat} {t : Tag} {m : Mesi} {s : State} (hs : BusLegal s.bus) :
    BusLegal (seq [install c si t m, releaseBus] s).bus := by
  refine busLegal_seq ?_ hs
  simp only [List.forall_mem_cons, install_bus]
  exact ⟨fun _ hu => hu, fun _ _ => BusLegal.of_available rfl, by simp⟩

theorem busRdDoneC2C_busLegal {c r : CoreId} {si : Nat} {t : Tag} {s : State} (hs : BusLegal s.bus) :
    BusLegal (busRdDoneC2C c r si t s).bus := by
  refine busLegal_seq ?_ hs
  simp only [List.forall_mem_cons, install_bus, inc_bus]
  refine ⟨fun _ hu => hu, fun _ hu => hu, fun u hu => ?_, by simp⟩
  split
  · exact chainIntervFlush_busLegal (.inl rfl) hu
  · exact BusLegal.of_available rfl

theorem observeBusRd_busLegal {c : CoreId} {a : Addr} {s : State} (hs : BusLegal s.bus) :
    BusLegal (observeBusRd c a s).bus := by
  unfold observeBusRd
  simp only
  split
  · exact hs
  · split
    · split
      · exact victimPrep_busLegal (.inl rfl) hs
      · refine busLegal_seq ?_ hs
        simp only [List.forall_mem_cons]
        exact ⟨fun _ hu => victimPrep_busLegal (.inl rfl) hu, fun _ hu => busRdStart_busLegal hu, by simp⟩
    · split
      · split
        · exact fill_busLegal hs
        · exact busRdDoneC2C_busLegal hs
      · exact hs

theorem observeBusRdX_busLegal {c : CoreId} {a : Addr} {s : State} (hs : BusLegal s.bus) :
    BusLegal (observeBusRdX c a s).bus := by
  unfold observeBusRdX
  simp only
  split
  · exact hs
  · split
    · split
      · exact victimPrep_busLegal (.inr rfl) hs
      · refine busLegal_seq ?_ hs
        simp only [List.forall_mem_cons]
        exact ⟨fun _ hu => victimPrep_busLegal (.inr rfl) hu, fun _ hu => busRdXStart_busLegal hu, by simp⟩
    · split
      · exact fill_busLegal hs
      · exact hs

theorem observeFlushEvict_busLegal {s : State} (hs : BusLegal s.bus) (hflush : s.bus.reqType = .flush) :
    BusLegal (observeFlushEvict s).bus := by
  unfold observeFlushEvict
  split
  · exact hs
  · split
    · exact hs
    · split
      · exact hs.evictDone hflush
      · exact hs

theorem observeFlushInterv_busLegal {s : State} (hs : BusLegal s.bus) (hflush : s.bus.reqType = .flush)
    (hevict : s.bus.evict = false) : BusLegal (observeFlushInterv s).bus := by
  unfold observeFlushInterv
  split
  · exact hs
  · split
    · exact hs
    · split
      · exact hs.intervDone hflush hevict
      · exact hs

/-- An upgrade takes no time on the bus: it stays available (rule R129). -/
theorem busUpgr_available {c : CoreId} {a : Addr} {k : Nat} {s : State} (h : s.bus.available = true) :
    (busUpgr c a k s).bus.available = true := by
  rw [← h]
  exact seq_keeps (fun u => u.bus.available) (by simp) s

theorem issue_busLegal {c : CoreId} {a : Addr} {w : Bool} {s : State} (hs : BusLegal s.bus) :
    BusLegal (issue c a w s).bus := by
  refine busLegal_seq ?_ hs
  simp only [List.forall_mem_cons, inc_bus]
  refine ⟨fun u _ => BusLegal.of_demand (by simp) ?_ rfl, fun _ hu => hu, fun _ hu => hu, fun _ hu => hu,
    fun _ hu => hu, fun _ hu => hu, fun u hu => ?_, by simp⟩
  · cases w
    · exact .inl rfl
    · exact .inr rfl
  · split
    · rwa [inc_bus]
    · exact hu

/-- An access is classified as an upgrade only where the bus is available (rule R128). -/
theorem available_of_classify_upgrade {s : State} {c : CoreId} {a : Addr} {w : Bool} {k : Nat}
    (h : s.classify c a w = .upgrade k) : s.bus.available = true := by
  by_contra hbusy
  simp only [State.classify, hbusy, if_false] at h
  split at h
  · split at h
    · cases h
    · split at h <;> cases h
  · cases h

theorem access_busLegal {c : CoreId} {a : Addr} {w : Bool} {s : State} (hs : BusLegal s.bus) :
    BusLegal (access c a w s).bus := by
  unfold access
  split
  case h_1 => rwa [readHit, completeAccess_bus]
  case h_2 =>
    refine busLegal_seq ?_ hs
    simp
  case h_3 k hk => exact BusLegal.of_available (busUpgr_available (available_of_classify_upgrade hk))
  case h_4 => exact issue_busLegal hs
  case h_5 => rwa [stall_bus]

/-! ### What a command answers -/

theorem exec_prRd {a : Addr} {s : State} (hf : s.faultCode = .fNone) :
    exec (.prRd a) s = .next (access s.turn a false s) := by
  simp [exec, execPrRd, hf]

theorem exec_prWr {a : Addr} {s : State} (hf : s.faultCode = .fNone) :
    exec (.prWr a) s = .next (access s.turn a true s) := by
  simp [exec, execPrWr, hf]

theorem exec_busRd {c : CoreId} {a : Addr} {s : State} (hf : s.faultCode = .fNone) :
    exec (.busRd c a) s = .next (observeBusRd c a s) := by
  simp [exec, execBusRd, hf]

theorem exec_busRdX {c : CoreId} {a : Addr} {s : State} (hf : s.faultCode = .fNone) :
    exec (.busRdX c a) s = .next (observeBusRdX c a s) := by
  simp [exec, execBusRdX, hf]

theorem exec_flushEvict {c : CoreId} {a : Addr} {s : State} (hf : s.faultCode = .fNone) :
    exec (.flushEvict c a) s = .next (observeFlushEvict s) := by
  simp [exec, execFlushEvict, hf]

theorem exec_flushInterv {c : CoreId} {a : Addr} {s : State} (hf : s.faultCode = .fNone) :
    exec (.flushInterv c a) s = .next (observeFlushInterv s) := by
  simp [exec, execFlushInterv, hf]

/-- On a busy bus no command is refused: the one refusal of `exec` is of a BusUpgr that is to be performed (log 10). -/
theorem exec_answers_of_busy {s : State} (hbusy : s.bus.available = false) (i : Instr) :
    ∃ t, exec i s = .next t := by
  cases i with
  | busUpgr c a =>
    simp only [exec, execBusUpgr, hbusy, Bool.false_eq_true, if_false]
    split <;> exact ⟨_, rfl⟩
  | prRd a => exact ⟨_, rfl⟩
  | prWr a => exact ⟨_, rfl⟩
  | busRd c a => exact ⟨_, rfl⟩
  | busRdX c a => exact ⟨_, rfl⟩
  | flushEvict c a => exact ⟨_, rfl⟩
  | flushInterv c a => exact ⟨_, rfl⟩

/-! ### The snoop -/

/-- A busy bus with a legal record names a command (rule R91). -/
theorem command_of_busLegal {b : Bus} (hb : BusLegal b) (hbusy : b.available = false) :
    ∃ c, b.command = some (BusFields.command { x := b.evict, t := b.reqType, c := c, a := b.addr }) := by
  obtain ⟨hsrc, -, -, -⟩ := hb hbusy
  obtain ⟨c, hc⟩ := Option.ne_none_iff_exists'.mp hsrc
  exact ⟨c, by simp [Bus.command, hc]⟩

/-- The command on a busy bus leaves a legal record legal. -/
theorem snooped_busLegal {i : Instr} {s t : State} (hf : s.faultCode = .fNone) (hbusy : s.bus.available = false)
    (hi : s.bus.command = some i) (hs : BusLegal s.bus) (ht : exec i s = .next t) : BusLegal t.bus := by
  obtain ⟨c, hc⟩ := command_of_busLegal hs hbusy
  obtain ⟨-, hupgr, -, -⟩ := hs hbusy
  obtain rfl := Option.some.inj (hi.symm.trans hc)
  cases hreq : s.bus.reqType with
  | busRd =>
    simp only [BusFields.command, hreq, exec_busRd hf] at ht
    cases ht
    exact observeBusRd_busLegal hs
  | busRdX =>
    simp only [BusFields.command, hreq, exec_busRdX hf] at ht
    cases ht
    exact observeBusRdX_busLegal hs
  | busUpgr => exact absurd hreq hupgr
  | flush =>
    cases hevict : s.bus.evict with
    | true =>
      simp only [BusFields.command, hreq, hevict, if_true, exec_flushEvict hf] at ht
      cases ht
      exact observeFlushEvict_busLegal hs hreq
    | false =>
      simp only [BusFields.command, hreq, hevict, Bool.false_eq_true, if_false, exec_flushInterv hf] at ht
      cases ht
      exact observeFlushInterv_busLegal hs hreq hevict

/-- A snoop that starts with a legal bus record is never refused: every iteration finds a command, and leaves a
legal record to the next one. -/
theorem snoopLoop_answers (n : Nat) {s : State} (hf : s.faultCode = .fNone) (hs : BusLegal s.bus) :
    ∃ t, snoopLoop n s = .next t := by
  induction n generalizing s with
  | zero => exact ⟨s, rfl⟩
  | succ n ih =>
    cases hav : s.bus.available with
    | true => exact ⟨s, snoopLoop_available hav⟩
    | false =>
      obtain ⟨c, hi⟩ := command_of_busLegal hs hav
      obtain ⟨t, ht⟩ := exec_answers_of_busy hav _
      rw [snoopLoop_succ hf hav hi, ht]
      simp only
      split
      · rename_i htf
        split
        · exact ih htf (snooped_busLegal hf hav hi hs ht)
        · exact ⟨t, rfl⟩
      · exact ⟨t, rfl⟩

theorem snoop_busLegal {s t : State} (hs : BusLegal s.bus) (ht : snoop s = .next t) : BusLegal t.bus :=
  snoopLoop_induct (fun u => BusLegal u.bus) (fun _ _ _ hf hbusy hi hu hu' => snooped_busLegal hf hbusy hi hu hu') hs ht

/-! ### The core turns -/

theorem coreTurn_answers (c : CoreId) (s : State) : ∃ t, coreTurn c s = .next t := by
  unfold coreTurn
  split
  · exact ⟨_, rfl⟩
  · split
    · exact ⟨_, rfl⟩
    · unfold decodeReq
      split <;> exact ⟨_, rfl⟩

theorem coreTurn_busLegal {c : CoreId} {s t : State} (hf : s.faultCode = .fNone) (hs : BusLegal s.bus)
    (ht : coreTurn c s = .next t) : BusLegal t.bus := by
  have hf' : ({ s with turn := c } : State).faultCode = .fNone := hf
  have hs' : BusLegal ({ s with turn := c } : State).bus := hs
  obtain ⟨-, rfl⟩ | ⟨-, -, rfl⟩ | ⟨a, -, -, hrd | hwr⟩ := coreTurn_cases ht
  · exact hs
  · exact hs
  · rw [exec_prRd hf'] at hrd
    cases hrd
    exact access_busLegal hs'
  · rw [exec_prWr hf'] at hwr
    cases hwr
    exact access_busLegal hs'

/-! ### The tick -/

/-- Stages that answer where `P` holds, and keep it, answer together. -/
theorem stages_answer (P : State → Prop) {fs : List (State → Answer)}
    (h : ∀ f ∈ fs, ∀ s, s.faultCode = .fNone → P s → ∃ t, f s = .next t ∧ P t) {s : State} (hs : P s) :
    ∃ t, stages fs s = .next t := by
  induction fs generalizing s with
  | nil => exact ⟨s, rfl⟩
  | cons f fs ih =>
    by_cases hf : s.faultCode = .fNone
    · obtain ⟨s1, h1, hP⟩ := h f (List.mem_cons_self ..) s hf hs
      obtain ⟨t, ht⟩ := ih (fun f' hf' => h f' (List.mem_cons_of_mem _ hf')) hP
      exact ⟨t, (stages_cons_eq_next hf).mpr ⟨s1, h1, ht⟩⟩
    · exact ⟨s, stages_of_faulted hf⟩

/-- A tick that starts with a legal bus record answers a next state. -/
theorem tick_answers {s : State} (hs : BusLegal s.bus) : ∃ t, tick s = .next t := by
  have hsnoop : ∀ u, u.faultCode = .fNone → BusLegal u.bus → ∃ t, snoop u = .next t ∧ BusLegal t.bus :=
    fun u hf hu => (snoopLoop_answers 3 hf hu).imp fun t ht => ⟨ht, snoop_busLegal hu ht⟩
  have hturn : ∀ c u, u.faultCode = .fNone → BusLegal u.bus → ∃ t, coreTurn c u = .next t ∧ BusLegal t.bus :=
    fun c u hf hu => (coreTurn_answers c u).imp fun t ht => ⟨ht, coreTurn_busLegal hf hu ht⟩
  refine stages_answer (fun u => BusLegal u.bus) ?_ hs
  simp only [List.forall_mem_cons]
  exact ⟨hsnoop, hturn 0, hturn 1, hturn 2, hturn 3, fun u _ hu => ⟨endCorePass u, rfl, hu⟩, hsnoop,
    fun u _ hu => ⟨countdown u, rfl, hu⟩, fun u _ hu => ⟨inc .globalCycle 1 u, rfl, by rwa [inc_bus]⟩,
    fun u _ hu => ⟨checkInvariants u, rfl, by rwa [checkInvariants_bus]⟩, by simp⟩

/-- Settles O54: of the shape a step needs the legal configuration, without which it faults, and the legal bus
record, with which its tick is never refused. -/
theorem shapedStatesStep : Obligations.ShapedStatesStep := by
  unfold Obligations.ShapedStatesStep
  rintro s ⟨hcfg, -, -, -, hbus⟩
  simp only [step, advance, hcfg, if_true]
  split
  · exact tick_answers hbus
  · exact ⟨s, rfl⟩

end Machine

end Sys2Proof
end

section
/-! PROOFS. What a stopped block, the reset and every command keep: the stopped block stays (O43), the values of
reset (O51), the configuration and the traces (O60). -/

namespace Sys2Proof.Machine

/-! ### A stopped block -/

theorem ticking_of_faulted {s : State} (h : s.faultCode ≠ .fNone) : s.ticking = false := by
  rw [← Bool.not_eq_true, ticking_iff]
  exact fun ht => h ht.1

theorem ticking_of_ended {s : State} (h : s.activeCores = 0) : s.ticking = false := by
  rw [← Bool.not_eq_true, ticking_iff]
  exact fun ht => ht.2 h

theorem step_of_not_ticking {s : State} (hcfg : s.cfg.legal = true) (h : s.ticking = false) : step s = .next s := by
  simp [step, advance, hcfg, h]

/-- A frozen block runs no command (log 19): six meanings are a rule run by `seq`, and BusUpgr asks first. -/
theorem exec_of_faulted {s : State} (h : s.faultCode ≠ .fNone) (i : Instr) : exec i s = .next s := by
  cases i with
  | busUpgr c a => simp [exec, execBusUpgr, h]
  | prRd a => simp [exec, execPrRd, h]
  | prWr a => simp [exec, execPrWr, h]
  | busRd c a => simp [exec, execBusRd, h]
  | busRdX c a => simp [exec, execBusRdX, h]
  | flushEvict c a => simp [exec, execFlushEvict, h]
  | flushInterv c a => simp [exec, execFlushInterv, h]

/-- Settles O43: no tick is taken with a fault or with no active core, and no command runs in a frozen state. -/
theorem stoppedBlockStays : Obligations.StoppedBlockStays := by
  unfold Obligations.StoppedBlockStays
  refine fun s => ⟨fun hcfg hstop => ?_, exec_of_faulted⟩
  obtain hfault | hended := hstop
  · exact step_of_not_ticking hcfg (ticking_of_faulted hfault)
  · exact step_of_not_ticking hcfg (ticking_of_ended hended)

/-! ### Reset -/

/-- No set is listed after reset, so every way of every set reads as the reset line (rule R23). -/
theorem lineAt_resetWith (cfg : Config) (tr : Quad (List ReqWord)) (c : CoreId) (si w : Nat) (hw : w < cfg.E) :
    (State.resetWith cfg tr).lineAt c si w = some Line.reset := by
  have hlines : (State.resetWith cfg tr).setLines c si = resetSet cfg.E := by
    simp [State.setLines, State.resetWith, readSet]
  rw [State.lineAt, hlines, resetSet, List.getElem?_replicate_of_lt hw]

/-- Settles O51: the tag arrays are read through `lineAt_resetWith`, every other value stands in `resetWith`. -/
theorem resetValues : Obligations.ResetValues := by
  unfold Obligations.ResetValues
  rintro cfg tr s rfl
  have hcore : ∀ c, ((State.resetWith cfg tr).cache.get c).lruCtr = 0 ∧
      (∀ n, ((State.resetWith cfg tr).stats.get c).read n = 0) ∧ (State.resetWith cfg tr).pc.get c = 0 ∧
      (State.resetWith cfg tr).coreDone.get c = false := by
    intro c
    refine ⟨by simp [State.resetWith], fun n => ?_, by simp [State.resetWith], by simp [State.resetWith]⟩
    cases n <;> simp [State.resetWith, Stats.reset, Stats.read]
  exact ⟨rfl, rfl, rfl, rfl, rfl, rfl, lineAt_resetWith cfg tr, hcore, rfl, rfl, rfl, rfl, rfl, rfl⟩

/-! ### What no command writes -/

/-- What is loaded before a run, and the core sequencing that only a retirement writes. -/
def SameProgram (s u : State) : Prop :=
  (u.cfg = s.cfg ∧ u.traces = s.traces) ∧ u.coreDone = s.coreDone ∧ u.activeCores = s.activeCores

theorem sameProgram_kept (s : State) : Kept (SameProgram s) where
  inc x k u _ hu := by simpa [SameProgram] using hu
  line c si w f u _ hu := hu
  bus b u hu := hu
  pc c u hu := hu
  dec c u hu := by simpa [SameProgram] using hu
  raise code u hu := by simpa [SameProgram] using hu

/-- No command writes the configuration, a trace, `core_done` or `active_cores`. -/
theorem exec_sameProgram {i : Instr} {s t : State} (h : exec i s = .next t) : SameProgram s t :=
  (sameProgram_kept s).exec ⟨⟨rfl, rfl⟩, rfl, rfl⟩ h

theorem checkInvariants_eq_or_raise (s : State) :
    checkInvariants s = s ∨ ∃ code, checkInvariants s = raise code s :=
  (checkInvariants_cases s).imp And.left fun ⟨code, _, h⟩ => ⟨code, h⟩

@[simp] theorem checkInvariants_cfg (s : State) : (checkInvariants s).cfg = s.cfg := by
  obtain h | ⟨code, h⟩ := checkInvariants_eq_or_raise s <;> simp [h]

@[simp] theorem checkInvariants_traces (s : State) : (checkInvariants s).traces = s.traces := by
  obtain h | ⟨code, h⟩ := checkInvariants_eq_or_raise s <;> simp [h]

@[simp] theorem checkInvariants_cache (s : State) : (checkInvariants s).cache = s.cache := by
  obtain h | ⟨code, h⟩ := checkInvariants_eq_or_raise s <;> simp [h]

@[simp] theorem checkInvariants_stats (s : State) : (checkInvariants s).stats = s.stats := by
  obtain h | ⟨code, h⟩ := checkInvariants_eq_or_raise s <;> simp [h]

@[simp] theorem checkInvariants_pc (s : State) : (checkInvariants s).pc = s.pc := by
  obtain h | ⟨code, h⟩ := checkInvariants_eq_or_raise s <;> simp [h]

@[simp] theorem checkInvariants_coreDone (s : State) : (checkInvariants s).coreDone = s.coreDone := by
  obtain h | ⟨code, h⟩ := checkInvariants_eq_or_raise s <;> simp [h]

@[simp] theorem checkInvariants_activeCores (s : State) : (checkInvariants s).activeCores = s.activeCores := by
  obtain h | ⟨code, h⟩ := checkInvariants_eq_or_raise s <;> simp [h]

theorem coreTurn_keeps_cfg_traces {c : CoreId} {s t : State} (h : coreTurn c s = .next t) :
    t.cfg = s.cfg ∧ t.traces = s.traces := by
  obtain ⟨-, rfl⟩ | ⟨-, -, rfl⟩ | ⟨a, -, -, hrd | hwr⟩ := coreTurn_cases h
  · exact ⟨rfl, rfl⟩
  · exact ⟨rfl, rfl⟩
  · exact (exec_sameProgram hrd).1
  · exact (exec_sameProgram hwr).1

theorem step_keeps_cfg_traces {s t : State} (h : step s = .next t) : t.cfg = s.cfg ∧ t.traces = s.traces := by
  refine step_induct (fun u => u.cfg = s.cfg ∧ u.traces = s.traces) ?cmd ?turn ?_ ?_ ?_ ?_ ⟨rfl, rfl⟩ h
  case cmd =>
    intro i u v _ _ _ hu he
    obtain ⟨⟨hcfg, htr⟩, -⟩ := exec_sameProgram he
    exact ⟨hcfg.trans hu.1, htr.trans hu.2⟩
  case turn =>
    intro c u v _ hu hv
    obtain ⟨hcfg, htr⟩ := coreTurn_keeps_cfg_traces hv
    exact ⟨hcfg.trans hu.1, htr.trans hu.2⟩
  all_goals
    intro u _ hu
    simpa using hu

/-- Settles O60: no command writes them, and a tick is made of commands and of stages that write other fields. -/
theorem configurationAndTracesStay : Obligations.ConfigurationAndTracesStay := by
  unfold Obligations.ConfigurationAndTracesStay
  rintro s t (hstep | ⟨i, hexec⟩)
  · exact step_keeps_cfg_traces hstep
  · exact (exec_sameProgram hexec).1

end Sys2Proof.Machine
end

section
/-! PROOFS. What a step does to each core's account: its program counter, its instruction count and the ticks
charged to it. No bus command moves the first two, and a core's turn moves them for that core alone, together. From
this follow the shape of the state (O53), and that program counters advance one at a time (O59) and counters never
decrease (O58). -/

namespace Sys2Proof.Machine

/-! ### The account of a core -/

/-- Core `c`'s program counter and instruction count. -/
def State.progress (s : State) (c : CoreId) : Nat × Count := (s.pc.get c, (s.stats.get c).totalInstructions)

/-- The ticks charged to core `c`, as `total_cycles` or `idle_cycles` (rule R138). -/
def State.ticksCharged (s : State) (c : CoreId) : Nat :=
  (s.stats.get c).totalCycles.toNat + (s.stats.get c).idleCycles.toNat

/-- Core `c`'s progress, and the ticks charged to it. -/
def State.account (s : State) (c : CoreId) : (Nat × Count) × Nat := (s.progress c, s.ticksCharged c)

theorem progress_of_account {s u : State} {c : CoreId} (h : u.account c = s.account c) :
    u.progress c = s.progress c := congrArg Prod.fst h

theorem ticksCharged_of_account {s u : State} {c : CoreId} (h : u.account c = s.account c) :
    u.ticksCharged c = s.ticksCharged c := congrArg Prod.snd h

/-- The counter is one that the account of some core reads. -/
def Counter.InAccount (x : Counter) : Prop :=
  ∃ c, x = .stat c .totalInstructions ∨ x = .stat c .totalCycles ∨ x = .stat c .idleCycles

theorem account_congr {s u : State} (hpc : u.pc = s.pc) (hstats : u.stats = s.stats) : u.account = s.account := by
  funext c
  simp [State.account, State.progress, State.ticksCharged, hpc, hstats]

@[simp] theorem account_setBus (s : State) (b : Bus) : ({ s with bus := b } : State).account = s.account := rfl

@[simp] theorem account_setTurn (s : State) (c : CoreId) : ({ s with turn := c } : State).account = s.account := rfl

@[simp] theorem account_raise (code : FaultCode) (s : State) : (raise code s).account = s.account :=
  account_congr (by simp) (by simp)

@[simp] theorem account_modifyLine (c : CoreId) (si w : Nat) (f : Line → Line) (s : State) :
    (modifyLine c si w f s).account = s.account := rfl

@[simp] theorem account_setMesi (c : CoreId) (si w : Nat) (m : Mesi) (s : State) :
    (setMesi c si w m s).account = s.account := rfl

@[simp] theorem account_setHolderMesi (c : CoreId) (si : Nat) (t : Tag) (m : Mesi) (s : State) :
    (setHolderMesi c si t m s).account = s.account := account_congr (by simp) (by simp)

theorem account_setCounter {x : Counter} (hx : ¬ x.InAccount) (v : Count) (s : State) :
    (s.setCounter x v).account = s.account := by
  cases x with
  | stat c' n =>
    funext c
    by_cases hc : c = c'
    · subst hc
      cases n <;>
        simp_all [State.account, State.progress, State.ticksCharged, State.setCounter, Stats.write, Counter.InAccount]
    · simp [State.account, State.progress, State.ticksCharged, State.setCounter, hc]
  | _ => rfl

@[simp] theorem account_inc {x : Counter} (hx : ¬ x.InAccount) (k : Nat) (s : State) :
    (inc x k s).account = s.account := by
  unfold inc
  split
  · exact account_setCounter hx _ s
  · exact account_raise _ s

/-- A counter of one core is in no other core's account. -/
theorem account_inc_ne {c c' : CoreId} (h : c' ≠ c) (n : StatName) (k : Nat) (s : State) :
    (inc (.stat c n) k s).account c' = s.account c' := by
  unfold inc
  split
  · simp [State.account, State.progress, State.ticksCharged, State.setCounter, h]
  · simp

theorem account_advancePc_ne {c c' : CoreId} (h : c' ≠ c) (s : State) :
    (advancePc c s).account c' = s.account c' := by
  simp [State.account, State.progress, State.ticksCharged, advancePc, h]

/-! ### The rules that leave every account alone -/

@[simp] theorem account_touch (c : CoreId) (si w : Nat) (s : State) : (touch c si w s).account = s.account :=
  account_congr (by simp) (by simp)

@[simp] theorem account_install (c : CoreId) (si : Nat) (t : Tag) (m : Mesi) (s : State) :
    (install c si t m s).account = s.account := seq_keeps State.account (by simp) s

@[simp] theorem account_evictVictim (c : CoreId) (si v : Nat) (s : State) :
    (evictVictim c si v s).account = s.account := seq_keeps State.account (by simp [Counter.InAccount]) s

@[simp] theorem account_promoteLastSharer (sh : List CoreId) (si : Nat) (t : Tag) (s : State) :
    (promoteLastSharer sh si t s).account = s.account := by
  unfold promoteLastSharer
  split <;> simp

@[simp] theorem account_chainEvictFlush (c : CoreId) (req : ReqType) (s : State) :
    (chainEvictFlush c req s).account = s.account := seq_keeps State.account (by simp [Counter.InAccount]) s

@[simp] theorem account_chainIntervFlush (c owner : CoreId) (req : ReqType) (s : State) :
    (chainIntervFlush c owner req s).account = s.account :=
  seq_keeps State.account (by simp [Counter.InAccount]) s

@[simp] theorem account_victimPrep (c : CoreId) (si : Nat) (req : ReqType) (s : State) :
    (victimPrep c si req s).account = s.account := by
  unfold victimPrep
  simp only
  split
  · refine seq_keeps State.account ?_ s
    simp only [List.forall_mem_cons]
    refine ⟨by simp, by simp, fun u => ?_, by simp⟩
    split
    · exact account_chainEvictFlush _ _ u
    · rfl
  · rfl

@[simp] theorem account_busRdStart (c : CoreId) (si : Nat) (t : Tag) (s : State) :
    (busRdStart c si t s).account = s.account := by
  unfold busRdStart
  split
  · rfl
  · exact seq_keeps State.account (by simp) s

@[simp] theorem account_releaseBus (s : State) : (releaseBus s).account = s.account := rfl

@[simp] theorem account_busRdXStartMem (s : State) : (busRdXStartMem s).account = s.account := rfl

@[simp] theorem account_busRdDoneMem (c : CoreId) (si : Nat) (t : Tag) (s : State) :
    (busRdDoneMem c si t s).account = s.account := seq_keeps State.account (by simp) s

@[simp] theorem account_busRdXDone (c : CoreId) (si : Nat) (t : Tag) (s : State) :
    (busRdXDone c si t s).account = s.account := seq_keeps State.account (by simp) s

@[simp] theorem account_busRdDoneC2C (c r : CoreId) (si : Nat) (t : Tag) (s : State) :
    (busRdDoneC2C c r si t s).account = s.account := by
  refine seq_keeps State.account ?_ s
  simp only [List.forall_mem_cons]
  refine ⟨by simp, by simp [Counter.InAccount], fun u => ?_, by simp⟩
  split
  · exact account_chainIntervFlush _ _ _ u
  · rfl

@[simp] theorem account_invalidateHolders (c : CoreId) (si : Nat) (t : Tag) (s : State) :
    (invalidateHolders c si t s).account = s.account :=
  seq_keeps State.account (List.forall_mem_map.mpr (by simp)) s

@[simp] theorem account_snoopUpgr (c : CoreId) (si : Nat) (t : Tag) (s : State) :
    (snoopUpgr c si t s).account = s.account := by
  refine seq_keeps State.account (List.forall_mem_map.mpr fun c' _ u => ?_) s
  unfold snoopUpgrAt
  split <;> simp

@[simp] theorem account_observeBusRd (c : CoreId) (a : Addr) (s : State) :
    (observeBusRd c a s).account = s.account := by
  unfold observeBusRd
  simp only
  split
  · rfl
  · split
    · split
      · simp
      · exact seq_keeps State.account (by simp) s
    · split
      · split <;> simp
      · rfl

@[simp] theorem account_observeFlushEvict (s : State) : (observeFlushEvict s).account = s.account := by
  unfold observeFlushEvict
  split
  · rfl
  · split
    · rfl
    · split <;> rfl

@[simp] theorem account_observeFlushInterv (s : State) : (observeFlushInterv s).account = s.account := by
  unfold observeFlushInterv
  split
  · rfl
  · split
    · rfl
    · split
      · exact account_congr (by simp) (by simp)
      · rfl

/-! ### Accounts under BusRdX, whose adjustment moves one tick -/

/-- An adjustment that raises no fault moves one tick from `total_cycles` to `idle_cycles` (rule R158). -/
theorem adjustRequester_of_unfaulted {c : CoreId} {s : State} (h : (adjustRequester c s).faultCode = .fNone) :
    (s.stats.get c).totalCycles ≠ 0 ∧ HasRoom s (.stat c .idleCycles) 1 ∧
      adjustRequester c s =
        (s.setCounter (.stat c .totalCycles) ((s.stats.get c).totalCycles - 1)).setCounter (.stat c .idleCycles)
          ((s.stats.get c).idleCycles + 1) := by
  unfold adjustRequester at h ⊢
  split at h
  case isTrue hzero =>
    by_cases hs : s.faultCode = .fNone
    · simp [raise_of_running _ hs] at h
    · exact absurd (by simpa [raise_of_faulted _ hs] using h) hs
  case isFalse hpos =>
    rw [if_neg hpos]
    obtain ⟨-, -, hdec⟩ := seq_cons_of_unfaulted h
    rw [hdec] at h ⊢
    obtain ⟨-, hinc, hseq⟩ := seq_cons_of_unfaulted h
    obtain ⟨hroom, -, hadd⟩ := inc_of_unfaulted hinc
    have hne : Counter.stat c .idleCycles ≠ .stat c .totalCycles := by simp
    rw [hseq, seq_nil, hadd, State.counter_setCounter_ne _ _ hne]
    exact ⟨hpos, (hasRoom_setCounter_ne hne).mp hroom, rfl⟩

/-- The adjustment leaves the sum of the two counters alone, unless it ends in a fault. -/
theorem account_adjustRequester {c : CoreId} {s : State} (h : (adjustRequester c s).faultCode = .fNone) :
    (adjustRequester c s).account = s.account := by
  obtain ⟨hpos, hroom, heq⟩ := adjustRequester_of_unfaulted h
  rw [heq]
  funext c'
  by_cases hc : c' = c
  · subst hc
    simp only [HasRoom, State.counter, Stats.read] at hroom
    simp only [State.account, State.progress, State.ticksCharged, State.setCounter, Stats.write, Quad.get_set_self,
      Prod.mk.injEq, true_and]
    bv_omega
  · simp [State.account, State.progress, State.ticksCharged, State.setCounter, hc]

theorem progress_setCounter {x : Counter} (hx : ∀ c, x ≠ .stat c .totalInstructions) (v : Count) (s : State) :
    (s.setCounter x v).progress = s.progress := by
  funext c
  have hcount := State.counter_setCounter_ne s v (hx c).symm
  simp only [State.counter, Stats.read] at hcount
  simp [State.progress, hcount]

theorem progress_inc {x : Counter} (hx : ∀ c, x ≠ .stat c .totalInstructions) (k : Nat) (s : State) :
    (inc x k s).progress = s.progress := by
  unfold inc
  split
  · exact progress_setCounter hx _ s
  · funext c
    simp [State.progress]

theorem progress_adjustRequester (c : CoreId) (s : State) : (adjustRequester c s).progress = s.progress := by
  unfold adjustRequester
  split
  · funext c'
    simp [State.progress]
  · refine seq_keeps State.progress ?_ s
    simp only [List.forall_mem_cons]
    exact ⟨fun u => progress_setCounter (by simp) _ u, fun u => progress_inc (by simp) _ u, by simp⟩

/-- BusRdX moves no program counter and counts no instruction. -/
theorem progress_busRdXStart (c : CoreId) (si : Nat) (t : Tag) (s : State) :
    (busRdXStart c si t s).progress = s.progress := by
  unfold busRdXStart
  split
  · refine seq_keeps State.progress ?_ s
    simp only [List.forall_mem_cons]
    exact ⟨fun u => funext fun c' => progress_of_account (by simp), fun _ => rfl, by simp⟩
  · refine seq_keeps State.progress ?_ s
    simp only [List.forall_mem_cons]
    exact ⟨fun u => funext fun c' => progress_of_account (by simp),
      fun u => funext fun c' => progress_of_account (by simp), progress_adjustRequester c, by simp⟩

theorem account_busRdXStart {c : CoreId} {si : Nat} {t : Tag} {s : State}
    (h : (busRdXStart c si t s).faultCode = .fNone) : (busRdXStart c si t s).account = s.account := by
  revert h
  unfold busRdXStart
  split
  · exact fun _ => seq_keeps State.account (by simp) s
  · refine seq_induct (fun u => u.faultCode = .fNone → u.account = s.account) ?_ fun _ => rfl
    simp only [List.forall_mem_cons]
    exact ⟨fun u hu hP _ => by simpa using hP hu, fun u hu hP _ => by simpa using hP hu,
      fun u hu hP h => (account_adjustRequester h).trans (hP hu), by simp⟩

theorem progress_observeBusRdX (c : CoreId) (a : Addr) (s : State) :
    (observeBusRdX c a s).progress = s.progress := by
  have hprep : ∀ si u, (victimPrep c si .busRdX u).progress = u.progress :=
    fun si u => funext fun c' => progress_of_account (by simp)
  unfold observeBusRdX
  simp only
  split
  · rfl
  · split
    · split
      · exact hprep _ s
      · refine seq_keeps State.progress ?_ s
        simp only [List.forall_mem_cons]
        exact ⟨hprep _, progress_busRdXStart _ _ _, by simp⟩
    · split
      · exact funext fun c' => progress_of_account (by simp)
      · rfl

theorem account_observeBusRdX {c : CoreId} {a : Addr} {s : State}
    (h : (observeBusRdX c a s).faultCode = .fNone) : (observeBusRdX c a s).account = s.account := by
  revert h
  unfold observeBusRdX
  simp only
  split
  · exact fun _ => rfl
  · split
    · split
      · exact fun _ => account_victimPrep _ _ _ s
      · refine seq_induct (fun u => u.faultCode = .fNone → u.account = s.account) ?_ fun _ => rfl
        simp only [List.forall_mem_cons]
        exact ⟨fun u hu hP _ => by simpa using hP hu,
          fun u hu hP h => (account_busRdXStart h).trans (hP hu), by simp⟩
    · split
      · exact fun _ => account_busRdXDone _ _ _ s
      · exact fun _ => rfl

/-! ### Accounts under a snooped command -/

/-- On a busy bus a BusUpgr is illegal (rule R164). -/
theorem exec_busUpgr_of_busy {c : CoreId} {a : Addr} {s : State} (hf : s.faultCode = .fNone)
    (hbusy : s.bus.available = false) : exec (.busUpgr c a) s = .next (raise .fBusState s) := by
  simp [exec, execBusUpgr, hf, hbusy]

/-- A snoop runs no processor request: the bus record names a bus command (rule R91). -/
theorem command_ne_request {b : Bus} {i : Instr} (h : b.command = some i) (a : Addr) :
    i ≠ .prRd a ∧ i ≠ .prWr a := by
  have hfields : ∀ f : BusFields, f.command ≠ .prRd a ∧ f.command ≠ .prWr a := by
    intro f
    cases ht : f.t with
    | flush => cases hx : f.x <;> simp [BusFields.command, ht, hx]
    | _ => simp [BusFields.command, ht]
  unfold Bus.command at h
  split at h
  · cases h
    exact hfields _
  · split at h
    · cases h
    · cases h
      exact hfields _

/-- A snooped command moves no program counter and counts no instruction; where it raises no fault it leaves every
account alone. -/
theorem snooped_account {i : Instr} {s t : State} (hf : s.faultCode = .fNone) (hbusy : s.bus.available = false)
    (hi : s.bus.command = some i) (ht : exec i s = .next t) :
    t.progress = s.progress ∧ (t.faultCode = .fNone → t.account = s.account) := by
  have hsame : t.account = s.account → t.progress = s.progress ∧ (t.faultCode = .fNone → t.account = s.account) :=
    fun h => ⟨funext fun c => progress_of_account (congrFun h c), fun _ => h⟩
  cases i with
  | prRd a => exact absurd rfl (command_ne_request hi a).1
  | prWr a => exact absurd rfl (command_ne_request hi a).2
  | busRd c a =>
    rw [exec_busRd hf] at ht
    cases ht
    exact hsame (account_observeBusRd c a s)
  | busRdX c a =>
    rw [exec_busRdX hf] at ht
    cases ht
    exact ⟨progress_observeBusRdX c a s, account_observeBusRdX⟩
  | busUpgr c a =>
    rw [exec_busUpgr_of_busy hf hbusy] at ht
    cases ht
    exact hsame (account_raise _ s)
  | flushEvict c a =>
    rw [exec_flushEvict hf] at ht
    cases ht
    exact hsame (account_observeFlushEvict s)
  | flushInterv c a =>
    rw [exec_flushInterv hf] at ht
    cases ht
    exact hsame (account_observeFlushInterv s)

/-! ### Accounts under an access -/

/-- Two runs of lines, one after the other. -/
theorem seq_append (fs gs : List (State → State)) (s : State) : seq (fs ++ gs) s = seq gs (seq fs s) := by
  induction fs generalizing s with
  | nil => rfl
  | cons f fs ih =>
    by_cases hs : s.faultCode = .fNone
    · rw [List.cons_append, seq_cons hs, seq_cons hs, ih]
    · simp [hs]

theorem account_completeAccess_ne {c c' : CoreId} (h : c' ≠ c) (si k : Nat) (kind : StatName) (s : State) :
    (completeAccess c si k kind s).account c' = s.account c' := by
  refine seq_keeps (fun u => u.account c') ?_ s
  simp only [List.forall_mem_cons]
  exact ⟨by simp, account_inc_ne h _ _, account_inc_ne h _ _, account_inc_ne h _ _, account_advancePc_ne h, by simp⟩

/-- An access by core `c` leaves the accounts of the other cores alone. -/
theorem account_access_ne {c c' : CoreId} (h : c' ≠ c) (a : Addr) (w : Bool) (s : State) :
    (access c a w s).account c' = s.account c' := by
  unfold access
  split
  · exact account_completeAccess_ne h _ _ _ s
  · refine seq_keeps (fun u => u.account c') ?_ s
    simp only [List.forall_mem_cons]
    exact ⟨by simp, account_completeAccess_ne h _ _ _, by simp⟩
  · refine seq_keeps (fun u => u.account c') ?_ s
    simp only [List.forall_mem_cons]
    exact ⟨by simp, by simp, account_inc_ne h _ _, by simp [Counter.InAccount], by simp,
      account_completeAccess_ne h _ _ _, by simp⟩
  · refine seq_keeps (fun u => u.account c') ?_ s
    simp only [List.forall_mem_cons]
    refine ⟨by simp, account_inc_ne h _ _, account_inc_ne h _ _, account_inc_ne h _ _, by simp [Counter.InAccount],
      by simp [Counter.InAccount], fun u => ?_, by simp⟩
    split
    · exact account_inc_ne h _ _ u
    · rfl
  · unfold stall
    split <;> exact account_inc_ne h _ _ s

/-- Core `c`'s program counter stays, or advances by 1 with one instruction counted (rule R45). -/
def PcAdvances (s u : State) (c : CoreId) : Prop :=
  u.pc.get c = s.pc.get c ∨
    u.pc.get c = s.pc.get c + 1 ∧ (u.stats.get c).totalInstructions = (s.stats.get c).totalInstructions + 1

theorem PcAdvances.congr_left {s s' u : State} {c : CoreId} (h : PcAdvances s' u c)
    (hs : s'.progress c = s.progress c) : PcAdvances s u c := by
  simp only [State.progress, Prod.mk.injEq] at hs
  simpa only [PcAdvances, hs.1, hs.2] using h

theorem completeAccess_advances {c : CoreId} {si k : Nat} {kind : StatName} {s : State}
    (hk : kind = .totalReads ∨ kind = .totalWrites) (hs : s.faultCode = .fNone) :
    PcAdvances s (completeAccess c si k kind s) c := by
  by_cases hr : HasRooms s (completionCounters c kind)
  · rw [completeAccess_of_room hk hs hr]
    exact .inr ⟨by simp, by simp [Stats.write]⟩
  · rw [PcAdvances, (completeAccess_of_full hk hs hr).2]
    exact .inl rfl

/-- A rule whose lines before the completion of the access leave the accounts alone. -/
theorem seq_completeAccess_advances {fs : List (State → State)} {c : CoreId} {si k : Nat} {kind : StatName}
    {s : State} (hk : kind = .totalReads ∨ kind = .totalWrites)
    (hfs : ∀ f ∈ fs, ∀ u, (f u).progress = u.progress) :
    PcAdvances s (seq (fs ++ [completeAccess c si k kind]) s) c := by
  have hpre : (seq fs s).progress = s.progress := seq_keeps State.progress hfs s
  rw [seq_append]
  by_cases hf : (seq fs s).faultCode = .fNone
  · rw [seq_singleton hf]
    exact (completeAccess_advances hk hf).congr_left (congrFun hpre c)
  · rw [seq_of_faulted hf]
    exact .inl (congrArg Prod.fst (congrFun hpre c))

/-- An access moves its core's program counter only by completing, and then by 1 with one instruction counted. -/
theorem access_advances (c : CoreId) (a : Addr) (w : Bool) {s : State} (hs : s.faultCode = .fNone) :
    PcAdvances s (access c a w s) c := by
  unfold access
  split
  · exact completeAccess_advances (.inl rfl) hs
  · refine seq_completeAccess_advances (fs := [_]) (.inr rfl) fun f hf u => ?_
    rw [List.mem_singleton.mp hf]
    rfl
  · refine seq_completeAccess_advances (fs := [_, _, _, _, _]) (.inr rfl) ?_
    simp only [List.forall_mem_cons]
    exact ⟨fun _ => rfl, fun u => funext fun c' => progress_of_account (by simp), progress_inc (by simp) _,
      progress_inc (by simp) _, fun _ => rfl, by simp⟩
  · refine .inl (congrArg (fun q => Quad.get q c) (seq_keeps State.pc ?_ s))
    simp only [List.forall_mem_cons]
    refine ⟨by simp, by simp, by simp, by simp, by simp, by simp, fun u => ?_, by simp⟩
    split <;> simp
  · unfold stall
    split <;> exact .inl (by simp)

end Sys2Proof.Machine
end

section
/-! PROOFS. The shape of the state (O53), program counters (O59) and counters (O58) over a step. -/

namespace Sys2Proof.Machine

/-! ### The shape -/

theorem arraysShaped_kept : Kept ArraysShaped where
  inc x k s _ hs := hs.congr (by simp) (by simp)
  line c si w f s hsi hs := hs.modifyLine c w f hsi
  bus b s hs := hs
  pc c s hs := hs
  dec c s hs := hs.congr (by simp) (by simp)
  raise code s hs := hs.congr (by simp) (by simp)

theorem activeCount_retire {q : Quad Bool} {c : CoreId} (h : q.get c = false) :
    activeCount (q.set c true) = activeCount q - 1 := by
  obtain ⟨b0, b1, b2, b3⟩ := q
  revert h
  fin_cases c <;> revert b0 b1 b2 b3 <;> decide

theorem coresCounted_retire {c : CoreId} {s : State} (hs : CoresCounted s) (hactive : s.coreDone.get c = false)
    (hend : (s.traces.get c).length ≤ s.pc.get c) : CoresCounted (retire c s) := by
  obtain ⟨hcount, hpc⟩ := hs
  refine ⟨?_, fun c' => ⟨(hpc c').1, fun hdone => ?_⟩⟩
  · simp [retire, activeCount_retire hactive, hcount]
  · by_cases hc : c' = c
    · subst hc
      exact le_antisymm (hpc c').1 hend
    · exact (hpc c').2 (by simpa [retire, hc] using hdone)

/-- What leaves the program alone and keeps every program counter within its trace keeps the cores counted. -/
theorem CoresCounted.of_sameProgram {s u : State} (hs : CoresCounted s) (hprog : SameProgram s u)
    (hpc : ∀ c, u.pc.get c = s.pc.get c ∨
      u.pc.get c = s.pc.get c + 1 ∧ s.coreDone.get c = false ∧ s.pc.get c < (s.traces.get c).length) :
    CoresCounted u := by
  obtain ⟨⟨-, htr⟩, hdone, hactive⟩ := hprog
  obtain ⟨hcount, hwithin⟩ := hs
  refine ⟨by rw [hactive, hdone, hcount], fun c => ?_⟩
  rw [htr, hdone]
  obtain hstay | ⟨hadv, hrunning, hlt⟩ := hpc c
  · rw [hstay]
    exact hwithin c
  · rw [hadv]
    exact ⟨hlt, fun h => absurd h (by simp [hrunning])⟩

/-- What a command has to keep for the shape, the rest being kept by every command. -/
theorem Shaped.of_exec {i : Instr} {s t : State} (hs : Shaped s) (ht : exec i s = .next t)
    (hcores : CoresCounted t) (hbus : BusLegal t.bus) : Shaped t := by
  obtain ⟨hcfg, htr, harr, -, -⟩ := hs
  obtain ⟨⟨hcfg', htr'⟩, -⟩ := exec_sameProgram ht
  exact ⟨by rwa [hcfg'], by rwa [htr'], arraysShaped_kept.exec harr ht, hcores, hbus⟩

theorem Shaped.snooped {i : Instr} {s t : State} (hs : Shaped s) (hf : s.faultCode = .fNone)
    (hbusy : s.bus.available = false) (hi : s.bus.command = some i) (ht : exec i s = .next t) : Shaped t := by
  obtain ⟨-, -, -, hcores, hbus⟩ := id hs
  have hpc : ∀ c, t.pc.get c = s.pc.get c :=
    fun c => congrArg Prod.fst (congrFun (snooped_account hf hbusy hi ht).1 c)
  exact hs.of_exec ht (hcores.of_sameProgram (exec_sameProgram ht) fun c => .inl (hpc c))
    (snooped_busLegal hf hbusy hi hbus ht)

/-- A core turn that neither retires its core nor finds it retired is an access by that core. -/
theorem coreTurn_access_cases {c : CoreId} {s t : State} (hf : s.faultCode = .fNone) (h : coreTurn c s = .next t) :
    t = s ∨ (s.coreDone.get c = false ∧ (s.traces.get c).length ≤ s.pc.get c ∧ t = retire c s) ∨
      ∃ a w, s.coreDone.get c = false ∧ s.pc.get c < (s.traces.get c).length ∧
        t = access c a w { s with turn := c } ∧ ∃ i, exec i { s with turn := c } = .next t := by
  have hf' : ({ s with turn := c } : State).faultCode = .fNone := hf
  obtain ⟨-, rfl⟩ | ⟨hactive, hend, rfl⟩ | ⟨a, hactive, hlt, hrd | hwr⟩ := coreTurn_cases h
  · exact .inl rfl
  · exact .inr (.inl ⟨hactive, hend, rfl⟩)
  · have heq := hrd
    rw [exec_prRd hf'] at heq
    cases heq
    exact .inr (.inr ⟨a, false, hactive, hlt, rfl, _, hrd⟩)
  · have heq := hwr
    rw [exec_prWr hf'] at heq
    cases heq
    exact .inr (.inr ⟨a, true, hactive, hlt, rfl, _, hwr⟩)

theorem Shaped.coreTurn {c : CoreId} {s t : State} (hs : Shaped s) (hf : s.faultCode = .fNone)
    (ht : coreTurn c s = .next t) : Shaped t := by
  have hbus' : BusLegal t.bus := coreTurn_busLegal hf hs.2.2.2.2 ht
  obtain ⟨hcfg, htr, harr, hcores, -⟩ := id hs
  obtain rfl | ⟨hactive, hend, rfl⟩ | ⟨a, w, hactive, hlt, rfl, i, hi⟩ := coreTurn_access_cases hf ht
  · exact hs
  · exact ⟨hcfg, htr, harr, coresCounted_retire hcores hactive hend, hbus'⟩
  · have hturn : Shaped { s with turn := c } := hs
    refine hturn.of_exec hi (.of_sameProgram (s := { s with turn := c }) hcores (exec_sameProgram hi) fun c' => ?_)
      hbus'
    by_cases hc : c' = c
    · subst hc
      obtain hstay | ⟨hadv, -⟩ := access_advances c' a w (s := { s with turn := c' }) hf
      · exact .inl hstay
      · exact .inr ⟨hadv, hactive, hlt⟩
    · exact .inl (congrArg Prod.fst (progress_of_account (account_access_ne hc a w _)))

theorem Shaped.congr {s u : State} (hs : Shaped s) (hprog : SameProgram s u) (hpc : u.pc = s.pc)
    (hsets : ∀ c, (u.cache.get c).sets = (s.cache.get c).sets) (hbus : BusLegal u.bus) : Shaped u := by
  obtain ⟨hcfg, htr, harr, hcores, -⟩ := hs
  obtain ⟨⟨hcfg', htr'⟩, -⟩ := id hprog
  exact ⟨by rwa [hcfg'], by rwa [htr'], harr.congr hcfg' hsets,
    hcores.of_sameProgram hprog fun c => .inl (by rw [hpc]), hbus⟩

/-- Settles O53: every snooped command, core turn and closing stage keeps the shape. -/
theorem stepKeepsShape : Obligations.StepKeepsShape := by
  unfold Obligations.StepKeepsShape
  intro s t hs ht
  refine step_induct Shaped (fun i u v hf hbusy hi hu => hu.snooped hf hbusy hi) (fun c u v hf hu => hu.coreTurn hf)
    ?_ ?_ ?_ ?_ hs ht
  · exact fun u _ hu => hu
  · exact fun u _ hu => hu
  · exact fun u _ hu => hu.congr (by simp [SameProgram]) (by simp) (by simp) (by simpa using hu.2.2.2.2)
  · exact fun u _ hu => hu.congr (by simp [SameProgram]) (by simp) (by simp) (by simpa using hu.2.2.2.2)

/-! ### The stages of a tick around one core's turn -/

/-- Stages that answer a next state, cut in two. -/
theorem stages_append_eq_next {fs gs : List (State → Answer)} {s t : State} :
    stages (fs ++ gs) s = .next t ↔ ∃ u, stages fs s = .next u ∧ stages gs u = .next t := by
  induction fs generalizing s with
  | nil => simp
  | cons f fs ih =>
    by_cases hf : s.faultCode = .fNone
    · rw [List.cons_append, stages_cons_eq_next hf]
      simp only [stages_cons_eq_next hf, ih]
      exact ⟨fun ⟨s1, h1, u, h2, h3⟩ => ⟨u, ⟨s1, h1, h2⟩, h3⟩, fun ⟨u, ⟨s1, h1, h2⟩, h3⟩ => ⟨s1, h1, u, h2, h3⟩⟩
    · simp [hf]

/-- What every stage leaves alone, the stages leave alone. -/
theorem stages_keep {α : Type} (g : State → α) {fs : List (State → Answer)}
    (h : ∀ f ∈ fs, ∀ s s', s.faultCode = .fNone → f s = .next s' → g s' = g s) {s t : State}
    (ht : stages fs s = .next t) : g t = g s :=
  stages_induct (fun u => g u = g s) (fun f hf u v hu hP huv => (h f hf u v hu huv).trans hP) rfl ht

/-- The stages of a tick after the post-snoop (rules R183–R185). -/
def countingStages : List (State → Answer) :=
  [fun s => .next (countdown s), fun s => .next (inc .globalCycle 1 s), fun s => .next (checkInvariants s)]

/-- The stages of a tick after the core turns. -/
def closingStages : List (State → Answer) := (fun s => .next (endCorePass s)) :: snoop :: countingStages

/-- The stages of a tick before core `c`'s turn. -/
def stagesBefore (c : CoreId) : List (State → Answer) := snoop :: (allCores.filter (· < c)).map coreTurn

/-- The stages of a tick after core `c`'s turn. -/
def stagesAfter (c : CoreId) : List (State → Answer) := (allCores.filter (c < ·)).map coreTurn ++ closingStages

theorem tick_eq_around_turn (c : CoreId) : tick = stages (stagesBefore c ++ coreTurn c :: stagesAfter c) := by
  fin_cases c <;> rfl

/-- Core `c`'s progress, and whether it has retired. -/
def State.coreRecord (s : State) (c : CoreId) : (Nat × Count) × Bool := (s.progress c, s.coreDone.get c)

theorem snoop_coreRecord {s t : State} (c : CoreId) (h : snoop s = .next t) : t.coreRecord c = s.coreRecord c := by
  refine snoopLoop_induct (fun u => u.coreRecord c = s.coreRecord c) (fun i u v hf hbusy hi hP hv => ?_) rfl h
  obtain ⟨-, hdone, -⟩ := exec_sameProgram hv
  rw [← hP, State.coreRecord, State.coreRecord, (snooped_account hf hbusy hi hv).1, hdone]

theorem coreTurn_coreRecord_ne {c c' : CoreId} (hc : c' ≠ c) {s t : State} (hf : s.faultCode = .fNone)
    (h : coreTurn c s = .next t) : t.coreRecord c' = s.coreRecord c' := by
  obtain rfl | ⟨-, -, rfl⟩ | ⟨a, w, -, -, rfl, i, hi⟩ := coreTurn_access_cases hf h
  · rfl
  · simp [State.coreRecord, State.progress, retire, hc]
  · obtain ⟨-, hdone, -⟩ := exec_sameProgram hi
    rw [State.coreRecord, State.coreRecord, progress_of_account (account_access_ne hc a w _), hdone]
    rfl

theorem closingStages_coreRecord (c : CoreId) :
    ∀ f ∈ closingStages, ∀ s s', s.faultCode = .fNone → f s = .next s' → s'.coreRecord c = s.coreRecord c := by
  simp only [closingStages, countingStages, List.forall_mem_cons, Host.Outcome.next.injEq]
  refine ⟨?_, fun s s' _ h => snoop_coreRecord c h, ?_, ?_, ?_, by simp⟩
  · rintro s _ - rfl; rfl
  · rintro s _ - rfl; rfl
  · rintro s _ - rfl
    rw [State.coreRecord, progress_inc (by simp), inc_coreDone]
    rfl
  · rintro s _ - rfl
    simp [State.coreRecord, State.progress]

theorem turns_coreRecord {c : CoreId} {cs : List CoreId} (hcs : c ∉ cs) :
    ∀ f ∈ cs.map coreTurn, ∀ s s', s.faultCode = .fNone → f s = .next s' → s'.coreRecord c = s.coreRecord c := by
  simp only [List.forall_mem_map]
  exact fun c' hc' s s' hf h => coreTurn_coreRecord_ne (fun e => hcs (by rwa [e])) hf h

/-- In a tick core `c`'s record changes in its own turn only. -/
theorem tick_coreRecord {s t : State} (c : CoreId) (h : tick s = .next t) :
    t.coreRecord c = s.coreRecord c ∨
      ∃ u v, u.faultCode = .fNone ∧ u.coreRecord c = s.coreRecord c ∧ coreTurn c u = .next v ∧
        t.coreRecord c = v.coreRecord c := by
  rw [tick_eq_around_turn c, stages_append_eq_next] at h
  obtain ⟨u, hbefore, hrest⟩ := h
  have hu : u.coreRecord c = s.coreRecord c := by
    refine stages_keep (fun u => u.coreRecord c) (List.forall_mem_cons.mpr ⟨?_, turns_coreRecord (by simp)⟩) hbefore
    exact fun _ _ _ => snoop_coreRecord c
  by_cases hf : u.faultCode = .fNone
  · obtain ⟨v, hturn, hafter⟩ := (stages_cons_eq_next hf).mp hrest
    refine .inr ⟨u, v, hf, hu, hturn, stages_keep (fun u => u.coreRecord c) ?_ hafter⟩
    exact List.forall_mem_append.mpr ⟨turns_coreRecord (by simp), closingStages_coreRecord c⟩
  · rw [stages_of_faulted hf] at hrest
    cases hrest
    exact .inl hu

/-- What a core's own turn does to its record. -/
theorem coreTurn_advances {c : CoreId} {u v : State} (hf : u.faultCode = .fNone) (h : coreTurn c u = .next v) :
    (PcAdvances u v c ∧ v.coreDone.get c = u.coreDone.get c ∧ (u.coreDone.get c = true → v = u)) ∨
      (v.progress c = u.progress c ∧ v.coreDone.get c = true) := by
  obtain rfl | ⟨-, -, rfl⟩ | ⟨a, w, hactive, -, rfl, i, hi⟩ := coreTurn_access_cases hf h
  · exact .inl ⟨.inl rfl, rfl, fun _ => rfl⟩
  · exact .inr ⟨rfl, by simp [retire]⟩
  · obtain ⟨-, hdone, -⟩ := exec_sameProgram hi
    refine .inl ⟨access_advances c a w (s := { u with turn := c }) hf, by rw [hdone], fun hd => ?_⟩
    simp [hactive] at hd

theorem coreRecord_eq_iff {s u : State} {c : CoreId} : u.coreRecord c = s.coreRecord c ↔
    u.pc.get c = s.pc.get c ∧ (u.stats.get c).totalInstructions = (s.stats.get c).totalInstructions ∧
      u.coreDone.get c = s.coreDone.get c := by
  simp [State.coreRecord, State.progress, and_assoc]

/-- Settles O59: only core `c`'s own turn touches its record, and it comes once in a tick. -/
theorem programCountersAdvanceByOne : Obligations.ProgramCountersAdvanceByOne := by
  unfold Obligations.ProgramCountersAdvanceByOne
  intro s t hstep c
  obtain ⟨-, ⟨-, rfl⟩ | ⟨-, htick⟩⟩ := step_eq_next hstep
  · exact ⟨.inl rfl, id⟩
  obtain hsame | ⟨u, v, hf, hu, hturn, hv⟩ := tick_coreRecord c htick
  · obtain ⟨hpc, -, hdone⟩ := coreRecord_eq_iff.mp hsame
    exact ⟨.inl hpc, fun h => hdone.trans h⟩
  obtain ⟨hpc, hins, hdone⟩ := coreRecord_eq_iff.mp hu
  obtain ⟨hpc', hins', hdone'⟩ := coreRecord_eq_iff.mp hv
  rw [hpc', hins', hdone', ← hpc, ← hins, ← hdone]
  obtain ⟨hadv, hkeep, hretired⟩ | ⟨hsame, hnow⟩ := coreTurn_advances hf hturn
  · refine ⟨hadv.imp_right fun ⟨hpc1, hins1⟩ => ⟨hpc1, ?_, hins1⟩, fun h => hkeep.trans h⟩
    rw [← Bool.not_eq_true]
    intro hd
    rw [hretired hd] at hpc1
    omega
  · exact ⟨.inl (congrArg Prod.fst hsame), fun _ => hnow⟩

/-! ### Counters -/

theorem counter_le_inc (x y : Counter) (k : Nat) (s : State) : (s.counter x).toNat ≤ ((inc y k s).counter x).toNat := by
  by_cases hroom : HasRoom s y k
  · rw [inc_of_room hroom]
    by_cases hxy : x = y
    · subst hxy
      rw [State.counter_setCounter_self, counter_add_toNat hroom]
      omega
    · rw [State.counter_setCounter_ne _ _ hxy]
  · rw [inc_of_full hroom]
    cases x <;> simp [State.counter]

/-- `total_cycles` apart, which the BusRdX adjustment takes from, the rules only count up (rule R30). -/
theorem counter_kept (n : Nat) {x : Counter} (hx : ∀ c, x ≠ .stat c .totalCycles) :
    Kept (fun u => n ≤ (u.counter x).toNat) where
  inc y k u _ hu := hu.trans (counter_le_inc x y k u)
  line c si w f u _ hu := by cases x <;> simpa [State.counter] using hu
  bus b u hu := by cases x <;> exact hu
  pc c u hu := by cases x <;> exact hu
  dec c u hu := by rwa [State.counter_setCounter_ne _ _ (hx c)]
  raise code u hu := by cases x <;> simpa [State.counter] using hu

theorem step_counter_le {s t : State} (h : step s = .next t) {x : Counter} (hx : ∀ c, x ≠ .stat c .totalCycles) :
    (s.counter x).toNat ≤ (t.counter x).toNat := by
  have hkept := counter_kept (s.counter x).toNat hx
  refine step_induct (fun u => (s.counter x).toNat ≤ (u.counter x).toNat) ?_ ?_ ?_ ?_ ?_ ?_ le_rfl h
  · exact fun i u v _ _ _ hu hv => hkept.exec hu hv
  · intro c u v hf hu hv
    obtain rfl | ⟨-, -, rfl⟩ | ⟨a, w, -, -, rfl, i, hi⟩ := coreTurn_access_cases hf hv
    · exact hu
    · cases x <;> exact hu
    · refine hkept.exec (s := { u with turn := c }) ?_ hi
      cases x <;> exact hu
  · intro u _ hu
    cases x <;> exact hu
  · intro u _ hu
    cases x <;> exact hu
  · exact fun u _ hu => hu.trans (counter_le_inc x _ _ u)
  · intro u _ hu
    obtain h | ⟨code, h⟩ := checkInvariants_eq_or_raise u <;> rw [h]
    · exact hu
    · exact hkept.raise code u hu

theorem ticksCharged_le_inc (c : CoreId) (x : Counter) (k : Nat) (s : State) :
    s.ticksCharged c ≤ (inc x k s).ticksCharged c := by
  have htotal := counter_le_inc (.stat c .totalCycles) x k s
  have hidle := counter_le_inc (.stat c .idleCycles) x k s
  simp only [State.counter, Stats.read] at htotal hidle
  exact Nat.add_le_add htotal hidle

/-- Lines that each charge no tick back. -/
theorem ticksCharged_le_seq {c : CoreId} {fs : List (State → State)}
    (h : ∀ f ∈ fs, ∀ u, u.ticksCharged c ≤ (f u).ticksCharged c) (s : State) :
    s.ticksCharged c ≤ (seq fs s).ticksCharged c :=
  seq_induct (fun u => s.ticksCharged c ≤ u.ticksCharged c) (fun f hf u _ hu => hu.trans (h f hf u)) le_rfl

theorem ticksCharged_le_of_account {s u : State} (h : u.account = s.account) (c : CoreId) :
    s.ticksCharged c ≤ u.ticksCharged c := (ticksCharged_of_account (congrFun h c)).ge

theorem ticksCharged_le_completeAccess (c c' : CoreId) (si k : Nat) (kind : StatName) (s : State) :
    s.ticksCharged c' ≤ (completeAccess c si k kind s).ticksCharged c' := by
  refine ticksCharged_le_seq ?_ s
  simp only [List.forall_mem_cons]
  exact ⟨fun u => ticksCharged_le_of_account (by simp) c', ticksCharged_le_inc c' _ _, ticksCharged_le_inc c' _ _,
    ticksCharged_le_inc c' _ _, fun _ => le_rfl, by simp⟩

theorem ticksCharged_le_access (c c' : CoreId) (a : Addr) (w : Bool) (s : State) :
    s.ticksCharged c' ≤ (access c a w s).ticksCharged c' := by
  unfold access
  split
  · exact ticksCharged_le_completeAccess _ _ _ _ _ s
  · refine ticksCharged_le_seq ?_ s
    simp only [List.forall_mem_cons]
    exact ⟨fun _ => le_rfl, ticksCharged_le_completeAccess _ _ _ _ _, by simp⟩
  · refine ticksCharged_le_seq ?_ s
    simp only [List.forall_mem_cons]
    exact ⟨fun _ => le_rfl, fun u => ticksCharged_le_of_account (by simp) c', ticksCharged_le_inc c' _ _,
      ticksCharged_le_inc c' _ _, fun _ => le_rfl, ticksCharged_le_completeAccess _ _ _ _ _, by simp⟩
  · refine ticksCharged_le_seq ?_ s
    simp only [List.forall_mem_cons]
    refine ⟨fun _ => le_rfl, ticksCharged_le_inc c' _ _, ticksCharged_le_inc c' _ _, ticksCharged_le_inc c' _ _,
      ticksCharged_le_inc c' _ _, ticksCharged_le_inc c' _ _, fun u => ?_, by simp⟩
    split
    · exact ticksCharged_le_inc c' _ _ u
    · exact le_rfl
  · unfold stall
    split <;> exact ticksCharged_le_inc c' _ _ s

theorem coreTurn_ticksCharged_le {c : CoreId} {s t : State} (hf : s.faultCode = .fNone) (h : coreTurn c s = .next t)
    (c' : CoreId) : s.ticksCharged c' ≤ t.ticksCharged c' := by
  obtain rfl | ⟨-, -, rfl⟩ | ⟨a, w, -, -, rfl, -⟩ := coreTurn_access_cases hf h
  · exact le_rfl
  · exact le_rfl
  · exact ticksCharged_le_access c c' a w { s with turn := c }

theorem step_ticksCharged_le {s t : State} (h : step s = .next t) (ht : t.faultCode = .fNone) (c : CoreId) :
    s.ticksCharged c ≤ t.ticksCharged c := by
  refine step_induct (fun u => u.faultCode = .fNone → s.ticksCharged c ≤ u.ticksCharged c) ?_ ?_ ?_ ?_ ?_ ?_
    (fun _ => le_rfl) h ht
  · intro i u v hf hbusy hi hu hv hvf
    exact (hu hf).trans (ticksCharged_le_of_account ((snooped_account hf hbusy hi hv).2 hvf) c)
  · exact fun c' u v hf hu hv _ => (hu hf).trans (coreTurn_ticksCharged_le hf hv c)
  · exact fun u hf hu _ => hu hf
  · exact fun u hf hu _ => hu hf
  · exact fun u hf hu _ => (hu hf).trans (ticksCharged_le_inc c _ _ u)
  · exact fun u hf hu _ => (hu hf).trans (ticksCharged_le_of_account (account_congr (by simp) (by simp)) c)

/-- Settles O58: an increment lowers no counter, and the adjustment that takes a tick from `total_cycles` gives it to
`idle_cycles` or ends in a fault. -/
theorem countersNeverDecrease : Obligations.CountersNeverDecrease := by
  unfold Obligations.CountersNeverDecrease
  exact fun s t hstep => ⟨fun x hx => step_counter_le hstep hx, fun ht c => step_ticksCharged_le hstep ht c⟩

end Sys2Proof.Machine
end

section
/-! PROOFS. The copies that the caches hold, as a view: the MESI state of every block in every cache. Under the set
invariant P1 is a relation between the entries of the view, and each line write of the rules changes one entry. -/

namespace Sys2Proof

/-- Two caches may hold one block in these states (rule R73). -/
abbrev Mesi.Compatible (m m' : Mesi) : Prop := m = .invalid ∨ m' = .invalid ∨ m = .shared ∧ m' = .shared

theorem Mesi.Compatible.symm {m m' : Mesi} (h : m.Compatible m') : m'.Compatible m := by
  obtain h | h | ⟨h, h'⟩ := h
  · exact .inr (.inl h)
  · exact .inl h
  · exact .inr (.inr ⟨h', h⟩)

namespace Machine

/-! ### One set -/

/-- The MESI state of the block with tag `t` among the lines of a set, INVALID where no valid line has the tag. -/
def stateIn (L : List Line) (t : Tag) : Mesi :=
  match lookupIn L t with
  | some w => (L[w]?.getD Line.reset).mesi
  | none => .invalid

theorem mesiOf_eq_stateIn (s : State) (c : CoreId) (si : Nat) (t : Tag) :
    s.mesiOf c si t = stateIn (s.setLines c si) t := rfl

/-- The set invariant, way by way (rule R26). -/
theorem uniqueTags_iff {L : List Line} : uniqueTags L = true ↔
    ∀ (i j : Nat) (l l' : Line), L[i]? = some l → L[j]? = some l' → l.valid = true → l'.valid = true →
      l.tag = l'.tag → i = j := by
  have hpairs : uniqueTags L = true ↔ L.Pairwise fun l l' => l.valid = true → l'.valid = true → l.tag ≠ l'.tag := by
    rw [uniqueTags, decide_eq_true_iff, List.Nodup, List.pairwise_map, List.pairwise_filter]
  rw [hpairs, List.pairwise_iff_getElem]
  constructor
  · intro h i j l l' hi hj hv hv' htag
    obtain ⟨hil, rfl⟩ := List.getElem?_eq_some_iff.mp hi
    obtain ⟨hjl, rfl⟩ := List.getElem?_eq_some_iff.mp hj
    obtain hlt | heq | hgt := Nat.lt_trichotomy i j
    · exact absurd htag (h i j hil hjl hlt hv hv')
    · exact heq
    · exact absurd htag.symm (h j i hjl hil hgt hv' hv)
  · intro h i j hi hj hlt hv hv' htag
    exact absurd (h i j _ _ (List.getElem?_eq_getElem hi) (List.getElem?_eq_getElem hj) hv hv' htag) (by omega)

theorem Line.valid_of_holds {l : Line} {t : Tag} (h : l.holds t = true) : l.valid = true ∧ l.tag = t := by
  simpa [Line.holds] using h

theorem Line.holds_tag {l : Line} (h : l.valid = true) : l.holds l.tag = true := by
  simp [Line.holds, h]

/-- Under the set invariant the lookup finds the one line that holds the tag. -/
theorem lookupIn_of_line {L : List Line} (hu : uniqueTags L = true) {i : Nat} {l : Line} {t : Tag}
    (hl : L[i]? = some l) (ht : l.holds t = true) : lookupIn L t = some i := by
  cases hk : lookupIn L t with
  | none => exact absurd ht (by simp [lookupIn_eq_none.mp hk l (List.mem_of_getElem? hl)])
  | some k =>
    obtain ⟨hlt, hkt, -⟩ := lookupIn_eq_some.mp hk
    obtain ⟨hv, htag⟩ := Line.valid_of_holds ht
    obtain ⟨hv', htag'⟩ := Line.valid_of_holds hkt
    rw [uniqueTags_iff.mp hu k i _ _ (List.getElem?_eq_getElem hlt) hl hv' hv (htag'.trans htag.symm)]

theorem stateIn_of_line {L : List Line} (hu : uniqueTags L = true) {i : Nat} {l : Line} {t : Tag}
    (hl : L[i]? = some l) (ht : l.holds t = true) : stateIn L t = l.mesi := by
  simp [stateIn, lookupIn_of_line hu hl ht, hl]

theorem stateIn_of_none {L : List Line} {t : Tag} (h : ∀ (i : Nat) (l : Line), L[i]? = some l → l.holds t = false) :
    stateIn L t = .invalid := by
  have hnone : lookupIn L t = none := lookupIn_eq_none.mpr fun l hl => by
    obtain ⟨i, hi⟩ := List.getElem?_of_mem hl
    exact h i l hi
  simp [stateIn, hnone]

/-- The state of a block after one line is rewritten. -/
theorem stateIn_modify {L : List Line} {k : Nat} {f : Line → Line} {l : Line} (hu : uniqueTags L = true)
    (hu' : uniqueTags (L.modify k f) = true) (hl : L[k]? = some l) (t : Tag) :
    stateIn (L.modify k f) t =
      if (f l).holds t then (f l).mesi else if l.holds t then .invalid else stateIn L t := by
  have hk : (L.modify k f)[k]? = some (f l) := by simp [hl]
  have hne : ∀ j, j ≠ k → (L.modify k f)[j]? = L[j]? := fun j hj => List.getElem?_modify_ne f L hj.symm
  split
  case isTrue hnew => exact stateIn_of_line hu' hk hnew
  case isFalse hnew =>
    split
    case isTrue hold =>
      refine stateIn_of_none fun j l' hj => ?_
      by_cases hjk : j = k
      · subst hjk
        obtain rfl := Option.some.inj (hk.symm.trans hj)
        simpa using hnew
      · rw [hne j hjk] at hj
        by_contra hh
        have hh : l'.holds t = true := by simpa using hh
        have := (lookupIn_of_line hu hj hh).symm.trans (lookupIn_of_line hu hl hold)
        exact hjk (Option.some.inj this)
    case isFalse hold =>
      by_cases hex : ∃ (j : Nat) (l' : Line), L[j]? = some l' ∧ l'.holds t = true
      · obtain ⟨j, l', hj, hh⟩ := hex
        have hjk : j ≠ k := by
          rintro rfl
          rw [hl] at hj
          cases hj
          exact hold hh
        rw [stateIn_of_line hu hj hh, stateIn_of_line hu' (by rw [hne j hjk, hj]) hh]
      · have hnone : ∀ (j : Nat) (l' : Line), L[j]? = some l' → l'.holds t = false := fun j l' hj => by
          by_contra hh
          exact hex ⟨j, l', hj, by simpa using hh⟩
        rw [stateIn_of_none hnone]
        refine stateIn_of_none fun j l' hj => ?_
        by_cases hjk : j = k
        · subst hjk
          rw [hk] at hj
          cases hj
          simpa using hnew
        · exact hnone j l' (by rw [← hne j hjk, hj])

/-- Rewriting a line keeps the set invariant where no other valid line has the new line's tag. -/
theorem uniqueTags_modify {L : List Line} {k : Nat} {f : Line → Line} (hu : uniqueTags L = true)
    (hf : ∀ l, L[k]? = some l → (f l).valid = true →
      ∀ j l', j ≠ k → L[j]? = some l' → l'.valid = true → l'.tag ≠ (f l).tag) :
    uniqueTags (L.modify k f) = true := by
  have hcases : ∀ i l, (L.modify k f)[i]? = some l →
      (i ≠ k ∧ L[i]? = some l) ∨ (i = k ∧ ∃ l0, L[k]? = some l0 ∧ l = f l0) := by
    intro i l hi
    by_cases hik : i = k
    · subst hik
      rw [List.getElem?_modify_eq] at hi
      obtain ⟨l0, h0, rfl⟩ := Option.map_eq_some_iff.mp hi
      exact .inr ⟨rfl, l0, h0, rfl⟩
    · rw [List.getElem?_modify_ne f L (Ne.symm hik)] at hi
      exact .inl ⟨hik, hi⟩
  rw [uniqueTags_iff]
  intro i j l l' hi hj hv hv' htag
  obtain ⟨hik, hiL⟩ | ⟨rfl, l0, h0, rfl⟩ := hcases i l hi
  · obtain ⟨-, hjL⟩ | ⟨rfl, l0, h0, rfl⟩ := hcases j l' hj
    · exact uniqueTags_iff.mp hu i j l l' hiL hjL hv hv' htag
    · exact absurd htag (hf l0 h0 hv' i l hik hiL hv)
  · obtain ⟨hjk, hjL⟩ | ⟨rfl, l1, -, rfl⟩ := hcases j l' hj
    · exact absurd htag.symm (hf l0 h0 hv j l' hjk hjL hv')
    · rfl

/-- A rewrite that keeps the tag and makes no line valid keeps the set invariant. -/
theorem uniqueTags_modify_of_tag {L : List Line} {k : Nat} {f : Line → Line} (hu : uniqueTags L = true)
    (hf : ∀ l, L[k]? = some l → (f l).tag = l.tag ∧ ((f l).valid = true → l.valid = true)) :
    uniqueTags (L.modify k f) = true := by
  refine uniqueTags_modify hu fun l hl hv j l' hjk hj hv' htag => hjk ?_
  obtain ⟨htag', hval⟩ := hf l hl
  exact uniqueTags_iff.mp hu j k l' l hj hl hv' (hval hv) (htag.trans htag')

/-- The victim slot holds a valid line exactly where the set has lines and all of them are valid (rule R111). -/
theorem victimLine_valid_iff {s : State} {c : CoreId} {si : Nat} :
    (s.victimLine c si).valid = true ↔ s.setLines c si ≠ [] ∧ ∀ l ∈ s.setLines c si, l.valid = true := by
  constructor
  · intro h
    have hat : (s.setLines c si)[victimIn (s.setLines c si)]? = some (s.victimLine c si) := lineAt_victim h
    refine ⟨fun hnil => by simp [hnil] at hat, fun l hl => ?_⟩
    by_contra hv
    obtain ⟨hlt, hinv, -⟩ := victimIn_of_invalid ⟨l, hl, by simpa using hv⟩
    rw [List.getElem?_eq_getElem hlt, Option.some.injEq] at hat
    rw [hat, h] at hinv
    cases hinv
  · rintro ⟨hne, hall⟩
    have hat : s.lineAt c si (s.victim c si) = some ((s.setLines c si)[victimIn (s.setLines c si)]'(victimIn_lt hne)) :=
      List.getElem?_eq_getElem _
    rw [State.victimLine, hat]
    exact hall _ (List.getElem_mem _)

/-- A rewrite that makes no line valid does not fill a victim slot. -/
theorem lines_valid_of_modify {L : List Line} {k : Nat} {f : Line → Line}
    (hf : ∀ l, L[k]? = some l → (f l).valid = true → l.valid = true)
    (h : L.modify k f ≠ [] ∧ ∀ l ∈ L.modify k f, l.valid = true) : L ≠ [] ∧ ∀ l ∈ L, l.valid = true := by
  obtain ⟨hne, hall⟩ := h
  refine ⟨fun hnil => hne (by simp [hnil]), fun l hl => ?_⟩
  obtain ⟨i, hi⟩ := List.getElem?_of_mem hl
  by_cases hik : k = i
  · subst hik
    exact hf l hi (hall _ (List.mem_of_getElem? (i := k) (by simp [hi])))
  · exact hall l (List.mem_of_getElem? (i := i) (by simp [hik, hi]))

/-! ### Views -/

/-- The MESI state of every block, named by set and tag, in every cache. -/
abbrev View := CoreId → Nat → Tag → Mesi

/-- The view with the state of one block in one cache replaced. -/
def View.set (V : View) (c : CoreId) (si : Nat) (t : Tag) (m : Mesi) : View :=
  fun c' si' t' => if c' = c ∧ si' = si ∧ t' = t then m else V c' si' t'

@[simp] theorem View.set_self (V : View) (c : CoreId) (si : Nat) (t : Tag) (m : Mesi) : V.set c si t m c si t = m := by
  simp [View.set]

theorem View.set_core_ne (V : View) {c c' : CoreId} (si : Nat) (t : Tag) (m : Mesi) (si' : Nat) (t' : Tag)
    (h : c' ≠ c) : V.set c si t m c' si' t' = V c' si' t' := by
  simp [View.set, h]

theorem View.set_tag_ne (V : View) (c : CoreId) (si : Nat) {t t' : Tag} (m : Mesi) (c' : CoreId) (si' : Nat)
    (h : t' ≠ t) : V.set c si t m c' si' t' = V c' si' t' := by
  simp [View.set, h]

/-- No cache holds a block that another one holds MODIFIED or EXCLUSIVE. -/
def View.Exclusive (V : View) : Prop := ∀ c c' si t, c ≠ c' → (V c si t).Compatible (V c' si t)

theorem View.Exclusive.set {V : View} (h : V.Exclusive) {c : CoreId} {si : Nat} {t : Tag} {m : Mesi}
    (hm : ∀ c', c' ≠ c → m.Compatible (V c' si t)) : (V.set c si t m).Exclusive := by
  intro c1 c2 si' t' hne
  by_cases hblock : si' = si ∧ t' = t
  · obtain ⟨rfl, rfl⟩ := hblock
    by_cases h1 : c1 = c
    · subst h1
      rw [View.set_self, View.set_core_ne _ _ _ _ _ _ hne.symm]
      exact hm c2 hne.symm
    · rw [View.set_core_ne _ _ _ _ _ _ h1]
      by_cases h2 : c2 = c
      · subst h2
        rw [View.set_self]
        exact (hm c1 hne).symm
      · rw [View.set_core_ne _ _ _ _ _ _ h2]
        exact h c1 c2 _ _ hne
  · have hsame : ∀ c', V.set c si t m c' si' t' = V c' si' t' := fun c' => if_neg fun e => hblock e.2
    rw [hsame, hsame]
    exact h c1 c2 si' t' hne

/-- Invalidating copies keeps the others compatible. -/
theorem View.Exclusive.of_invalidated {V V' : View} (h : V.Exclusive)
    (hV : ∀ c si t, V' c si t = .invalid ∨ V' c si t = V c si t) : V'.Exclusive := by
  intro c c' si t hne
  obtain h1 | h1 := hV c si t
  · exact .inl h1
  · obtain h2 | h2 := hV c' si t
    · exact .inr (.inl h2)
    · rw [h1, h2]
      exact h c c' si t hne

/-- Where one cache holds a block MODIFIED or EXCLUSIVE, no other cache holds it. -/
theorem View.Exclusive.invalid_of_owned {V : View} (h : V.Exclusive) {c c' : CoreId} {si : Nat} {t : Tag}
    (hne : c' ≠ c) (hown : V c si t = .modified ∨ V c si t = .exclusive) : V c' si t = .invalid := by
  have := h c c' si t hne.symm
  obtain hm | hm := hown <;> simpa [Mesi.Compatible, hm] using this

/-! ### P1 -/

/-- The states that one cache adds to the copies of a block. -/
def copyList (m : Mesi) : List Mesi := if m = .invalid then [] else [m]

theorem filter_holds_of_unique {L : List Line} (hu : uniqueTags L = true) (t : Tag) :
    (L.filter fun l => l.holds t).map (fun l => l.mesi) = copyList (stateIn L t) := by
  by_cases hex : ∃ (i : Nat) (l : Line), L[i]? = some l ∧ l.holds t = true
  · obtain ⟨i, l, hl, ht⟩ := hex
    have hvalid : l.mesi ≠ .invalid := ((Line.holds_iff l t).mp ht).1
    have hone : L.filter (fun l => l.holds t) = [l] := by
      have hpair : (L.filter fun l => l.holds t).Pairwise (fun _ _ => False) := by
        rw [List.pairwise_filter, List.pairwise_iff_getElem]
        intro a b ha hb hab hta htb
        have h1 := lookupIn_of_line hu (List.getElem?_eq_getElem ha) hta
        have h2 := lookupIn_of_line hu (List.getElem?_eq_getElem hb) htb
        have := Option.some.inj (h1.symm.trans h2)
        omega
      have hmem : l ∈ L.filter fun l => l.holds t := List.mem_filter.mpr ⟨List.mem_of_getElem? hl, ht⟩
      rcases hfilter : L.filter (fun l => l.holds t) with _ | ⟨l0, _ | ⟨l1, rest⟩⟩
      · simp [hfilter] at hmem
      · rw [hfilter, List.mem_singleton] at hmem
        rw [hfilter, hmem]
      · rw [hfilter, List.pairwise_cons] at hpair
        exact absurd (hpair.1 l1 (List.mem_cons_self ..)) id
    rw [hone, stateIn_of_line hu hl ht]
    simp [copyList, hvalid]
  · have hnone : ∀ (i : Nat) (l : Line), L[i]? = some l → l.holds t = false := fun i l hl => by
      by_contra hh
      exact hex ⟨i, l, hl, by simpa using hh⟩
    have hnil : L.filter (fun l => l.holds t) = [] := List.filter_eq_nil_iff.mpr fun l hl => by
      obtain ⟨i, hi⟩ := List.getElem?_of_mem hl
      simp [hnone i l hi]
    rw [hnil, stateIn_of_none hnone]
    rfl

/-- P1 of the states that four caches hold one block in, by the table of all cases (rule R73). -/
theorem coherentCopies_iff_compatible (m : CoreId → Mesi) :
    coherentCopies (allCores.flatMap fun c => copyList (m c)) = true ↔ ∀ c c', c ≠ c' → (m c).Compatible (m c') := by
  obtain ⟨q, rfl⟩ : ∃ q : Quad Mesi, m = q.get :=
    ⟨⟨m 0, m 1, m 2, m 3⟩, funext fun c => by fin_cases c <;> rfl⟩
  obtain ⟨m0, m1, m2, m3⟩ := q
  cases m0 <;> cases m1 <;> cases m2 <;> cases m3 <;> decide

/-- Under the set invariant P1 says that copies of one block are compatible (rule R73). -/
theorem coherent_iff_exclusive {s : State} (hu : SetsUnique s) : Coherent s ↔ View.Exclusive s.mesiOf := by
  have hcopies : ∀ si t, s.copies si t = allCores.flatMap fun c => copyList (s.mesiOf c si t) := by
    intro si t
    simp only [State.copies, filter_holds_of_unique (hu _ si), mesiOf_eq_stateIn]
  simp only [Coherent, hcopies, coherentCopies_iff_compatible fun c => s.mesiOf c _ _]
  exact ⟨fun h c c' si t hne => h si t c c' hne, fun h si t c c' hne => h c c' si t hne⟩

end Machine

end Sys2Proof
end

section
/-! PROOFS. What each rule does to the view of the caches and to the bus, unless a counter overflows. -/

namespace Sys2Proof.Machine

/-! ### Rules that an overflow may stop -/

/-- An overflow has stopped the rule, or no fault is raised and `P` holds (rule R199). -/
def UnlessOverflow (P : State → Prop) (s : State) : Prop :=
  s.faultCode = .fOverflow ∨ s.faultCode = .fNone ∧ P s

theorem UnlessOverflow.imp {P Q : State → Prop} {s : State} (h : UnlessOverflow P s) (hPQ : P s → Q s) :
    UnlessOverflow Q s := Or.imp_right (And.imp_right hPQ) h

/-- The first line of a rule, and what follows from where it did not overflow. -/
theorem UnlessOverflow.seq_cons {P Q : State → Prop} {f : State → State} {fs : List (State → State)} {s : State}
    (hs : s.faultCode = .fNone) (hf : UnlessOverflow P (f s))
    (hfs : P (f s) → (f s).faultCode = .fNone → UnlessOverflow Q (seq fs (f s))) :
    UnlessOverflow Q (seq (f :: fs) s) := by
  rw [Machine.seq_cons hs]
  obtain hover | ⟨hnone, hP⟩ := hf
  · rw [seq_of_faulted (by simp [hover])]
    exact .inl hover
  · exact hfs hP hnone

/-- The last line of a rule. -/
theorem UnlessOverflow.seq_last {P : State → Prop} {f : State → State} {s : State}
    (hs : s.faultCode = .fNone) (hf : UnlessOverflow P (f s)) : UnlessOverflow P (seq [f] s) := by
  rwa [seq_singleton hs]

/-! ### Tidy states, and what a rule leads to -/

/-- The tag arrays have their shape, and the set invariant holds. -/
structure Tidy (s : State) : Prop where
  arrays : ArraysShaped s
  unique : SetsUnique s

/-- What a part of a rule leads to from `s`: the bus record `b` and the copies `V`, with no victim slot filled and
no core left without a charged tick that had one. -/
structure Leads (s : State) (b : Bus) (V : View) (u : State) : Prop where
  cfg : u.cfg = s.cfg
  bus : u.bus = b
  tidy : Tidy u
  mesi : u.mesiOf = V
  slot : ∀ c si, (s.victimLine c si).valid = false → (u.victimLine c si).valid = false
  charged : ∀ c, (s.stats.get c).totalCycles ≠ 0 → (u.stats.get c).totalCycles ≠ 0

/-- Bus record and copies as they were. -/
abbrev Quiet (s u : State) : Prop := Leads s s.bus s.mesiOf u

theorem Leads.trans {s u w : State} {b b' : Bus} {V V' : View} (h : Leads s b V u) (h' : Leads u b' V' w) :
    Leads s b' V' w where
  cfg := h'.cfg.trans h.cfg
  bus := h'.bus
  tidy := h'.tidy
  mesi := h'.mesi
  slot c si hc := h'.slot c si (h.slot c si hc)
  charged c hc := h'.charged c (h.charged c hc)

theorem Leads.trans_quiet {s u w : State} {b : Bus} {V : View} (h : Leads s b V u) (h' : Quiet u w) :
    Leads s b V w := by
  have := h.trans h'
  rwa [h.bus, h.mesi] at this

/-- The lines decide the view. -/
theorem mesiOf_eq_of_setLines {s u : State} (h : ∀ c si, u.setLines c si = s.setLines c si) :
    u.mesiOf = s.mesiOf := by
  funext c si t
  exact mesiOf_congr (h c si) t

theorem victimLine_of_setLines {s u : State} (h : ∀ c si, u.setLines c si = s.setLines c si) (c : CoreId) (si : Nat) :
    u.victimLine c si = s.victimLine c si := by
  simp [State.victimLine, State.lineAt, State.victim, h]

theorem Tidy.of_sets {s u : State} (hs : Tidy s) (hcfg : u.cfg = s.cfg)
    (hsets : ∀ c, (u.cache.get c).sets = (s.cache.get c).sets) : Tidy u := by
  refine ⟨hs.arrays.congr hcfg hsets, fun c si => ?_⟩
  rw [setLines_congr hcfg (hsets c)]
  exact hs.unique c si

/-- What writes no line, and takes no charged tick away, leads to its bus record. -/
theorem leads_of_sets {s u : State} (hs : Tidy s) (hcfg : u.cfg = s.cfg)
    (hsets : ∀ c, (u.cache.get c).sets = (s.cache.get c).sets)
    (hcharged : ∀ c, (s.stats.get c).totalCycles ≠ 0 → (u.stats.get c).totalCycles ≠ 0) :
    Leads s u.bus s.mesiOf u := by
  have hlines : ∀ c si, u.setLines c si = s.setLines c si := fun c si => setLines_congr hcfg (hsets c) si
  refine ⟨hcfg, rfl, hs.of_sets hcfg hsets, mesiOf_eq_of_setLines hlines, fun c si h => ?_, hcharged⟩
  rwa [victimLine_of_setLines hlines]

theorem Tidy.quiet_refl {s : State} (hs : Tidy s) : Quiet s s := leads_of_sets hs rfl (fun _ => rfl) fun _ => id

theorem Tidy.leads_setBus {s : State} (hs : Tidy s) (b : Bus) : Leads s b s.mesiOf { s with bus := b } :=
  leads_of_sets (u := { s with bus := b }) hs rfl (fun _ => rfl) fun _ => id

theorem Tidy.quiet_advancePc {s : State} (hs : Tidy s) (c : CoreId) : Quiet s (advancePc c s) :=
  leads_of_sets (u := advancePc c s) hs rfl (fun _ => rfl) fun _ => id

/-- An increment that has room keeps a counter that is not 0 off 0. -/
theorem counter_setCounter_add_ne_zero {s : State} {x y : Counter} {k : Nat} (hroom : HasRoom s x k)
    (hy : s.counter y ≠ 0) : (s.setCounter x (s.counter x + BitVec.ofNat 64 k)).counter y ≠ 0 := by
  by_cases hxy : y = x
  · subst hxy
    rw [State.counter_setCounter_self]
    intro hzero
    have := counter_add_toNat hroom
    rw [hzero] at this
    exact hy (BitVec.eq_of_toNat_eq (by simpa using (show (s.counter y).toNat = 0 by simp at this; omega)))
  · rwa [State.counter_setCounter_ne _ _ hxy]

theorem Tidy.quiet_inc {s : State} (hs : Tidy s) (hf : s.faultCode = .fNone) (x : Counter) (k : Nat) :
    UnlessOverflow (Quiet s) (inc x k s) := by
  by_cases hroom : HasRoom s x k
  · rw [inc_of_room hroom]
    have hquiet := leads_of_sets (u := s.setCounter x (s.counter x + BitVec.ofNat 64 k)) hs (by simp) (by simp)
      fun c hc => counter_setCounter_add_ne_zero (y := .stat c .totalCycles) hroom hc
    rw [State.setCounter_bus] at hquiet
    exact .inr ⟨by simpa using hf, hquiet⟩
  · rw [inc_of_full hroom, raise_of_running _ hf]
    exact .inl rfl

/-- Lines that each leave bus record and copies as they were. -/
theorem Tidy.quiet_seq {fs : List (State → State)}
    (h : ∀ f ∈ fs, ∀ u, Tidy u → u.faultCode = .fNone → UnlessOverflow (Quiet u) (f u))
    {s : State} (hs : Tidy s) (hf : s.faultCode = .fNone) : UnlessOverflow (Quiet s) (seq fs s) := by
  refine seq_induct (UnlessOverflow (Quiet s)) (fun f hmem u hu hP => ?_) (.inr ⟨hf, hs.quiet_refl⟩)
  obtain hover | ⟨-, hquiet⟩ := hP
  · simp [hu] at hover
  · exact (h f hmem u hquiet.tidy hu).imp hquiet.trans_quiet

/-- Lines that increment counters. -/
theorem Tidy.quiet_incs (l : List (Counter × Nat)) {s : State} (hs : Tidy s) (hf : s.faultCode = .fNone) :
    UnlessOverflow (Quiet s) (seq (l.map fun p => inc p.1 p.2) s) :=
  hs.quiet_seq (List.forall_mem_map.mpr fun p _ _ hu hnone => hu.quiet_inc hnone p.1 p.2) hf

/-! ### Line writes -/

/-- The lines of every set after a line is rewritten. -/
theorem Tidy.setLines_modifyLine {s : State} (hs : Tidy s) (c : CoreId) (si k : Nat) (f : Line → Line) (c' : CoreId)
    (si' : Nat) : (modifyLine c si k f s).setLines c' si' =
      if c' = c ∧ si' = si then (s.setLines c si).modify k f else s.setLines c' si' :=
  setLines_putSet hs.arrays c c' si si' _

/-- Rewriting a line so that its set keeps the set invariant. -/
theorem Tidy.modifyLine_tidy {s : State} (hs : Tidy s) {c : CoreId} {si k : Nat} {f : Line → Line}
    (hsi : si < s.cfg.numSets) (hu : uniqueTags ((s.setLines c si).modify k f) = true) :
    Tidy (modifyLine c si k f s) := by
  refine ⟨hs.arrays.modifyLine c k f hsi, fun c' si' => ?_⟩
  rw [hs.setLines_modifyLine]
  split
  · exact hu
  · exact hs.unique c' si'

/-- Rewriting a line of block `t`, or an INVALID line where the cache does not hold `t`, to a line of block `t` changes
one entry of the view. -/
theorem Tidy.mesiOf_modifyLine {s : State} (hs : Tidy s) {c : CoreId} {si k : Nat} {f : Line → Line} {l : Line}
    {t : Tag} (hu : uniqueTags ((s.setLines c si).modify k f) = true) (hl : s.lineAt c si k = some l)
    (htag : (f l).tag = t) (hold : l.holds t = true ∨ l.valid = false ∧ s.mesiOf c si t = .invalid) :
    (modifyLine c si k f s).mesiOf = View.set s.mesiOf c si t (f l).mesi := by
  funext c' si' t'
  rw [mesiOf_eq_stateIn, hs.setLines_modifyLine]
  by_cases hset : c' = c ∧ si' = si
  · obtain ⟨rfl, rfl⟩ := hset
    rw [if_pos ⟨rfl, rfl⟩, stateIn_modify (hs.unique c' si') hu hl]
    by_cases ht : t' = t
    · subst ht
      rw [View.set_self]
      by_cases hnew : (f l).mesi = .invalid
      · obtain hold | ⟨-, hno⟩ := hold
        · simp [Line.holds, Line.valid, hnew, ((Line.holds_iff l t').mp hold).1, ((Line.holds_iff l t').mp hold).2]
        · simp [Line.holds, Line.valid, hnew, ← mesiOf_eq_stateIn, hno]
      · simp [Line.holds, Line.valid, htag, hnew]
    · have hnew : (f l).holds t' = false := by simp [Line.holds, htag, Ne.symm ht]
      have hother : l.holds t' = false := by
        obtain hold | ⟨hinv, -⟩ := hold
        · simp [Line.holds, ((Line.holds_iff l t).mp hold).2, Ne.symm ht]
        · simp [Line.holds, hinv]
      rw [View.set_tag_ne _ _ _ _ _ _ ht, hnew, hother]
      rfl
  · rw [if_neg hset, View.set, if_neg fun h => hset ⟨h.1, h.2.1⟩]
    rfl

/-- Rewriting a valid line to one with the same tag changes the entry of its block. -/
theorem Tidy.leads_modifyLine {s : State} (hs : Tidy s) {c : CoreId} {si k : Nat} {f : Line → Line} {l : Line}
    (hsi : si < s.cfg.numSets) (hl : s.lineAt c si k = some l) (htag : (f l).tag = l.tag) (hold : l.valid = true) :
    Leads s s.bus (View.set s.mesiOf c si l.tag (f l).mesi) (modifyLine c si k f s) := by
  have hsame : ∀ l', (s.setLines c si)[k]? = some l' → l' = l := fun l' h => Option.some.inj (h.symm.trans hl)
  have hu : uniqueTags ((s.setLines c si).modify k f) = true :=
    uniqueTags_modify_of_tag (hs.unique c si) fun l' h => by
      obtain rfl := hsame l' h
      exact ⟨htag, fun _ => hold⟩
  refine ⟨rfl, rfl, hs.modifyLine_tidy hsi hu, hs.mesiOf_modifyLine hu hl htag (.inl (Line.holds_tag hold)),
    fun c' si' => ?_, fun _ h => h⟩
  rw [← Bool.not_eq_true, ← Bool.not_eq_true, not_imp_not, victimLine_valid_iff, victimLine_valid_iff,
    hs.setLines_modifyLine]
  split
  case isTrue hset =>
    obtain ⟨rfl, rfl⟩ := hset
    exact lines_valid_of_modify fun l' h _ => by rw [hsame l' h]; exact hold
  case isFalse => exact id

/-- A state write to the line that a lookup finds. -/
theorem Tidy.leads_setMesi {s : State} (hs : Tidy s) {c : CoreId} {si k : Nat} {t : Tag} (hsi : si < s.cfg.numSets)
    (hk : s.lookup c si t = some k) (m : Mesi) :
    Leads s s.bus (View.set s.mesiOf c si t m) (setMesi c si k m s) := by
  obtain ⟨l, hl, hvalid, rfl, -⟩ := lineAt_of_lookup hk
  exact hs.leads_modifyLine (f := fun l => { l with mesi := m }) hsi hl rfl (by simpa [Line.valid] using hvalid)

theorem Tidy.leads_setHolderMesi {s : State} (hs : Tidy s) {c : CoreId} {si : Nat} {t : Tag}
    (hsi : si < s.cfg.numSets) (hc : s.mesiOf c si t ≠ .invalid) (m : Mesi) :
    Leads s s.bus (View.set s.mesiOf c si t m) (setHolderMesi c si t m s) := by
  obtain ⟨k, hk⟩ := lookup_of_mesiOf hc
  simp only [setHolderMesi, hk]
  exact hs.leads_setMesi hsi hk m

@[simp] theorem View.set_same (V : View) (c : CoreId) (si : Nat) (t : Tag) : V.set c si t (V c si t) = V := by
  funext c' si' t'
  unfold View.set
  split
  case isTrue h => rw [h.1, h.2.1, h.2.2]
  case isFalse => rfl

/-- A touched line keeps its tag and its state. -/
theorem Tidy.quiet_touch {s : State} (hs : Tidy s) (hf : s.faultCode = .fNone) {c : CoreId} {si k : Nat}
    (hsi : si < s.cfg.numSets) {l : Line} (hl : s.lineAt c si k = some l) (hvalid : l.valid = true) :
    UnlessOverflow (Quiet s) (touch c si k s) := by
  by_cases hroom : HasRoom s (.lruCtr c) 1
  · refine .seq_cons hf (hs.quiet_inc hf _ _) fun hquiet hnone => .seq_last hnone (.inr ⟨hnone, ?_⟩)
    have hl' : (inc (.lruCtr c) 1 s).lineAt c si k = some l := by rwa [State.lineAt, setLines_inc]
    have hwrite := hquiet.tidy.leads_modifyLine
      (f := fun l => { l with lru := ((inc (.lruCtr c) 1 s).cache.get c).lruCtr }) (by rwa [hquiet.cfg]) hl' rfl hvalid
    have hmesi : (inc (.lruCtr c) 1 s).mesiOf c si l.tag = l.mesi :=
      stateIn_of_line (hquiet.tidy.unique c si) hl' (Line.holds_tag hvalid)
    rw [← hmesi, View.set_same] at hwrite
    exact hquiet.trans_quiet hwrite
  · rw [touch_of_full hf hroom]
    exact .inl rfl

/-! ### The rules of an access -/

theorem Tidy.quiet_completeAccess {s : State} (hs : Tidy s) (hf : s.faultCode = .fNone) {c : CoreId} {si k : Nat}
    (hsi : si < s.cfg.numSets) {l : Line} (hl : s.lineAt c si k = some l) (hvalid : l.valid = true) (kind : StatName) :
    UnlessOverflow (Quiet s) (completeAccess c si k kind s) := by
  refine .seq_cons hf (hs.quiet_touch hf hsi hl hvalid) fun htouch hnone => ?_
  refine (htouch.tidy.quiet_seq ?_ hnone).imp htouch.trans_quiet
  simp only [List.forall_mem_cons]
  exact ⟨fun u hu hn => hu.quiet_inc hn _ _, fun u hu hn => hu.quiet_inc hn _ _, fun u hu hn => hu.quiet_inc hn _ _,
    fun u hu hn => .inr ⟨hn, hu.quiet_advancePc c⟩, by simp⟩

theorem Tidy.quiet_stall {s : State} (hs : Tidy s) (hf : s.faultCode = .fNone) (c : CoreId) :
    UnlessOverflow (Quiet s) (stall c s) := by
  unfold stall
  split <;> exact hs.quiet_inc hf _ _

/-- A write hit on a line that no other cache holds: the line is MODIFIED (rule R127). -/
theorem Tidy.leads_writeHit {s : State} (hs : Tidy s) (hf : s.faultCode = .fNone) {c : CoreId} {si k : Nat} {t : Tag}
    (hsi : si < s.cfg.numSets) (hk : s.lookup c si t = some k) :
    UnlessOverflow (Leads s s.bus (View.set s.mesiOf c si t .modified)) (writeHit c si k s) := by
  obtain ⟨l, hl, hvalid, rfl, -⟩ := lineAt_of_lookup hk
  have hwrite := hs.leads_setMesi hsi hk .modified
  have hline : (setMesi c si k .modified s).lineAt c si k = some { l with mesi := .modified } := by
    rw [setMesi, lineAt_modifyLine hs.arrays, if_pos ⟨rfl, rfl, rfl⟩, hl]
    rfl
  refine .seq_cons hf (.inr ⟨hf, hwrite⟩) fun _ hnone => .seq_last hnone ?_
  exact (hwrite.tidy.quiet_completeAccess hnone (by rwa [hwrite.cfg]) hline rfl _).imp hwrite.trans_quiet

/-- The bus record that an issue writes (rule R132). -/
def issueBus (c : CoreId) (a : Addr) (w : Bool) (b : Bus) : Bus :=
  { b with
    available := false, done := true, srcCore := some c, addr := a
    reqType := (if w then .busRdX else .busRd), respCore := none, evict := false }

theorem UnlessOverflow.and {P Q : State → Prop} {s : State} (hP : UnlessOverflow P s) (hQ : UnlessOverflow Q s) :
    UnlessOverflow (fun u => P u ∧ Q u) s := by
  obtain h | ⟨h, hP⟩ := hP
  · exact .inl h
  · exact hQ.imp fun hQ => ⟨hP, hQ⟩

theorem inc_one_ne_zero {s : State} (hf : s.faultCode = .fNone) (x : Counter) :
    UnlessOverflow (fun u => u.counter x ≠ 0) (inc x 1 s) := by
  by_cases hroom : HasRoom s x 1
  · rw [inc_of_room hroom]
    refine .inr ⟨by simpa using hf, fun hzero => ?_⟩
    have hadd := counter_add_toNat hroom
    rw [State.counter_setCounter_self] at hzero
    simp [hzero] at hadd
  · rw [inc_of_full hroom, raise_of_running _ hf]
    exact .inl rfl

/-- An issue charges its core a tick (rule R132). -/
theorem Tidy.leads_issue {s : State} (hs : Tidy s) (hf : s.faultCode = .fNone) (c : CoreId) (a : Addr) (w : Bool) :
    UnlessOverflow (fun u => Leads s (issueBus c a w s.bus) s.mesiOf u ∧ (u.stats.get c).totalCycles ≠ 0)
      (issue c a w s) := by
  have hbus := hs.leads_setBus (issueBus c a w s.bus)
  refine .seq_cons hf (.inr ⟨hf, hbus⟩) fun _ hnone => .seq_cons hnone (hbus.tidy.quiet_inc hnone _ _)
    fun hmiss hnone => ?_
  refine .seq_cons hnone ((hmiss.tidy.quiet_inc hnone _ _).and (inc_one_ne_zero hnone _)) fun hcycle hnone => ?_
  obtain ⟨hcycle, hcharged⟩ := hcycle
  refine (hcycle.tidy.quiet_seq ?_ hnone).imp fun hrest =>
    ⟨((hbus.trans_quiet hmiss).trans_quiet hcycle).trans_quiet hrest, hrest.charged c hcharged⟩
  simp only [List.forall_mem_cons]
  refine ⟨fun u hu hn => hu.quiet_inc hn _ _, fun u hu hn => hu.quiet_inc hn _ _, fun u hu hn => hu.quiet_inc hn _ _,
    fun u hu hn => ?_, by simp⟩
  split
  · exact hu.quiet_inc hn _ _
  · exact .inr ⟨hn, hu.quiet_refl⟩

/-! ### Chained writebacks -/

/-- The bus record of an eviction writeback before the demand `req` (rule R149). -/
def evictFlushBus (req : ReqType) (b : Bus) : Bus :=
  { b with prevReqType := req, prevMesi := .modified, reqType := .flush, evict := true, done := true }

theorem Tidy.leads_chainEvictFlush {s : State} (hs : Tidy s) (hf : s.faultCode = .fNone) (c : CoreId) (req : ReqType) :
    UnlessOverflow (Leads s (evictFlushBus req s.bus) s.mesiOf) (chainEvictFlush c req s) := by
  have hbus := hs.leads_setBus (evictFlushBus req s.bus)
  exact .seq_cons hf (.inr ⟨hf, hbus⟩) fun _ hnone =>
    (hbus.tidy.quiet_incs (writebackCounters c s.cfg.blockSize) hnone).imp hbus.trans_quiet

/-- The bus record of an intervention writeback by `owner` for `c` and its demand `req` (rules R156, R158). -/
def intervFlushBus (c owner : CoreId) (req : ReqType) (b : Bus) : Bus :=
  { b with
    prevReqType := req, prevCore := some c, srcCore := some owner, reqType := .flush, evict := false, done := true }

theorem Tidy.leads_chainIntervFlush {s : State} (hs : Tidy s) (hf : s.faultCode = .fNone) (c owner : CoreId)
    (req : ReqType) :
    UnlessOverflow (Leads s (intervFlushBus c owner req s.bus) s.mesiOf) (chainIntervFlush c owner req s) := by
  have hbus := hs.leads_setBus (intervFlushBus c owner req s.bus)
  exact .seq_cons hf (.inr ⟨hf, hbus⟩) fun _ hnone =>
    (hbus.tidy.quiet_incs (writebackCounters owner s.cfg.blockSize) hnone).imp hbus.trans_quiet

/-! ### Victim preparation -/

/-- The slot of an evicted victim is free. -/
theorem victimLine_setMesi_invalid {s : State} (hs : Tidy s) (c : CoreId) (si : Nat) :
    ((setMesi c si (s.victim c si) .invalid s).victimLine c si).valid = false := by
  by_contra h
  obtain ⟨hne, hall⟩ := victimLine_valid_iff.mp (by simpa using h)
  have hlines : (setMesi c si (s.victim c si) .invalid s).setLines c si =
      (s.setLines c si).modify (s.victim c si) (fun l => { l with mesi := .invalid }) := by
    rw [setMesi, hs.setLines_modifyLine, if_pos ⟨rfl, rfl⟩]
  rw [hlines] at hne hall
  have hlt : s.victim c si < (s.setLines c si).length := victimIn_lt fun hnil => hne (by simp [hnil])
  have := hall _ (List.mem_of_getElem? (i := s.victim c si) (by simp [List.getElem?_eq_getElem hlt]; rfl))
  simp [Line.valid] at this

/-- A prepared demand of core `c` for the block `(si, t)`: the victim slot is free, and of that block every copy is
as it was (rules R147, R148, R150). -/
structure Prepared (s : State) (c : CoreId) (si : Nat) (t : Tag) (b : Bus) (u : State) : Prop where
  leads : Leads s b u.mesiOf u
  exclusive : View.Exclusive u.mesiOf
  block : ∀ c', u.mesiOf c' si t = s.mesiOf c' si t
  slotFree : (u.victimLine c si).valid = false

theorem Leads.self {s u : State} {b : Bus} {V : View} (h : Leads s b V u) : Leads s b u.mesiOf u := by
  rwa [h.mesi]

theorem Prepared.trans {s u w : State} {c : CoreId} {si : Nat} {t : Tag} {b b' : Bus} (h : Prepared s c si t b u)
    (h' : Leads u b' u.mesiOf w) : Prepared s c si t b' w where
  leads := (h.leads.trans h').self
  exclusive := h'.mesi ▸ h.exclusive
  block := h'.mesi ▸ h.block
  slotFree := h'.slot c si h.slotFree

section

variable {s : State} {c : CoreId} {si : Nat} {t : Tag}

/-- EVICT_VICTIM on a valid victim: its copy is gone and its slot is free (rule R148). -/
theorem Tidy.leads_evictVictim (hs : Tidy s) (hf : s.faultCode = .fNone) (hsi : si < s.cfg.numSets)
    (hvalid : (s.victimLine c si).valid = true) :
    UnlessOverflow
      (fun u => Leads s s.bus (View.set s.mesiOf c si (s.victimLine c si).tag .invalid) u ∧
        (u.victimLine c si).valid = false)
      (evictVictim c si (s.victim c si) s) := by
  have hwrite := hs.leads_modifyLine (f := fun l => { l with mesi := .invalid }) hsi (lineAt_victim hvalid) rfl hvalid
  refine .seq_cons hf (.inr ⟨hf, hwrite⟩) fun _ hnone => .seq_last hnone ?_
  exact (hwrite.tidy.quiet_inc hnone _ _).imp fun hquiet =>
    ⟨hwrite.trans_quiet hquiet, hquiet.slot c si (victimLine_setMesi_invalid hs c si)⟩

@[simp] theorem promoteLastSharer_faultCode (sh : List CoreId) (vt : Tag) (u : State) :
    (promoteLastSharer sh si vt u).faultCode = u.faultCode := by
  unfold promoteLastSharer
  split <;> simp

/-- PROMOTE_LAST_SHARER after the eviction of core `c`'s copy of `vt`: the one SHARED copy left becomes EXCLUSIVE
(rule R150). -/
theorem leads_promoteLastSharer {u : State} {vt : Tag} (hex : View.Exclusive s.mesiOf) (hsi : si < s.cfg.numSets)
    (hu : Leads s s.bus (View.set s.mesiOf c si vt .invalid) u) (hne : t ≠ vt) :
    ∃ V, Leads u s.bus V (promoteLastSharer (s.sharers c si vt) si vt u) ∧ V.Exclusive ∧
      ∀ c', V c' si t = s.mesiOf c' si t := by
  have hevicted : (View.set s.mesiOf c si vt .invalid).Exclusive := hex.set fun _ _ => .inl rfl
  have hblock : ∀ c', View.set s.mesiOf c si vt .invalid c' si t = s.mesiOf c' si t :=
    fun c' => View.set_tag_ne _ _ _ _ _ _ hne
  unfold promoteLastSharer
  split
  case h_2 =>
    refine ⟨_, ?_, hevicted, hblock⟩
    rw [← hu.mesi, ← hu.bus]
    exact hu.tidy.quiet_refl
  case h_1 sh r hsh =>
    have hmem : ∀ c', c' ∈ s.sharers c si vt ↔ c' = r := fun c' => by rw [hsh, List.mem_singleton]
    obtain ⟨hrc, hshared⟩ := mem_sharers.mp ((hmem r).mpr rfl)
    have hr : u.mesiOf r si vt ≠ .invalid := by
      rw [hu.mesi, View.set_core_ne _ _ _ _ _ _ hrc, hshared]
      simp
    have hwrite := hu.tidy.leads_setHolderMesi (by rwa [hu.cfg]) hr .exclusive
    rw [hu.mesi, hu.bus] at hwrite
    refine ⟨_, hwrite, hevicted.set fun c' hc' => .inr (.inl ?_), fun c' => ?_⟩
    · by_cases hcc : c' = c
      · rw [hcc, View.set_self]
      · rw [View.set_core_ne _ _ _ _ _ _ hcc]
        obtain h | h | ⟨-, h⟩ := hex r c' si vt (Ne.symm hc')
        · simp [hshared] at h
        · exact h
        · exact absurd ((hmem c').mp (mem_sharers.mpr ⟨hcc, h⟩)) hc'
    · rw [View.set_tag_ne _ _ _ _ _ _ hne, hblock]

/-- VICTIM_PREP for a block that core `c` does not hold (rule R147). -/
theorem Tidy.victimPrep_prepared (hs : Tidy s) (hex : View.Exclusive s.mesiOf) (hf : s.faultCode = .fNone)
    (hsi : si < s.cfg.numSets) (hno : s.mesiOf c si t = .invalid) (req : ReqType) :
    UnlessOverflow (Prepared s c si t (if s.victimDirty c si then evictFlushBus req s.bus else s.bus))
      (victimPrep c si req s) := by
  unfold victimPrep
  simp only
  by_cases hvalid : (s.victimLine c si).valid = true
  · have hne : t ≠ (s.victimLine c si).tag := by
      rintro rfl
      rw [mesiOf_eq_stateIn, stateIn_of_line (hs.unique c si) (lineAt_victim hvalid) (Line.holds_tag hvalid)] at hno
      simp [Line.valid, hno] at hvalid
    rw [if_pos hvalid]
    refine .seq_cons hf (hs.leads_evictVictim hf hsi hvalid) fun hevict hnone => ?_
    obtain ⟨hevict, hslot⟩ := hevict
    obtain ⟨V, hpromote, hV, hblock⟩ := leads_promoteLastSharer (t := t) hex hsi hevict hne
    have hprep : Prepared s c si t s.bus (promoteLastSharer (s.sharers c si (s.victimLine c si).tag) si
        (s.victimLine c si).tag (evictVictim c si (s.victim c si) s)) :=
      ⟨(hevict.trans hpromote).self, hpromote.mesi ▸ hV, hpromote.mesi ▸ hblock, hpromote.slot c si hslot⟩
    refine .seq_cons hnone (.inr ⟨by simpa using hnone, hprep⟩) fun _ hnone => .seq_last hnone ?_
    by_cases hdirty : (s.victimLine c si).mesi = .modified
    · have hchain := hprep.leads.tidy.leads_chainEvictFlush hnone c req
      rw [hprep.leads.bus] at hchain
      simpa [State.victimDirty, hdirty] using hchain.imp hprep.trans
    · simpa [State.victimDirty, hdirty] using .inr ⟨hnone, hprep⟩
  · have hclean : s.victimDirty c si = false := by
      rw [State.victimDirty, decide_eq_false_iff_not]
      exact fun hm => hvalid (by simp [Line.valid, hm])
    rw [if_neg hvalid, hclean]
    exact .inr ⟨hf, hs.quiet_refl, hex, fun _ => rfl, by simpa using hvalid⟩

end

/-! ### Fills -/

/-- A block installed by core `c`: one entry of the view changes. -/
structure Filled (s : State) (c : CoreId) (si : Nat) (t : Tag) (m : Mesi) (u : State) : Prop where
  cfg : u.cfg = s.cfg
  bus : u.bus = s.bus
  tidy : Tidy u
  mesi : u.mesiOf = View.set s.mesiOf c si t m

/-- INSTALL into a free victim slot of a block that core `c` does not hold (rule R113). -/
theorem Tidy.install_filled {s : State} (hs : Tidy s) (hf : s.faultCode = .fNone) (hE : 1 ≤ s.cfg.E) {c : CoreId}
    {si : Nat} {t : Tag} (hsi : si < s.cfg.numSets) (hslot : (s.victimLine c si).valid = false)
    (hno : s.mesiOf c si t = .invalid) {m : Mesi} (hm : m ≠ .invalid) :
    UnlessOverflow (Filled s c si t m) (install c si t m s) := by
  have hlt : s.victim c si < (s.setLines c si).length := by
    refine victimIn_lt fun hnil => ?_
    have := hs.arrays.setLines_length c si
    simp [hnil] at this
    omega
  have hl : s.lineAt c si (s.victim c si) = some (s.victimLine c si) := by
    rw [State.victimLine, State.lineAt, List.getElem?_eq_getElem hlt]
    rfl
  have hu : uniqueTags ((s.setLines c si).modify (s.victim c si) fun l => { l with tag := t, mesi := m }) = true := by
    refine uniqueTags_modify (hs.unique c si) fun _ _ _ j l' _ hj hv htag => ?_
    have hmesi : s.mesiOf c si t = l'.mesi :=
      stateIn_of_line (hs.unique c si) hj (by simp [Line.holds, hv, show l'.tag = t from htag])
    simp [Line.valid, ← hmesi, hno] at hv
  have htidy := hs.modifyLine_tidy hsi hu
  have hmesi := hs.mesiOf_modifyLine (t := t) hu hl rfl (.inr ⟨hslot, hno⟩)
  have hline : (modifyLine c si (s.victim c si) (fun l => { l with tag := t, mesi := m }) s).lineAt c si
      (s.victim c si) = some { s.victimLine c si with tag := t, mesi := m } := by
    rw [lineAt_modifyLine hs.arrays, if_pos ⟨rfl, rfl, rfl⟩, hl]
    rfl
  unfold install
  simp only
  rw [seq_cons hf, seq_cons (by simpa using hf), setMesi, modifyLine_modifyLine hs.arrays]
  refine .seq_last (by simpa using hf) ((htidy.quiet_touch (by simpa using hf) (by simpa using hsi) hline
    (by simp [Line.valid, hm])).imp fun htouch => ?_)
  exact ⟨htouch.cfg, htouch.bus, htouch.tidy, htouch.mesi.trans hmesi⟩

/-! ### The invalidation of other copies -/

/-- The view with the copies of one block INVALID in the listed caches. -/
def View.drop (V : View) (L : List CoreId) (si : Nat) (t : Tag) : View :=
  fun c' si' t' => if c' ∈ L ∧ si' = si ∧ t' = t then .invalid else V c' si' t'

theorem View.set_drop (V : View) (c : CoreId) (L : List CoreId) (si : Nat) (t : Tag) :
    (V.set c si t .invalid).drop L si t = V.drop (c :: L) si t := by
  funext c' si' t'
  simp only [View.drop, View.set, List.mem_cons]
  by_cases hblock : si' = si ∧ t' = t
  · by_cases hc : c' = c
    · simp [hblock, hc]
    · simp [hc]
  · have hL : ∀ p : Prop, ¬ (p ∧ si' = si ∧ t' = t) := fun p h => hblock h.2
    simp only [hL, if_false]

theorem View.drop_eq_or (V : View) (L : List CoreId) (si : Nat) (t : Tag) (c' : CoreId) (si' : Nat) (t' : Tag) :
    V.drop L si t c' si' t' = .invalid ∨ V.drop L si t c' si' t' = V c' si' t' := by
  unfold View.drop
  split
  · exact .inl rfl
  · exact .inr rfl

theorem Tidy.leads_invalidateAll {L : List CoreId} {si : Nat} {t : Tag} {s : State} (hs : Tidy s)
    (hsi : si < s.cfg.numSets) (hf : s.faultCode = .fNone) (hL : ∀ c ∈ L, s.mesiOf c si t ≠ .invalid)
    (hnd : L.Nodup) :
    (seq (L.map fun c => setHolderMesi c si t .invalid) s).faultCode = .fNone ∧
      Leads s s.bus (View.drop s.mesiOf L si t) (seq (L.map fun c => setHolderMesi c si t .invalid) s) := by
  induction L generalizing s with
  | nil =>
    refine ⟨hf, ?_⟩
    have hdrop : View.drop s.mesiOf [] si t = s.mesiOf := by
      funext c' si' t'
      simp [View.drop]
    rw [hdrop]
    exact hs.quiet_refl
  | cons c L ih =>
    obtain ⟨hc, hnd⟩ := List.nodup_cons.mp hnd
    have hwrite := hs.leads_setHolderMesi hsi (hL c (List.mem_cons_self ..)) .invalid
    obtain ⟨hnone, hrest⟩ := ih hwrite.tidy (by simpa using hsi) (by simpa using hf)
      (fun c' hc' => by
        rw [hwrite.mesi, View.set_core_ne _ _ _ _ _ _ fun e => hc (by rwa [← e])]
        exact hL c' (List.mem_cons_of_mem _ hc')) hnd
    rw [List.map_cons, seq_cons hf]
    rw [hwrite.bus, hwrite.mesi, View.set_drop] at hrest
    exact ⟨hnone, hwrite.trans hrest⟩

/-- No other cache holds the block after the invalidation of the holders (rule R158). -/
theorem Tidy.leads_invalidateHolders {c : CoreId} {si : Nat} {t : Tag} {s : State} (hs : Tidy s)
    (hsi : si < s.cfg.numSets) (hf : s.faultCode = .fNone) :
    (invalidateHolders c si t s).faultCode = .fNone ∧
      Leads s s.bus (View.drop s.mesiOf (s.holders c si t) si t) (invalidateHolders c si t s) :=
  hs.leads_invalidateAll hsi hf (fun _ hc' h => (mem_holders.mp hc').2 (mesiOf_eq_invalid.mp h))
    (holders_nodup s c si t)

theorem drop_holders_invalid {s : State} {c c' : CoreId} {si : Nat} {t : Tag} (h : c' ≠ c) :
    View.drop s.mesiOf (s.holders c si t) si t c' si t = .invalid := by
  unfold View.drop
  by_cases hlk : s.lookup c' si t = none
  · rw [mesiOf_eq_invalid.mpr hlk, ite_self]
  · exact if_pos ⟨mem_holders.mpr ⟨h, hlk⟩, rfl, rfl⟩

theorem drop_holders_self {s : State} {c : CoreId} {si : Nat} {t : Tag} (si' : Nat) (t' : Tag) :
    View.drop s.mesiOf (s.holders c si t) si t c si' t' = s.mesiOf c si' t' :=
  if_neg fun h => (mem_holders.mp h.1).1 rfl

/-- SNOOP_UPGR of copies that are all SHARED is their invalidation (rule R163). -/
theorem seq_snoopUpgrAt_of_shared {L : List CoreId} {si : Nat} {t : Tag} {s : State} (hf : s.faultCode = .fNone)
    (hL : ∀ c ∈ L, s.mesiOf c si t = .shared) (hnd : L.Nodup) :
    seq (L.map (snoopUpgrAt si t)) s = seq (L.map fun c => setHolderMesi c si t .invalid) s := by
  induction L generalizing s with
  | nil => rfl
  | cons c L ih =>
    obtain ⟨hc, hnd⟩ := List.nodup_cons.mp hnd
    rw [List.map_cons, List.map_cons, seq_cons hf, seq_cons hf, snoopUpgrAt, if_pos (hL c (List.mem_cons_self ..))]
    refine ih (by simpa using hf) (fun c' hc' => ?_) hnd
    rw [mesiOf_congr (setLines_setHolderMesi_ne fun e => hc (by rwa [← e]))]
    exact hL c' (List.mem_cons_of_mem _ hc')

end Sys2Proof.Machine
end

section
/-! PROOFS. Every step keeps the coherence invariants of a run (O55): phase by phase, what the bus record asks of the
caches, and that each command leaves the caches and the record of the next phase in agreement. -/

namespace Sys2Proof

theorem ReqType.IsDemand.ne_flush {req : ReqType} (h : ReqType.IsDemand req) : req ≠ .flush := by
  obtain rfl | rfl := h <;> simp

namespace Machine

/-! ### What each phase asks of the caches -/

theorem phaseHolds_of_available {s : State} (h : s.bus.available = true) : PhaseHolds s := by
  constructor <;> simp [Bus.awaitsFill, Bus.demandRuns, h]

section

variable {s : State} {c : CoreId}

/-- A demand that waits for its first observation (rules R132, R201). -/
theorem phaseHolds_waiting_iff (hbusy : s.bus.available = false) (hreq : s.bus.reqType ≠ .flush)
    (hdone : s.bus.done = true) (hsrc : s.bus.srcCore = some c) :
    PhaseHolds s ↔ s.demandMesi c = .invalid ∧
      (s.bus.reqType = .busRdX → (s.stats.get c).totalCycles ≠ 0 ∨ ∀ c', s.demandMesi c' = .invalid) := by
  have hawaits : s.bus.awaitsFill = true := by simp [Bus.awaitsFill, Bus.interv, hbusy, hreq]
  have hinterv : s.bus.interv = false := by simp [Bus.interv, hreq]
  have hruns : s.bus.demandRuns = false := by simp [Bus.demandRuns, hdone]
  have hprepared : s.bus.prepared = false := by simp [Bus.prepared, hdone, hreq]
  have hrequester : s.bus.requester = some c := by simp [Bus.requester, hreq, hsrc]
  have hdemand : s.bus.demand = s.bus.reqType := by simp [Bus.demand, hreq]
  constructor
  · intro h
    exact ⟨h.noCopy hawaits c hrequester, fun hx => h.charged hawaits (hdemand.trans hx) hruns hinterv c hrequester⟩
  · rintro ⟨hno, hcharged⟩
    constructor <;> simp_all

/-- A BusRd phase that runs (rules R152–R155). -/
theorem phaseHolds_busRd_iff (hbusy : s.bus.available = false) (hreq : s.bus.reqType = .busRd)
    (hdone : s.bus.done = false) (hsrc : s.bus.srcCore = some c) :
    PhaseHolds s ↔ s.demandMesi c = .invalid ∧ (s.victimLine c (setOf s.cfg s.bus.addr)).valid = false ∧
      (s.bus.respCore = none → ∀ c', s.demandMesi c' = .invalid) ∧
      (s.bus.respCore ≠ none → ∀ c', s.demandMesi c' = .invalid ∨ s.demandMesi c' = .shared) := by
  have hawaits : s.bus.awaitsFill = true := by simp [Bus.awaitsFill, Bus.interv, hbusy, hreq]
  have hruns : s.bus.demandRuns = true := by simp [Bus.demandRuns, hbusy, hdone, hreq]
  have hprepared : s.bus.prepared = true := by simp [Bus.prepared, hbusy, hdone]
  have hrequester : s.bus.requester = some c := by simp [Bus.requester, hreq, hsrc]
  have hdemand : s.bus.demand = .busRd := by simp [Bus.demand, hreq]
  constructor
  · intro h
    exact ⟨h.noCopy hawaits c hrequester, h.slotFree hawaits hprepared c hrequester,
      h.readFromMemory hruns hreq, h.readFromCache hruns hreq⟩
  · rintro ⟨hno, hslot, hmem, hcache⟩
    constructor <;> simp_all

/-- A BusRdX phase that runs (rules R159, R162). -/
theorem phaseHolds_busRdX_iff (hbusy : s.bus.available = false) (hreq : s.bus.reqType = .busRdX)
    (hdone : s.bus.done = false) (hsrc : s.bus.srcCore = some c) :
    PhaseHolds s ↔ (s.victimLine c (setOf s.cfg s.bus.addr)).valid = false ∧ ∀ c', s.demandMesi c' = .invalid := by
  have hawaits : s.bus.awaitsFill = true := by simp [Bus.awaitsFill, Bus.interv, hbusy, hreq]
  have hruns : s.bus.demandRuns = true := by simp [Bus.demandRuns, hbusy, hdone, hreq]
  have hprepared : s.bus.prepared = true := by simp [Bus.prepared, hbusy, hdone]
  have hrequester : s.bus.requester = some c := by simp [Bus.requester, hreq, hsrc]
  have hdemand : s.bus.demand = .busRdX := by simp [Bus.demand, hreq]
  constructor
  · intro h
    exact ⟨h.slotFree hawaits hprepared c hrequester, h.ownership hawaits hdemand (.inl hruns)⟩
  · rintro ⟨hslot, hno⟩
    constructor <;> simp_all

/-- An eviction writeback before the demand (rules R149, R160). -/
theorem phaseHolds_evict_iff (hbusy : s.bus.available = false) (hreq : s.bus.reqType = .flush)
    (hevict : s.bus.evict = true) (hsrc : s.bus.srcCore = some c) :
    PhaseHolds s ↔ s.demandMesi c = .invalid ∧ (s.victimLine c (setOf s.cfg s.bus.addr)).valid = false ∧
      (s.bus.prevReqType = .busRdX → (s.stats.get c).totalCycles ≠ 0 ∨ ∀ c', s.demandMesi c' = .invalid) := by
  have hinterv : s.bus.interv = false := by simp [Bus.interv, hevict]
  have hawaits : s.bus.awaitsFill = true := by simp [Bus.awaitsFill, hinterv, hbusy]
  have hruns : s.bus.demandRuns = false := by simp [Bus.demandRuns, hreq]
  have hprepared : s.bus.prepared = true := by simp [Bus.prepared, hbusy, hreq]
  have hrequester : s.bus.requester = some c := by simp [Bus.requester, hevict, hsrc]
  have hdemand : s.bus.demand = s.bus.prevReqType := by simp [Bus.demand, hreq]
  constructor
  · intro h
    exact ⟨h.noCopy hawaits c hrequester, h.slotFree hawaits hprepared c hrequester,
      fun hx => h.charged hawaits (hdemand.trans hx) hruns hinterv c hrequester⟩
  · rintro ⟨hno, hslot, hcharged⟩
    constructor <;> simp_all

/-- The owner's writeback before a BusRdX (rules R158, R161). -/
theorem phaseHolds_interv_busRdX_iff (hbusy : s.bus.available = false) (hreq : s.bus.reqType = .flush)
    (hevict : s.bus.evict = false) (hprev : s.bus.prevReqType = .busRdX) (hprevCore : s.bus.prevCore = some c) :
    PhaseHolds s ↔ (s.victimLine c (setOf s.cfg s.bus.addr)).valid = false ∧ ∀ c', s.demandMesi c' = .invalid := by
  have hinterv : s.bus.interv = true := by simp [Bus.interv, hevict, hreq]
  have hawaits : s.bus.awaitsFill = true := by simp [Bus.awaitsFill, hprev, hbusy]
  have hruns : s.bus.demandRuns = false := by simp [Bus.demandRuns, hreq]
  have hprepared : s.bus.prepared = true := by simp [Bus.prepared, hbusy, hreq]
  have hrequester : s.bus.requester = some c := by simp [Bus.requester, hevict, hreq, hprevCore]
  have hdemand : s.bus.demand = .busRdX := by simp [Bus.demand, hreq, hprev]
  constructor
  · intro h
    exact ⟨h.slotFree hawaits hprepared c hrequester, h.ownership hawaits hdemand (.inr hinterv)⟩
  · rintro ⟨hslot, hno⟩
    constructor <;> simp_all

/-- The writeback after a BusRd's fill asks nothing (rule R156). -/
theorem phaseHolds_of_interv_busRd (hreq : s.bus.reqType = .flush) (hevict : s.bus.evict = false)
    (hprev : s.bus.prevReqType = .busRd) : PhaseHolds s := by
  have hawaits : s.bus.awaitsFill = false := by simp [Bus.awaitsFill, Bus.interv, hreq, hevict, hprev]
  have hruns : s.bus.demandRuns = false := by simp [Bus.demandRuns, hreq]
  constructor <;> simp [hawaits, hruns]

end

/-! ### Safe states -/

/-- The coherence invariants of a running block. -/
structure Safe (s : State) : Prop where
  tidy : Tidy s
  exclusive : View.Exclusive s.mesiOf
  phase : PhaseHolds s

/-- The phase on the bus still fits where the demanded block has lost copies, or none. -/
theorem PhaseHolds.of_leads {s u : State} {V : View} (h : PhaseHolds s) (hl : Leads s s.bus V u)
    (hinvalid : ∀ c, s.demandMesi c = .invalid → u.demandMesi c = .invalid)
    (hshared : ∀ c, s.demandMesi c = .shared → u.demandMesi c = .shared) : PhaseHolds u where
  noCopy := by
    rw [hl.bus]
    exact fun h1 q hq => hinvalid q (h.noCopy h1 q hq)
  slotFree := by
    rw [hl.bus, hl.cfg]
    exact fun h1 h2 q hq => hl.slot q _ (h.slotFree h1 h2 q hq)
  readFromMemory := by
    rw [hl.bus]
    exact fun h1 h2 h3 c => hinvalid c (h.readFromMemory h1 h2 h3 c)
  readFromCache := by
    rw [hl.bus]
    exact fun h1 h2 h3 c => (h.readFromCache h1 h2 h3 c).imp (hinvalid c) (hshared c)
  ownership := by
    rw [hl.bus]
    exact fun h1 h2 h3 c => hinvalid c (h.ownership h1 h2 h3 c)
  charged := by
    rw [hl.bus]
    exact fun h1 h2 h3 h4 q hq => (h.charged h1 h2 h3 h4 q hq).imp (hl.charged q) fun hno c => hinvalid c (hno c)

theorem demandMesi_of_leads {s u : State} {b : Bus} {V : View} (hl : Leads s b V u) (c : CoreId) :
    u.demandMesi c = V c (setOf s.cfg b.addr) (tagOf s.cfg b.addr) := by
  rw [State.demandMesi, hl.cfg, hl.bus, hl.mesi]

theorem Leads.slotFree {s u : State} {b : Bus} {V : View} (hl : Leads s b V u) {c : CoreId}
    (h : (s.victimLine c (setOf s.cfg b.addr)).valid = false) :
    (u.victimLine c (setOf u.cfg u.bus.addr)).valid = false := by
  rw [hl.cfg, hl.bus]
  exact hl.slot c _ h

theorem Safe.of_quiet {s u : State} (hs : Safe s) (h : Quiet s u) : Safe u where
  tidy := h.tidy
  exclusive := h.mesi ▸ hs.exclusive
  phase := hs.phase.of_leads h (fun c hc => (demandMesi_of_leads h c).trans hc)
    fun c hc => (demandMesi_of_leads h c).trans hc

/-! ### Accesses -/

/-- What each class of an access says of the lookup, the copy found and the bus (rule R125). -/
theorem classify_cases (s : State) (c : CoreId) (a : Addr) (w : Bool) :
    (∃ k, s.classify c a w = .readHit k ∧ s.lookup c (setOf s.cfg a) (tagOf s.cfg a) = some k) ∨
    (∃ k, s.classify c a w = .writeHit k ∧ s.lookup c (setOf s.cfg a) (tagOf s.cfg a) = some k ∧
      (s.mesiOf c (setOf s.cfg a) (tagOf s.cfg a) = .modified ∨
        s.mesiOf c (setOf s.cfg a) (tagOf s.cfg a) = .exclusive)) ∨
    (∃ k, s.classify c a w = .upgrade k ∧ s.lookup c (setOf s.cfg a) (tagOf s.cfg a) = some k ∧
      s.mesiOf c (setOf s.cfg a) (tagOf s.cfg a) = .shared ∧ s.bus.available = true) ∨
    (s.classify c a w = .issue ∧ s.mesiOf c (setOf s.cfg a) (tagOf s.cfg a) = .invalid) ∨
    s.classify c a w = .stall := by
  cases hlk : s.lookup c (setOf s.cfg a) (tagOf s.cfg a) with
  | none =>
    have hno := mesiOf_eq_invalid.mpr hlk
    cases hav : s.bus.available <;> simp [State.classify, hlk, hav, hno]
  | some k =>
    have hvalid : s.mesiOf c (setOf s.cfg a) (tagOf s.cfg a) ≠ .invalid := fun h => by
      simp [mesiOf_eq_invalid.mp h] at hlk
    cases w with
    | false => simp [State.classify, hlk]
    | true =>
      cases hm : s.mesiOf c (setOf s.cfg a) (tagOf s.cfg a) with
      | invalid => exact absurd hm hvalid
      | modified => simp [State.classify, hlk, hm]
      | exclusive => simp [State.classify, hlk, hm]
      | shared => cases hav : s.bus.available <;> simp [State.classify, hlk, hm, hav]

theorem Safe.readHit {s : State} (hs : Safe s) (hf : s.faultCode = .fNone) {c : CoreId} {si k : Nat} {t : Tag}
    (hsi : si < s.cfg.numSets) (hk : s.lookup c si t = some k) : UnlessOverflow Safe (readHit c si k s) := by
  obtain ⟨l, hl, hvalid, -, -⟩ := lineAt_of_lookup hk
  exact (hs.tidy.quiet_completeAccess hf hsi hl (by simpa [Line.valid] using hvalid) _).imp hs.of_quiet

/-- An entry that differs from the replaced one stays. -/
theorem View.set_of_ne {V : View} {c c' : CoreId} {si si' : Nat} {t t' : Tag} {m : Mesi} (h : V c' si' t' ≠ V c si t) :
    V.set c si t m c' si' t' = V c' si' t' :=
  if_neg fun ⟨hc, hsi, ht⟩ => h (by rw [hc, hsi, ht])

/-- A write hit on an owned line takes the block from no one, and leaves the phase on the bus what it asks: of the
demanded block that is INVALID and SHARED copies. -/
theorem Safe.writeHit {s : State} (hs : Safe s) (hf : s.faultCode = .fNone) {c : CoreId} {si k : Nat} {t : Tag}
    (hsi : si < s.cfg.numSets) (hk : s.lookup c si t = some k)
    (hown : s.mesiOf c si t = .modified ∨ s.mesiOf c si t = .exclusive) :
    UnlessOverflow Safe (writeHit c si k s) := by
  refine (hs.tidy.leads_writeHit hf hsi hk).imp fun hl => ?_
  have hstay : ∀ c', s.demandMesi c' ≠ s.mesiOf c si t →
      (Machine.writeHit c si k s).demandMesi c' = s.demandMesi c' := by
    intro c' hne
    rw [demandMesi_of_leads hl, View.set_of_ne hne]
    rfl
  refine ⟨hl.tidy, ?_, hs.phase.of_leads hl (fun c' hc' => (hstay c' ?_).trans hc') fun c' hc' =>
    (hstay c' ?_).trans hc'⟩
  · rw [hl.mesi]
    exact hs.exclusive.set fun c' hc' => .inr (.inl (hs.exclusive.invalid_of_owned hc' hown))
  · obtain h | h := hown <;> simp [hc', h]
  · obtain h | h := hown <;> simp [hc', h]

/-- SNOOP_UPGR for a block that core `c` holds SHARED: every other copy is SHARED too, and becomes INVALID. -/
theorem Tidy.leads_snoopUpgr {s : State} (hs : Tidy s) (hex : View.Exclusive s.mesiOf) (hf : s.faultCode = .fNone)
    {c : CoreId} {si : Nat} {t : Tag} (hsi : si < s.cfg.numSets) (hshared : s.mesiOf c si t = .shared) :
    (snoopUpgr c si t s).faultCode = .fNone ∧
      Leads s s.bus (View.drop s.mesiOf (s.holders c si t) si t) (snoopUpgr c si t s) ∧
      (snoopUpgr c si t s).setLines c si = s.setLines c si := by
  have hholders : ∀ c' ∈ s.holders c si t, s.mesiOf c' si t = .shared := by
    intro c' hc'
    obtain ⟨hne, hlk⟩ := mem_holders.mp hc'
    obtain h | h | ⟨-, h⟩ := hex c c' si t (Ne.symm hne)
    · simp [hshared] at h
    · exact absurd (mesiOf_eq_invalid.mp h) hlk
    · exact h
  have hsnoop : snoopUpgr c si t s = invalidateHolders c si t s :=
    seq_snoopUpgrAt_of_shared hf hholders (holders_nodup s c si t)
  rw [hsnoop]
  obtain ⟨hnone, hdrop⟩ := hs.leads_invalidateHolders (c := c) (t := t) hsi hf
  refine ⟨hnone, hdrop, seq_keeps (fun u => u.setLines c si) (List.forall_mem_map.mpr fun c' hc' u => ?_) s⟩
  exact setLines_setHolderMesi_ne (mem_holders.mp hc').1.symm

/-- The bus record that an upgrade writes (rule R129). -/
def upgradeBus (c : CoreId) (a : Addr) (b : Bus) : Bus := { b with srcCore := some c, addr := a, reqType := .busUpgr }

/-- An upgrade takes the block from every other cache before it owns it, and needs an available bus
(rules R128, R129). -/
theorem Safe.busUpgr {s : State} (hs : Safe s) (hf : s.faultCode = .fNone) {c : CoreId} {a : Addr} {k : Nat}
    (hk : s.lookup c (setOf s.cfg a) (tagOf s.cfg a) = some k)
    (hshared : s.mesiOf c (setOf s.cfg a) (tagOf s.cfg a) = .shared) (hav : s.bus.available = true) :
    UnlessOverflow Safe (busUpgr c a k s) := by
  have hsi := setOf_lt s.cfg a
  have hbus := hs.tidy.leads_setBus (upgradeBus c a s.bus)
  obtain ⟨hnone, hdrop, hlines⟩ := hbus.tidy.leads_snoopUpgr (c := c) (t := tagOf s.cfg a) hs.exclusive hf hsi hshared
  refine .seq_cons hf (.inr ⟨hf, hbus⟩) fun _ _ => .seq_cons hf (.inr ⟨hnone, hdrop⟩) fun _ hnone => ?_
  refine .seq_cons hnone (hdrop.tidy.quiet_inc hnone _ _) fun hinv hnone => ?_
  refine .seq_cons hnone (hinv.tidy.quiet_inc hnone _ _) fun htrans hnone => ?_
  have hpre := (hbus.trans hdrop).trans_quiet hinv |>.trans_quiet htrans
  refine (htrans.tidy.leads_writeHit hnone (by rwa [hpre.cfg]) (t := tagOf s.cfg a) ?_).imp fun hl => ?_
  · rw [← hk]
    exact lookup_congr ((setLines_inc _ _ _ _ _).trans ((setLines_inc _ _ _ _ _).trans hlines)) _
  · refine ⟨hl.tidy, ?_, phaseHolds_of_available ?_⟩
    · rw [hl.mesi, hpre.mesi]
      refine View.Exclusive.set (hs.exclusive.of_invalidated fun c' si' t' => View.drop_eq_or _ _ _ _ _ _ _) ?_
      exact fun c' hc' => .inr (.inl (drop_holders_invalid (s := s) hc'))
    · rw [hl.bus, hpre.bus]
      exact hav

theorem Safe.issue {s : State} (hs : Safe s) (hf : s.faultCode = .fNone) {c : CoreId} {a : Addr} (w : Bool)
    (hno : s.mesiOf c (setOf s.cfg a) (tagOf s.cfg a) = .invalid) : UnlessOverflow Safe (issue c a w s) := by
  refine (hs.tidy.leads_issue hf c a w).imp fun ⟨hl, hcharged⟩ => ⟨hl.tidy, hl.mesi ▸ hs.exclusive, ?_⟩
  refine (phaseHolds_waiting_iff (c := c) ?_ ?_ ?_ ?_).mpr
    ⟨(demandMesi_of_leads hl c).trans hno, fun _ => .inl hcharged⟩
    <;> rw [hl.bus]
  · rfl
  · cases w <;> simp [issueBus]
  · rfl
  · rfl

theorem Safe.access {s : State} (hs : Safe s) (hf : s.faultCode = .fNone) (c : CoreId) (a : Addr) (w : Bool) :
    UnlessOverflow Safe (access c a w s) := by
  have hsi := setOf_lt s.cfg a
  unfold Machine.access
  obtain ⟨k, hclass, hk⟩ | ⟨k, hclass, hk, hown⟩ | ⟨k, hclass, hk, hshared, hav⟩ | ⟨hclass, hno⟩ | hclass :=
    classify_cases s c a w <;> simp only [hclass]
  · exact hs.readHit hf hsi hk
  · exact hs.writeHit hf hsi hk hown
  · exact hs.busUpgr hf hk hshared hav
  · exact hs.issue hf w hno
  · exact (hs.tidy.quiet_stall hf c).imp hs.of_quiet

/-! ### Iterations of the snoop -/

/-- The iterations that a snoop may still need: a phase that ends puts a demand or a writeback on the bus that waits, a
waiting demand may put a writeback before itself, and a waiting writeback starts. -/
def Bus.snoopsLeft (b : Bus) : Nat := if b.done then (if b.reqType = .flush then 1 else 2) else 3

/-- Where a phase waits for its first observation in `u`, the snoop of `s` came closer to its end. -/
def Closer (s u : State) : Prop := u.bus.done = true → u.bus.snoopsLeft < s.bus.snoopsLeft

theorem closer_of_started {s u : State} (h : u.bus.done = false) : Closer s u := fun h' => by simp [h] at h'

theorem closer_of_ended {s u : State} (h : s.bus.done = false) : Closer s u := fun h' => by
  simp only [Bus.snoopsLeft, h, h', if_true, Bool.false_eq_true, if_false]
  split <;> omega

theorem closer_of_writeback {s u : State} (h : s.bus.reqType ≠ .flush) (hu : u.bus.reqType = .flush) : Closer s u :=
  fun h' => by
    simp only [Bus.snoopsLeft, h, hu, h', if_true, if_false]
    split <;> omega

theorem snoopsLeft_of_waiting {b : Bus} (h : b.reqType ≠ .flush) (hdone : b.done = true) : b.snoopsLeft = 2 := by
  simp [Bus.snoopsLeft, h, hdone]

/-! ### Demands -/

/-- A demand of core `c` for address `a` is on the bus of a safe state. -/
structure Demanded (s : State) (c : CoreId) (a : Addr) (req : ReqType) : Prop where
  safe : Safe s
  busy : s.bus.available = false
  src : s.bus.srcCore = some c
  addr : s.bus.addr = a
  req : s.bus.reqType = req

/-- The demand waits, and its victim slot is free. -/
structure Ready (s : State) (c : CoreId) (a : Addr) (req : ReqType) : Prop extends Demanded s c a req where
  done : s.bus.done = true
  slotFree : (s.victimLine c (setOf s.cfg a)).valid = false

theorem Leads.updateBus {s u : State} {b : Bus} {V : View} (h : Leads s b V u) (g : Bus → Bus) :
    Leads s (g b) V { u with bus := g u.bus } := by
  obtain rfl := h.bus
  have := h.trans (h.tidy.leads_setBus (g u.bus))
  rwa [h.mesi] at this

section

variable {s : State} {c : CoreId} {a : Addr} {req : ReqType}

/-- What holds of the caches while a demand waits. -/
theorem Demanded.waiting (hd : Demanded s c a req) (hreq : ReqType.IsDemand req) (hdone : s.bus.done = true) :
    s.mesiOf c (setOf s.cfg a) (tagOf s.cfg a) = .invalid ∧
      (req = .busRdX →
        (s.stats.get c).totalCycles ≠ 0 ∨ ∀ c', s.mesiOf c' (setOf s.cfg a) (tagOf s.cfg a) = .invalid) := by
  obtain ⟨hs, hbusy, hsrc, rfl, rfl⟩ := hd
  exact (phaseHolds_waiting_iff hbusy (ReqType.IsDemand.ne_flush hreq) hdone hsrc).mp hs.phase

theorem Demanded.victimPrep_prepared (hd : Demanded s c a req) (hf : s.faultCode = .fNone)
    (hreq : ReqType.IsDemand req) (hdone : s.bus.done = true) :
    UnlessOverflow (Prepared s c (setOf s.cfg a) (tagOf s.cfg a)
      (if s.victimDirty c (setOf s.cfg a) then evictFlushBus req s.bus else s.bus))
      (victimPrep c (setOf s.cfg a) req s) :=
  hd.safe.tidy.victimPrep_prepared hd.safe.exclusive hf (setOf_lt _ _) (hd.waiting hreq hdone).1 req

/-- The first observation of a demand whose victim is dirty: the victim is written back first (rules R147, R149). -/
theorem Demanded.victimPrep_dirty (hd : Demanded s c a req) (hf : s.faultCode = .fNone) (hreq : ReqType.IsDemand req)
    (hdone : s.bus.done = true) (hdirty : s.victimDirty c (setOf s.cfg a) = true) :
    UnlessOverflow (fun u => Safe u ∧ Closer s u) (victimPrep c (setOf s.cfg a) req s) := by
  obtain ⟨hno, hcharged⟩ := hd.waiting hreq hdone
  have hprep := hd.victimPrep_prepared hf hreq hdone
  obtain ⟨-, hbusy, hsrc, rfl, rfl⟩ := hd
  rw [hdirty, if_pos rfl] at hprep
  refine hprep.imp fun hp => ⟨⟨hp.leads.tidy, hp.exclusive, ?_⟩, ?_⟩
  · have hdemand : ∀ c', (victimPrep c (setOf s.cfg s.bus.addr) s.bus.reqType s).demandMesi c' =
        s.mesiOf c' (setOf s.cfg s.bus.addr) (tagOf s.cfg s.bus.addr) :=
      fun c' => (demandMesi_of_leads hp.leads c').trans (hp.block c')
    refine (phaseHolds_evict_iff (c := c) ?_ ?_ ?_ ?_).mpr ⟨?_, ?_, ?_⟩
    · rw [hp.leads.bus]; exact hbusy
    · rw [hp.leads.bus]; rfl
    · rw [hp.leads.bus]; rfl
    · rw [hp.leads.bus]; exact hsrc
    · rw [hdemand]; exact hno
    · rw [hp.leads.cfg, hp.leads.bus]; exact hp.slotFree
    · rw [hp.leads.bus]
      exact fun hx => (hcharged hx).imp (hp.leads.charged c) fun h c' => (hdemand c').trans (h c')
  · refine closer_of_writeback (ReqType.IsDemand.ne_flush hreq) ?_
    rw [hp.leads.bus]; rfl

/-- The first observation of a demand whose victim is clean: the demand is ready to start (rules R147, R150). -/
theorem Demanded.victimPrep_clean (hd : Demanded s c a req) (hf : s.faultCode = .fNone) (hreq : ReqType.IsDemand req)
    (hdone : s.bus.done = true) (hclean : s.victimDirty c (setOf s.cfg a) = false) :
    UnlessOverflow (fun u => u.cfg = s.cfg ∧ Ready u c a req) (victimPrep c (setOf s.cfg a) req s) := by
  obtain ⟨hno, hcharged⟩ := hd.waiting hreq hdone
  have hprep := hd.victimPrep_prepared hf hreq hdone
  obtain ⟨-, hbusy, hsrc, rfl, rfl⟩ := hd
  rw [hclean] at hprep
  refine hprep.imp fun hp => ⟨hp.leads.cfg, ?_⟩
  have hbus := hp.leads.bus
  simp only [Bool.false_eq_true, if_false] at hbus
  have hphase : PhaseHolds (victimPrep c (setOf s.cfg s.bus.addr) s.bus.reqType s) := by
    have hdemand : ∀ c', (victimPrep c (setOf s.cfg s.bus.addr) s.bus.reqType s).demandMesi c' =
        s.mesiOf c' (setOf s.cfg s.bus.addr) (tagOf s.cfg s.bus.addr) :=
      fun c' => (demandMesi_of_leads hp.leads c').trans (hp.block c')
    refine (phaseHolds_waiting_iff (c := c) ?_ ?_ ?_ ?_).mpr ⟨(hdemand c).trans hno, ?_⟩ <;> rw [hbus]
    · exact hbusy
    · exact ReqType.IsDemand.ne_flush hreq
    · exact hdone
    · exact hsrc
    · exact fun hx => (hcharged hx).imp (hp.leads.charged c) fun h c' => (hdemand c').trans (h c')
  refine ⟨⟨⟨hp.leads.tidy, hp.exclusive, hphase⟩, ?_, ?_, ?_, ?_⟩, ?_, ?_⟩
  · rw [hbus]; exact hbusy
  · rw [hbus]; exact hsrc
  · rw [hbus]
  · rw [hbus]
  · rw [hbus]; exact hdone
  · rw [hp.leads.cfg]; exact hp.slotFree

/-- The observation of a demand that waits is its victim preparation, and where that writes nothing back its start. -/
theorem Demanded.observe_waiting (hd : Demanded s c a req) (hf : s.faultCode = .fNone) (hreq : ReqType.IsDemand req)
    (hdone : s.bus.done = true) {start : State → State}
    (hstart : ∀ u, u.faultCode = .fNone → u.cfg = s.cfg → Ready u c a req →
      UnlessOverflow (fun w => Safe w ∧ Closer u w) (start u)) :
    UnlessOverflow (fun u => Safe u ∧ Closer s u)
      (if s.victimDirty c (setOf s.cfg a) then victimPrep c (setOf s.cfg a) req s
        else seq [victimPrep c (setOf s.cfg a) req, start] s) := by
  have hne := ReqType.IsDemand.ne_flush hreq
  cases hdirty : s.victimDirty c (setOf s.cfg a) with
  | true => exact hd.victimPrep_dirty hf hreq hdone hdirty
  | false =>
    rw [if_neg (by simp)]
    refine .seq_cons hf (hd.victimPrep_clean hf hreq hdone hdirty) fun ⟨hcfg, hu⟩ hnone => ?_
    refine .seq_last hnone ((hstart _ hnone hcfg hu).imp fun ⟨hw, hcloser⟩ => ⟨hw, fun h => ?_⟩)
    have hleft := hcloser h
    rwa [snoopsLeft_of_waiting (by rwa [hu.req]) hu.done,
      ← snoopsLeft_of_waiting (by rwa [hd.req]) hdone] at hleft

end

/-! ### BusRd -/

/-- Beside a copy of a block every other copy is SHARED. -/
theorem View.Exclusive.shared_compatible {V : View} (h : V.Exclusive) {c c' : CoreId} {si : Nat} {t : Tag}
    (hc : V c si t ≠ .invalid) (hne : c' ≠ c) : Mesi.Compatible .shared (V c' si t) := by
  obtain h | h | ⟨-, h⟩ := h c c' si t hne.symm
  · exact absurd h hc
  · exact .inr (.inl h)
  · exact .inr (.inr ⟨rfl, h⟩)

section

variable {s : State} {c : CoreId} {a : Addr}

/-- BUSRD_START served by memory: no cache holds the block (rule R153). -/
theorem Ready.busRdStartMem_safe (hr : Ready s c a .busRd) (hnone : s.holders c (setOf s.cfg a) (tagOf s.cfg a) = []) :
    Safe (busRdStartMem s) := by
  obtain ⟨hno, -⟩ := hr.waiting (.inl rfl) hr.done
  have hall : ∀ c', s.mesiOf c' (setOf s.cfg a) (tagOf s.cfg a) = .invalid := by
    intro c'
    by_cases hc : c' = c
    · rwa [hc]
    · by_contra hm
      have : c' ∈ s.holders c (setOf s.cfg a) (tagOf s.cfg a) :=
        mem_holders.mpr ⟨hc, fun h => hm (mesiOf_eq_invalid.mpr h)⟩
      simp [hnone] at this
  have hslot := hr.slotFree
  obtain ⟨⟨hs, hbusy, hsrc, rfl, hreq⟩, -, -⟩ := hr
  exact ⟨(hs.tidy.leads_setBus _).tidy, hs.exclusive,
    (phaseHolds_busRd_iff (s := busRdStartMem s) hbusy hreq rfl hsrc).mpr
      ⟨hno, hslot, fun _ => hall, fun h => absurd rfl h⟩⟩

/-- The last line of rule R152: a BusRd phase from a cache runs once only SHARED copies are left. -/
theorem Leads.busRdFromCache {u : State} {b : Bus} {V : View} (hl : Leads s b V u) (hex : V.Exclusive)
    (hbusy : b.available = false) (hreq : b.reqType = .busRd) (hsrc : b.srcCore = some c) (hresp : b.respCore ≠ none)
    (hno : V c (setOf s.cfg b.addr) (tagOf s.cfg b.addr) = .invalid)
    (hslot : (s.victimLine c (setOf s.cfg b.addr)).valid = false)
    (hshared : ∀ c', V c' (setOf s.cfg b.addr) (tagOf s.cfg b.addr) = .invalid ∨
      V c' (setOf s.cfg b.addr) (tagOf s.cfg b.addr) = .shared) (n : BitVec 32) :
    Safe { u with bus := { u.bus with cyclesRemaining := n, done := false } } := by
  have hrun := hl.updateBus fun b => { b with cyclesRemaining := n, done := false }
  have hdemand := demandMesi_of_leads hrun
  refine ⟨hrun.tidy, hrun.mesi ▸ hex, (phaseHolds_busRd_iff (c := c) ?_ ?_ rfl ?_).mpr
    ⟨(hdemand c).trans hno, ?_, fun h => ?_, fun _ c' => by rw [hdemand c']; exact hshared c'⟩⟩
  · rw [hrun.bus]; exact hbusy
  · rw [hrun.bus]; exact hreq
  · rw [hrun.bus]; exact hsrc
  · exact hrun.slotFree hslot
  · rw [hrun.bus] at h
    exact absurd h hresp

/-- BUSRD_START served by a cache: every copy is SHARED from then on (rule R152). -/
theorem Ready.busRdStartCache_safe (hr : Ready s c a .busRd) (hf : s.faultCode = .fNone) {r : CoreId}
    (hmem : r ∈ s.holders c (setOf s.cfg a) (tagOf s.cfg a)) :
    UnlessOverflow (fun u => Safe u ∧ Closer s u) (busRdStartCache r (setOf s.cfg a) (tagOf s.cfg a) s) := by
  obtain ⟨hrc, hlk⟩ := mem_holders.mp hmem
  have hm : s.mesiOf r (setOf s.cfg a) (tagOf s.cfg a) ≠ .invalid := fun h => hlk (mesiOf_eq_invalid.mp h)
  obtain ⟨hno, -⟩ := hr.waiting (.inl rfl) hr.done
  have hslot := hr.slotFree
  obtain ⟨⟨hs, hbusy, hsrc, rfl, hreq⟩, -, -⟩ := hr
  have hresp := hs.tidy.leads_setBus { s.bus with
    respCore := some r, prevMesi := s.mesiOf r (setOf s.cfg s.bus.addr) (tagOf s.cfg s.bus.addr) }
  have hshare := hresp.trans (hresp.tidy.leads_setHolderMesi (setOf_lt _ _) hm .shared)
  refine .seq_cons hf (.inr ⟨hf, hresp⟩) fun _ _ => .seq_cons hf (.inr ⟨by simpa using hf, hshare⟩) fun _ hnone =>
    .seq_last hnone (.inr ⟨hnone, hshare.busRdFromCache ?_ hbusy hreq hsrc (by simp) ?_ hslot (fun c' => ?_) _,
      closer_of_started rfl⟩)
  · exact hs.exclusive.set fun c' hc' => hs.exclusive.shared_compatible hm hc'
  · exact (View.set_core_ne _ _ _ _ _ _ hrc.symm).trans hno
  · by_cases hc : c' = r
    · rw [hc]
      exact .inr (View.set_self _ _ _ _ _)
    · have hother := hs.exclusive.shared_compatible hm hc
      simp only [Mesi.Compatible, reduceCtorEq, false_or, true_and] at hother
      exact (View.set_core_ne _ _ _ _ _ _ hc).symm ▸ hother

theorem Ready.busRdStart (hr : Ready s c a .busRd) (hf : s.faultCode = .fNone) :
    UnlessOverflow (fun u => Safe u ∧ Closer s u) (busRdStart c (setOf s.cfg a) (tagOf s.cfg a) s) := by
  unfold Machine.busRdStart
  split
  case h_1 hnone => exact .inr ⟨hf, hr.busRdStartMem_safe hnone, closer_of_started rfl⟩
  case h_2 r rest hsome => exact hr.busRdStartCache_safe hf (by rw [hsome]; exact List.mem_cons_self ..)

/-- The release of the bus leaves the caches as they are. -/
theorem Filled.release {u : State} {si : Nat} {t : Tag} {m : Mesi} (h : Filled s c si t m u)
    (hex : View.Exclusive s.mesiOf) (hm : ∀ c', c' ≠ c → m.Compatible (s.mesiOf c' si t)) : Safe (releaseBus u) where
  tidy := (h.tidy.leads_setBus { u.bus with available := true }).tidy
  exclusive := by
    show View.Exclusive u.mesiOf
    rw [h.mesi]
    exact hex.set hm
  phase := phaseHolds_of_available rfl

/-- The fill that ends a transaction (rules R154, R162). -/
theorem Safe.fill (hs : Safe s) (hf : s.faultCode = .fNone) (hE : 1 ≤ s.cfg.E) {si : Nat} {t : Tag} {m : Mesi}
    (hsi : si < s.cfg.numSets) (hslot : (s.victimLine c si).valid = false) (hno : ∀ c', s.mesiOf c' si t = .invalid)
    (hm : m ≠ .invalid) : UnlessOverflow Safe (seq [install c si t m, releaseBus] s) :=
  .seq_cons hf (hs.tidy.install_filled hf hE hsi hslot (hno c) hm) fun hfill hnone =>
    .seq_last hnone (.inr ⟨hnone, hfill.release hs.exclusive fun c' _ => .inr (.inl (hno c'))⟩)

/-- BUSRD_DONE_C2C: the block joins SHARED copies, and a responder that held it MODIFIED writes it back
(rules R155, R156). -/
theorem Safe.busRdDoneC2C (hs : Safe s) (hf : s.faultCode = .fNone) (hE : 1 ≤ s.cfg.E) {si : Nat} {t : Tag} {r : CoreId}
    (hsi : si < s.cfg.numSets) (hslot : (s.victimLine c si).valid = false) (hno : s.mesiOf c si t = .invalid)
    (hshared : ∀ c', s.mesiOf c' si t = .invalid ∨ s.mesiOf c' si t = .shared) :
    UnlessOverflow Safe (busRdDoneC2C c r si t s) := by
  have hm : ∀ c', c' ≠ c → Mesi.Compatible .shared (s.mesiOf c' si t) := fun c' _ => by
    obtain h | h := hshared c' <;> simp [Mesi.Compatible, h]
  refine .seq_cons hf (hs.tidy.install_filled (t := t) hf hE hsi hslot hno (m := .shared) (by simp)) fun hfill hnone =>
    .seq_cons hnone (hfill.tidy.quiet_inc hnone _ _) fun hquiet hnone => .seq_last hnone ?_
  have hfill' : Filled s c si t .shared (inc (.stat r .dataTrafficBytes) s.cfg.blockSize (install c si t .shared s)) :=
    ⟨hquiet.cfg.trans hfill.cfg, hquiet.bus.trans hfill.bus, hquiet.tidy, hquiet.mesi.trans hfill.mesi⟩
  split
  · refine (hfill'.tidy.leads_chainIntervFlush hnone c r .busRd).imp fun hl => ⟨hl.tidy, ?_, ?_⟩
    · rw [hl.mesi, hfill'.mesi]
      exact hs.exclusive.set hm
    · apply phaseHolds_of_interv_busRd <;> rw [hl.bus] <;> rfl
  · exact .inr ⟨hnone, hfill'.release hs.exclusive hm⟩

theorem Demanded.observeBusRd (hd : Demanded s c a .busRd) (hf : s.faultCode = .fNone) (hE : 1 ≤ s.cfg.E) :
    UnlessOverflow (fun u => Safe u ∧ Closer s u) (observeBusRd c a s) := by
  unfold Machine.observeBusRd
  simp only
  rw [if_neg (by simp [hd.busy])]
  cases hdone : s.bus.done with
  | true =>
    rw [if_pos rfl]
    refine hd.observe_waiting hf (.inl rfl) hdone fun u hu hcfg hr => ?_
    rw [← hcfg]
    exact hr.busRdStart hu
  | false =>
    rw [if_neg (by simp)]
    split
    case isFalse => exact .inr ⟨hf, hd.safe, closer_of_started hdone⟩
    case isTrue =>
      have hsi := setOf_lt s.cfg a
      obtain ⟨hs, hbusy, hsrc, rfl, hreq⟩ := hd
      obtain ⟨hno, hslot, hmem, hcache⟩ := (phaseHolds_busRd_iff hbusy hreq hdone hsrc).mp hs.phase
      split
      case h_1 hresp => exact (hs.fill hf hE hsi hslot (hmem hresp) (by simp)).imp fun h => ⟨h, closer_of_ended hdone⟩
      case h_2 r hresp =>
        exact (hs.busRdDoneC2C hf hE hsi hslot hno (hcache (by simp [hresp]))).imp fun h => ⟨h, closer_of_ended hdone⟩

/-! ### BusRdX -/

/-- The invalidation of a ready demand's holders leaves no copy of its block (rule R158). -/
theorem Ready.leads_invalidateHolders (hr : Ready s c a .busRdX) (hf : s.faultCode = .fNone) :
    (invalidateHolders c (setOf s.cfg a) (tagOf s.cfg a) s).faultCode = .fNone ∧
      ∃ V, Leads s s.bus V (invalidateHolders c (setOf s.cfg a) (tagOf s.cfg a) s) ∧ V.Exclusive ∧
        ∀ c', V c' (setOf s.cfg a) (tagOf s.cfg a) = .invalid := by
  obtain ⟨hno, -⟩ := hr.waiting (.inr rfl) hr.done
  obtain ⟨hnone, hdrop⟩ := hr.safe.tidy.leads_invalidateHolders (c := c) (t := tagOf s.cfg a) (setOf_lt s.cfg a) hf
  refine ⟨hnone, _, hdrop, hr.safe.exclusive.of_invalidated fun c' si' t' => View.drop_eq_or _ _ _ _ _ _ _,
    fun c' => ?_⟩
  by_cases hc : c' = c
  · rw [hc]
    exact (drop_holders_self _ _).trans hno
  · exact drop_holders_invalid hc

/-- NO_OWNER: the BusRdX phase runs once no copy is left (rule R159). -/
theorem Leads.busRdXFromMemory {u : State} {b : Bus} {V : View} (hl : Leads s b V u) (hex : V.Exclusive)
    (hbusy : b.available = false) (hreq : b.reqType = .busRdX) (hsrc : b.srcCore = some c)
    (hslot : (s.victimLine c (setOf s.cfg b.addr)).valid = false)
    (hno : ∀ c', V c' (setOf s.cfg b.addr) (tagOf s.cfg b.addr) = .invalid) : Safe (busRdXStartMem u) := by
  have hrun : Leads s { b with cyclesRemaining := BitVec.ofNat 32 memoryCycles, done := false } V (busRdXStartMem u) :=
    hl.updateBus fun b => { b with cyclesRemaining := BitVec.ofNat 32 memoryCycles, done := false }
  refine ⟨hrun.tidy, hrun.mesi ▸ hex, (phaseHolds_busRdX_iff (c := c) ?_ ?_ rfl ?_).mpr
    ⟨hrun.slotFree hslot, fun c' => (demandMesi_of_leads hrun c').trans (hno c')⟩⟩
  · rw [hrun.bus]; exact hbusy
  · rw [hrun.bus]; exact hreq
  · rw [hrun.bus]; exact hsrc

/-- The owner's writeback before a BusRdX, and the adjustment of its requester, who has a tick to move
(rules R158, R201). -/
theorem Leads.adjusted {u : State} {V : View} {o : CoreId}
    (hl : Leads s (intervFlushBus c o .busRdX s.bus) V u) (hex : V.Exclusive) (hf : u.faultCode = .fNone)
    (hbusy : s.bus.available = false) (hslot : (s.victimLine c (setOf s.cfg s.bus.addr)).valid = false)
    (hno : ∀ c', V c' (setOf s.cfg s.bus.addr) (tagOf s.cfg s.bus.addr) = .invalid)
    (hcharged : (u.stats.get c).totalCycles ≠ 0) : UnlessOverflow Safe (adjustRequester c u) := by
  have hsafe : ∀ w : State, w.cfg = u.cfg → w.bus = u.bus →
      (∀ c', (w.cache.get c').sets = (u.cache.get c').sets) → Safe w := by
    intro w hcfg hbus hsets
    have hlines : ∀ c' si, w.setLines c' si = u.setLines c' si := fun c' si => setLines_congr hcfg (hsets c') si
    have hmesi : w.mesiOf = V := (mesiOf_eq_of_setLines hlines).trans hl.mesi
    refine ⟨hl.tidy.of_sets hcfg hsets, hmesi ▸ hex, ?_⟩
    refine (phaseHolds_interv_busRdX_iff (c := c) ?_ ?_ ?_ ?_ ?_).mpr ⟨?_, fun c' => ?_⟩
    · rw [hbus, hl.bus]; exact hbusy
    · rw [hbus, hl.bus]; rfl
    · rw [hbus, hl.bus]; rfl
    · rw [hbus, hl.bus]; rfl
    · rw [hbus, hl.bus]; rfl
    · rw [victimLine_of_setLines hlines, hcfg, hbus]
      exact hl.slotFree hslot
    · rw [State.demandMesi, hmesi, hcfg, hbus, hl.cfg, hl.bus]
      exact hno c'
  unfold adjustRequester
  rw [if_neg (show ¬ u.counter (.stat c .totalCycles) = 0 from hcharged)]
  have hdec := hsafe (u.setCounter (.stat c .totalCycles) (u.counter (.stat c .totalCycles) - 1)) (by simp) (by simp)
    (by simp)
  refine .seq_cons hf (.inr ⟨by simpa using hf, hdec⟩) fun _ hnone => .seq_last hnone ?_
  exact (hdec.tidy.quiet_inc hnone _ _).imp hdec.of_quiet

/-- BUSRDX_START of a ready demand (rules R158, R159). -/
theorem Ready.busRdXStart (hr : Ready s c a .busRdX) (hf : s.faultCode = .fNone) :
    UnlessOverflow (fun u => Safe u ∧ Closer s u) (busRdXStart c (setOf s.cfg a) (tagOf s.cfg a) s) := by
  obtain ⟨hnone, V, hdrop, hV, hno⟩ := hr.leads_invalidateHolders hf
  obtain ⟨-, hcharged⟩ := hr.waiting (.inr rfl) hr.done
  have hslot := hr.slotFree
  obtain ⟨⟨hs, hbusy, hsrc, rfl, hreq⟩, -, -⟩ := hr
  unfold Machine.busRdXStart
  split
  case h_1 =>
    exact .seq_cons hf (.inr ⟨hnone, hdrop⟩) fun _ hnone =>
      .seq_last hnone (.inr ⟨hnone, hdrop.busRdXFromMemory hV hbusy hreq hsrc hslot hno, closer_of_started rfl⟩)
  case h_2 o ho =>
    have hheld : s.mesiOf o (setOf s.cfg s.bus.addr) (tagOf s.cfg s.bus.addr) ≠ .invalid := by
      have hmem := List.mem_filter.mp (List.mem_of_getLast? ho)
      simp [of_decide_eq_true hmem.2]
    have hc : (s.stats.get c).totalCycles ≠ 0 := (hcharged rfl).resolve_right fun hall => hheld (hall o)
    have hchain := hdrop.tidy.leads_chainIntervFlush hnone c o .busRdX
    rw [hdrop.bus, hdrop.mesi] at hchain
    refine .seq_cons hf (.inr ⟨hnone, hdrop⟩) fun _ _ => .seq_cons hnone hchain fun hl hnone => .seq_last hnone ?_
    have hl' := hdrop.trans hl
    refine (hl'.adjusted hV hnone hbusy hslot hno (hl'.charged c hc)).imp fun h => ⟨h, closer_of_writeback ?_ ?_⟩
    · simp [hreq]
    · rw [adjustRequester_bus, hl'.bus]; rfl

theorem Demanded.observeBusRdX (hd : Demanded s c a .busRdX) (hf : s.faultCode = .fNone) (hE : 1 ≤ s.cfg.E) :
    UnlessOverflow (fun u => Safe u ∧ Closer s u) (observeBusRdX c a s) := by
  unfold Machine.observeBusRdX
  simp only
  rw [if_neg (by simp [hd.busy])]
  cases hdone : s.bus.done with
  | true =>
    rw [if_pos rfl]
    refine hd.observe_waiting hf (.inr rfl) hdone fun u hu hcfg hr => ?_
    rw [← hcfg]
    exact hr.busRdXStart hu
  | false =>
    rw [if_neg (by simp)]
    split
    case isFalse => exact .inr ⟨hf, hd.safe, closer_of_started hdone⟩
    case isTrue =>
      obtain ⟨hs, hbusy, hsrc, rfl, hreq⟩ := hd
      obtain ⟨hslot, hno⟩ := (phaseHolds_busRdX_iff hbusy hreq hdone hsrc).mp hs.phase
      exact (hs.fill hf hE (setOf_lt _ _) hslot hno (by simp)).imp fun h => ⟨h, closer_of_ended hdone⟩

end

/-! ### Writebacks -/

section

variable {s : State}

theorem Safe.setBus (hs : Safe s) {b : Bus} (h : PhaseHolds { s with bus := b }) : Safe { s with bus := b } :=
  ⟨(hs.tidy.leads_setBus b).tidy, hs.exclusive, h⟩

/-- A writeback asks the same of the caches before and after its start. -/
theorem Safe.flushStart (hs : Safe s) (hreq : s.bus.reqType = .flush) : Safe (flushStart s) := by
  have hruns : (Machine.flushStart s).bus.demandRuns = false := by simp [Machine.flushStart, Bus.demandRuns, hreq]
  have hruns' : s.bus.demandRuns = false := by simp [Bus.demandRuns, hreq]
  refine hs.setBus ⟨hs.phase.noCopy, fun hawaits _ => hs.phase.slotFree hawaits ?_, ?_, ?_, ?_, ?_⟩
  · have hbusy : s.bus.available = false := by
      by_contra h
      simp [Bus.awaitsFill, h] at hawaits
    simp [Bus.prepared, hbusy, hreq]
  · exact fun h => absurd (hruns.symm.trans h) (by simp)
  · exact fun h => absurd (hruns.symm.trans h) (by simp)
  · exact fun h1 h2 h3 => hs.phase.ownership h1 h2 (h3.imp (fun h => absurd (hruns.symm.trans h) (by simp)) id)
  · exact fun h1 h2 _ h4 => hs.phase.charged h1 h2 hruns' h4

/-- EVICT_DONE: the demand waits again, and its requester still holds no copy (rule R160). -/
theorem Safe.evictDone (hs : Safe s) (hb : BusLegal s.bus) (hbusy : s.bus.available = false)
    (hreq : s.bus.reqType = .flush) (hevict : s.bus.evict = true) : Safe (evictDone s) := by
  obtain ⟨hsrc, -, -, hsaved⟩ := hb hbusy
  obtain ⟨hdemand, -⟩ := hsaved hreq
  obtain ⟨c, hc⟩ := Option.ne_none_iff_exists'.mp hsrc
  obtain ⟨hno, -, hcharged⟩ := (phaseHolds_evict_iff hbusy hreq hevict hc).mp hs.phase
  exact hs.setBus ((phaseHolds_waiting_iff (s := Machine.evictDone s) hbusy (ReqType.IsDemand.ne_flush hdemand) rfl
    hc).mpr ⟨hno, hcharged⟩)

/-- INTERV_DONE: a BusRd's transaction ends; a BusRdX waits again, and finds no copy (rule R161). -/
theorem Safe.intervDone (hs : Safe s) (hb : BusLegal s.bus) (hbusy : s.bus.available = false)
    (hreq : s.bus.reqType = .flush) (hevict : s.bus.evict = false) : Safe (intervDone s) := by
  unfold Machine.intervDone
  split
  case isTrue => exact hs.setBus (phaseHolds_of_available rfl)
  case isFalse hne =>
    obtain ⟨-, -, -, hsaved⟩ := hb hbusy
    obtain ⟨hdemand, hprev⟩ := hsaved hreq
    obtain ⟨c, hc⟩ := Option.ne_none_iff_exists'.mp (hprev hevict)
    have hx : s.bus.prevReqType = .busRdX := hdemand.resolve_left hne
    obtain ⟨-, hno⟩ := (phaseHolds_interv_busRdX_iff hbusy hreq hevict hx hc).mp hs.phase
    exact hs.setBus (Iff.mpr (phaseHolds_waiting_iff hbusy (ReqType.IsDemand.ne_flush hdemand) rfl hc)
      ⟨hno c, fun _ => .inr hno⟩)

theorem Safe.observeFlushEvict (hs : Safe s) (hb : BusLegal s.bus) (hbusy : s.bus.available = false)
    (hreq : s.bus.reqType = .flush) (hevict : s.bus.evict = true) :
    Safe (observeFlushEvict s) ∧ Closer s (observeFlushEvict s) := by
  unfold Machine.observeFlushEvict
  rw [if_neg (by simp [hbusy])]
  split
  case isTrue => exact ⟨hs.flushStart hreq, closer_of_started rfl⟩
  case isFalse hdone =>
    have hdone : s.bus.done = false := by simpa using hdone
    split
    · exact ⟨hs.evictDone hb hbusy hreq hevict, closer_of_ended hdone⟩
    · exact ⟨hs, closer_of_ended hdone⟩

theorem Safe.observeFlushInterv (hs : Safe s) (hb : BusLegal s.bus) (hbusy : s.bus.available = false)
    (hreq : s.bus.reqType = .flush) (hevict : s.bus.evict = false) :
    Safe (observeFlushInterv s) ∧ Closer s (observeFlushInterv s) := by
  unfold Machine.observeFlushInterv
  rw [if_neg (by simp [hbusy])]
  split
  case isTrue => exact ⟨hs.flushStart hreq, closer_of_started rfl⟩
  case isFalse hdone =>
    have hdone : s.bus.done = false := by simpa using hdone
    split
    · exact ⟨hs.intervDone hb hbusy hreq hevict, closer_of_ended hdone⟩
    · exact ⟨hs, closer_of_ended hdone⟩

end

theorem observeFlushEvict_faultCode (s : State) : (observeFlushEvict s).faultCode = s.faultCode := by
  unfold observeFlushEvict
  split
  · rfl
  · split
    · simp
    · split <;> simp

theorem observeFlushInterv_faultCode (s : State) : (observeFlushInterv s).faultCode = s.faultCode := by
  unfold observeFlushInterv
  split
  · rfl
  · split
    · simp
    · split <;> simp

/-! ### The snoop -/

/-- The command on a busy bus leaves a safe state, unless a counter overflows, and brings the snoop closer to its
end. -/
theorem snooped_safe {i : Instr} {s t : State} (hs : Safe s) (hb : BusLegal s.bus) (hE : 1 ≤ s.cfg.E)
    (hf : s.faultCode = .fNone) (hbusy : s.bus.available = false) (hi : s.bus.command = some i)
    (ht : exec i s = .next t) : UnlessOverflow (fun u => Safe u ∧ Closer s u) t := by
  obtain ⟨hsrc, hupgr, -, -⟩ := hb hbusy
  obtain ⟨c, hc⟩ := Option.ne_none_iff_exists'.mp hsrc
  have hcommand : i = BusFields.command { x := s.bus.evict, t := s.bus.reqType, c := c, a := s.bus.addr } := by
    simpa [Bus.command, hc, eq_comm] using hi
  subst hcommand
  cases hreq : s.bus.reqType with
  | busRd =>
    simp only [BusFields.command, hreq, exec_busRd hf] at ht
    cases ht
    exact (Demanded.mk hs hbusy hc rfl hreq).observeBusRd hf hE
  | busRdX =>
    simp only [BusFields.command, hreq, exec_busRdX hf] at ht
    cases ht
    exact (Demanded.mk hs hbusy hc rfl hreq).observeBusRdX hf hE
  | busUpgr => exact absurd hreq hupgr
  | flush =>
    cases hevict : s.bus.evict with
    | true =>
      simp only [BusFields.command, hreq, hevict, if_true, exec_flushEvict hf] at ht
      cases ht
      exact .inr ⟨(observeFlushEvict_faultCode s).trans hf, hs.observeFlushEvict hb hbusy hreq hevict⟩
    | false =>
      simp only [BusFields.command, hreq, hevict, Bool.false_eq_true, if_false, exec_flushInterv hf] at ht
      cases ht
      exact .inr ⟨(observeFlushInterv_faultCode s).trans hf, hs.observeFlushInterv hb hbusy hreq hevict⟩

/-- What a state has at every point of a tick. -/
structure Running (s : State) : Prop where
  lines : 1 ≤ s.cfg.E
  bus : BusLegal s.bus
  safe : UnlessOverflow Safe s

theorem Running.safe_of_running {s : State} (h : Running s) (hf : s.faultCode = .fNone) : Safe s := by
  obtain hover | ⟨-, hs⟩ := h.safe
  · simp [hf] at hover
  · exact hs

theorem Running.snooped {i : Instr} {s t : State} (h : Running s) (hf : s.faultCode = .fNone)
    (hbusy : s.bus.available = false) (hi : s.bus.command = some i) (ht : exec i s = .next t) : Running t where
  lines := by
    rw [(exec_sameProgram ht).1.1]
    exact h.lines
  bus := snooped_busLegal hf hbusy hi h.bus ht
  safe := (snooped_safe (h.safe_of_running hf) h.bus h.lines hf hbusy hi ht).imp And.left

theorem Running.snoop {s t : State} (h : Running s) (ht : snoop s = .next t) : Running t :=
  snoopLoop_induct Running (fun _ _ _ hf hbusy hi hu ht => hu.snooped hf hbusy hi ht) h ht

theorem snoopsLeft_le (b : Bus) : 1 ≤ b.snoopsLeft ∧ b.snoopsLeft ≤ 3 := by
  unfold Bus.snoopsLeft
  split
  · split <;> omega
  · omega

/-- A snoop with as many iterations as its bus record may need leaves no phase waiting (rule R166). -/
theorem snoopLoop_settles {n : Nat} {s t : State} (h : Running s) (hn : s.bus.snoopsLeft ≤ n)
    (ht : snoopLoop n s = .next t) (htf : t.faultCode = .fNone) (htbusy : t.bus.available = false) :
    t.bus.done = false := by
  induction n generalizing s with
  | zero => exact absurd (snoopsLeft_le s.bus).1 (by omega)
  | succ n ih =>
    cases hbusy : s.bus.available with
    | true =>
      rw [snoopLoop_available hbusy] at ht
      cases ht
      simp [hbusy] at htbusy
    | false =>
      obtain ⟨c, hi⟩ := command_of_busLegal h.bus hbusy
      by_cases hf : s.faultCode = .fNone
      · obtain ⟨u, hu⟩ := exec_answers_of_busy hbusy (BusFields.command
          { x := s.bus.evict, t := s.bus.reqType, c := c, a := s.bus.addr })
        have hcloser := snooped_safe (h.safe_of_running hf) h.bus h.lines hf hbusy hi hu
        rw [snoopLoop_succ hf hbusy hi, hu] at ht
        simp only at ht
        split at ht
        case isTrue huf =>
          split at ht
          case isTrue hdone =>
            obtain hover | ⟨-, -, hlt⟩ := hcloser
            · simp [huf] at hover
            · exact ih (h.snooped hf hbusy hi hu) (by have := hlt hdone; omega) ht
          case isFalse hdone =>
            cases ht
            simpa using hdone
        case isFalse huf =>
          cases ht
          exact absurd htf huf
      · simp only [snoopLoop, hbusy, hi, Bool.false_eq_true, if_false, stages_of_faulted hf] at ht
        cases ht
        exact absurd htf hf

/-! ### The tick and the step -/

theorem Running.of_quiet {s u : State} (h : Running s) (hf : s.faultCode = .fNone) (hcfg : u.cfg = s.cfg)
    (hbus : u.bus = s.bus) (hu : UnlessOverflow (Quiet s) u) : Running u where
  lines := by
    rw [hcfg]
    exact h.lines
  bus := by
    rw [hbus]
    exact h.bus
  safe := hu.imp (h.safe_of_running hf).of_quiet

theorem Running.coreTurn {c : CoreId} {s t : State} (h : Running s) (hf : s.faultCode = .fNone)
    (ht : coreTurn c s = .next t) : Running t := by
  have hs := h.safe_of_running hf
  obtain rfl | ⟨-, -, rfl⟩ | ⟨a, w, -, -, rfl, i, hi⟩ := coreTurn_access_cases hf ht
  · exact h
  · exact h.of_quiet hf rfl rfl (.inr ⟨hf, leads_of_sets (u := retire c s) hs.tidy rfl (fun _ => rfl) fun _ => id⟩)
  · have hturn : Running { s with turn := c } := h.of_quiet hf rfl rfl
      (.inr ⟨hf, leads_of_sets (u := { s with turn := c }) hs.tidy rfl (fun _ => rfl) fun _ => id⟩)
    refine ⟨?_, coreTurn_busLegal hf h.bus ht, (hturn.safe_of_running hf).access hf c a w⟩
    rw [(exec_sameProgram hi).1.1]
    exact h.lines

/-- The end-of-tick check finds no violation. -/
theorem Running.checkInvariants_eq {s : State} (h : Running s) (hf : s.faultCode = .fNone) : checkInvariants s = s := by
  have hs := h.safe_of_running hf
  have hcoherent := (coherent_iff_exclusive hs.tidy.unique).mpr hs.exclusive
  have hnone : s.listedSets.findSome? s.setViolation = none := List.findSome?_eq_none_iff.mpr fun si _ => by
    rw [setViolation_spec, if_pos fun c => hs.tidy.unique c si, if_pos fun t => hcoherent si t]
  simp [checkInvariants, hnone]

/-- Running, and once the post-snoop is over no phase waits. -/
def Settled (s : State) : Prop := Running s ∧ (s.faultCode = .fNone → s.bus.available = false → s.bus.done = false)

theorem Running.countingStages {s t : State} (h : Settled s) (ht : stages countingStages s = .next t) : Settled t := by
  refine stages_induct Settled ?_ h ht
  simp only [Machine.countingStages, List.forall_mem_cons, Host.Outcome.next.injEq]
  refine ⟨?_, ?_, ?_, by simp⟩
  · rintro u _ hf ⟨hu, hdone⟩ rfl
    have hs := hu.safe_of_running hf
    exact ⟨⟨hu.lines, hu.bus, .inr ⟨hf, hs.setBus ⟨hs.phase.noCopy, hs.phase.slotFree, hs.phase.readFromMemory,
      hs.phase.readFromCache, hs.phase.ownership, hs.phase.charged⟩⟩⟩, hdone⟩
  · rintro u _ hf ⟨hu, hdone⟩ rfl
    refine ⟨hu.of_quiet hf (by simp) (by simp) ((hu.safe_of_running hf).tidy.quiet_inc hf _ _), fun _ => ?_⟩
    rw [inc_bus]
    exact hdone hf
  · rintro u _ hf ⟨hu, hdone⟩ rfl
    rw [hu.checkInvariants_eq hf]
    exact ⟨hu, hdone⟩

/-- The stages of a tick before the post-snoop. -/
def openingStages : List (State → Answer) :=
  snoop :: allCores.map Machine.coreTurn ++ [fun s => .next (endCorePass s)]

theorem tick_eq_around_postSnoop : tick = stages (openingStages ++ snoop :: countingStages) := rfl

theorem Running.openingStages {s t : State} (h : Running s) (ht : stages openingStages s = .next t) : Running t := by
  refine stages_induct Running ?_ h ht
  simp only [Machine.openingStages, List.forall_mem_cons, List.forall_mem_append, List.forall_mem_map,
    Host.Outcome.next.injEq]
  refine ⟨⟨fun u v _ hu hv => hu.snoop hv, fun c _ u v hf hu hv => hu.coreTurn hf hv⟩, ?_, by simp⟩
  rintro u _ hf hu rfl
  exact hu.of_quiet hf rfl rfl
    (.inr ⟨hf, leads_of_sets (u := endCorePass u) (hu.safe_of_running hf).tidy rfl (fun _ => rfl) fun _ => id⟩)

theorem Running.tick {s t : State} (h : Running s) (ht : tick s = .next t) : Settled t := by
  rw [tick_eq_around_postSnoop, stages_append_eq_next] at ht
  obtain ⟨u, hopening, hrest⟩ := ht
  have hu := h.openingStages hopening
  by_cases hf : u.faultCode = .fNone
  · obtain ⟨v, hsnoop, hcounting⟩ := (stages_cons_eq_next hf).mp hrest
    exact Running.countingStages ⟨hu.snoop hsnoop, snoopLoop_settles hu (snoopsLeft_le u.bus).2 hsnoop⟩ hcounting
  · rw [stages_of_faulted hf] at hrest
    cases hrest
    exact ⟨hu, fun h => absurd h hf⟩

/-- Settles O55: the invariants hold at every point of the tick, and its post-snoop leaves no phase waiting. -/
theorem stepKeepsRunSafe : Obligations.StepKeepsRunSafe := by
  unfold Obligations.StepKeepsRunSafe
  rintro s t ⟨hcfg, -, harrays, -, hbus⟩ hsafe hstep
  obtain ⟨-, ⟨-, rfl⟩ | ⟨hticking, htick⟩⟩ := step_eq_next hstep
  · exact hsafe
  obtain hover | ⟨hf, hunique, hcoherent, hphase, -⟩ := hsafe
  · exact absurd (ticking_iff.mp hticking).1 (by simp [hover])
  have hexclusive := (coherent_iff_exclusive hunique).mp hcoherent
  have hrunning : Running s :=
    ⟨((Config.legal_iff _).mp hcfg).1, hbus, .inr ⟨hf, ⟨harrays, hunique⟩, hexclusive, hphase⟩⟩
  obtain ⟨⟨-, -, hover | ⟨hnone, hsafe⟩⟩, hdone⟩ := hrunning.tick htick
  · exact .inl hover
  · exact .inr ⟨hnone, hsafe.tidy.unique, (coherent_iff_exclusive hsafe.tidy.unique).mpr hsafe.exclusive, hsafe.phase,
      hdone hnone⟩

end Machine

end Sys2Proof
end

section
/-! PROOFS. The address decode and the blocks it names: the fields of an address (O7), the block that a tag and a set
name (O8), no use of the offset bits but the bus record's (O9), and what the end-of-tick check and P1 say of the copies
of a block (O47, O50). -/

namespace Sys2Proof.Machine

/-! ### The fields of an address -/

/-- `tag_of` is the mathematical shift (rule R61): no bit of the address is lost. -/
theorem tagOf_toNat (cfg : Config) (a : Addr) : (tagOf cfg a).toNat = a.toNat / 2 ^ (cfg.s + cfg.b) := by
  simp [tagOf, Nat.shiftRight_eq_div_pow]

theorem setOf_eq_and (cfg : Config) (a : Addr) : setOf cfg a = a.toNat / 2 ^ cfg.b &&& (2 ^ cfg.s - 1) := by
  simp [setOf, Nat.shiftRight_eq_div_pow]

theorem tagOf_eq_div (cfg : Config) (a : Addr) : (tagOf cfg a).toNat = a.toNat / 2 ^ cfg.b / 2 ^ cfg.s := by
  rw [tagOf_toNat, Nat.div_div_eq_div_mul, ← pow_add, add_comm]

theorem setOf_eq_mod (cfg : Config) (a : Addr) : setOf cfg a = a.toNat / 2 ^ cfg.b % 2 ^ cfg.s := by
  rw [setOf_eq_and, Nat.and_two_pow_sub_one_eq_mod]

theorem tagOf_toNat_lt {cfg : Config} (hcfg : cfg.s + cfg.b ≤ 32) (a : Addr) :
    (tagOf cfg a).toNat < 2 ^ (32 - cfg.s - cfg.b) := by
  have hwidth : (2 : Nat) ^ (cfg.s + cfg.b) * 2 ^ (32 - cfg.s - cfg.b) = 2 ^ 32 := by
    rw [← pow_add]
    congr 1
    omega
  rw [tagOf_toNat]
  exact Nat.div_lt_of_lt_mul (hwidth ▸ a.isLt)

/-- Settles O7: the shift is a division and the mask a remainder; the corner values follow from the bounds. -/
theorem tagAndSetAreTheAddressFields : Obligations.TagAndSetAreTheAddressFields := by
  unfold Obligations.TagAndSetAreTheAddressFields
  intro cfg a hcfg
  obtain ⟨-, hwidth⟩ := (Config.legal_iff cfg).mp hcfg
  have htag := tagOf_toNat_lt hwidth a
  have hset : setOf cfg a ≤ 2 ^ cfg.s - 1 := Nat.le_pred_of_lt (setOf_lt cfg a)
  refine ⟨tagOf_toNat cfg a, htag, fun h => ?_, setOf_eq_and cfg a, hset, fun hs => ?_, fun hb => ?_⟩
  · have hzero : 32 - cfg.s - cfg.b = 0 := by omega
    rw [hzero, pow_zero, Nat.lt_one_iff] at htag
    exact BitVec.eq_of_toNat_eq htag
  · simpa [hs] using hset
  · have hs : cfg.s = 0 := by omega
    simpa [hs] using hset

/-! ### Blocks -/

theorem sameBlock_iff {cfg : Config} {a1 a2 : Addr} :
    sameBlock cfg a1 a2 = true ↔ a1.toNat / 2 ^ cfg.b = a2.toNat / 2 ^ cfg.b := by
  simp [sameBlock, BitVec.toNat_eq, Nat.shiftRight_eq_div_pow]

/-- `a >> b = tag_of(a) · 2^s + set_of(a)` (20_memory.md section 2). -/
theorem tagOf_mul_add_setOf (cfg : Config) (a : Addr) :
    (tagOf cfg a).toNat * 2 ^ cfg.s + setOf cfg a = a.toNat / 2 ^ cfg.b := by
  rw [tagOf_eq_div, setOf_eq_mod, Nat.div_add_mod']

theorem sameBlock_iff_tagOf_setOf {cfg : Config} {a1 a2 : Addr} :
    sameBlock cfg a1 a2 = true ↔ tagOf cfg a1 = tagOf cfg a2 ∧ setOf cfg a1 = setOf cfg a2 := by
  rw [sameBlock_iff]
  constructor
  · intro hblock
    exact ⟨BitVec.eq_of_toNat_eq (by rw [tagOf_eq_div, tagOf_eq_div, hblock]), by
      rw [setOf_eq_mod, setOf_eq_mod, hblock]⟩
  · rintro ⟨htag, hset⟩
    rw [← tagOf_mul_add_setOf, ← tagOf_mul_add_setOf, htag, hset]

/-- Settles O8: tag and set are quotient and remainder of the block's number, and so determine it. -/
theorem sameBlockIsSameTagAndSet : Obligations.SameBlockIsSameTagAndSet := by
  unfold Obligations.SameBlockIsSameTagAndSet
  intro cfg a1 a2 _
  refine ⟨sameBlock_iff.symm.trans sameBlock_iff_tagOf_setOf, sameBlock_iff, ?_⟩
  rw [blockAddress, tagOf_mul_add_setOf]

/-! ### The offset bits -/

/-- The state with another address in the bus record. -/
def State.withBusAddr (s : State) (a : Addr) : State := { s with bus := { s.bus with addr := a } }

@[simp] theorem State.withBusAddr_faultCode (s : State) (a : Addr) : (s.withBusAddr a).faultCode = s.faultCode := rfl

@[simp] theorem State.withBusAddr_counter (s : State) (a : Addr) (x : Counter) :
    (s.withBusAddr a).counter x = s.counter x := by cases x <;> rfl

theorem State.withBusAddr_setCounter (s : State) (a : Addr) (x : Counter) (v : Count) :
    (s.withBusAddr a).setCounter x v = (s.setCounter x v).withBusAddr a := by cases x <;> rfl

/-- The operation neither reads nor writes the address in the bus record. -/
def IgnoresBusAddr (f : State → State) : Prop := ∀ s a, f (s.withBusAddr a) = (f s).withBusAddr a

theorem IgnoresBusAddr.seq {fs : List (State → State)} (h : ∀ f ∈ fs, IgnoresBusAddr f) : IgnoresBusAddr (seq fs) := by
  induction fs with
  | nil => exact fun _ _ => rfl
  | cons f fs ih =>
    rw [List.forall_mem_cons] at h
    intro s a
    by_cases hs : s.faultCode = .fNone
    · rw [seq_cons hs, seq_cons (by simpa using hs), h.1, ih h.2]
    · rw [seq_of_faulted hs, seq_of_faulted (by simpa using hs)]

theorem ignoresBusAddr_raise (code : FaultCode) : IgnoresBusAddr (raise code) := by
  intro s a
  by_cases hs : s.faultCode = .fNone
  · rw [raise_of_running _ hs, raise_of_running _ (by simpa using hs)]
    rfl
  · rw [raise_of_faulted _ hs, raise_of_faulted _ (by simpa using hs)]

theorem ignoresBusAddr_inc (x : Counter) (k : Nat) : IgnoresBusAddr (inc x k) := by
  intro s a
  have hroom : HasRoom (s.withBusAddr a) x k ↔ HasRoom s x k := by simp [HasRoom]
  by_cases hr : HasRoom s x k
  · rw [inc_of_room hr, inc_of_room (hroom.mpr hr), State.withBusAddr_counter, State.withBusAddr_setCounter]
  · rw [inc_of_full hr, inc_of_full fun h => hr (hroom.mp h), ignoresBusAddr_raise]

theorem ignoresBusAddr_setMesi (c : CoreId) (si w : Nat) (m : Mesi) : IgnoresBusAddr (setMesi c si w m) :=
  fun _ _ => rfl

theorem ignoresBusAddr_setHolderMesi (c : CoreId) (si : Nat) (t : Tag) (m : Mesi) :
    IgnoresBusAddr (setHolderMesi c si t m) := by
  intro s a
  have hlookup : (s.withBusAddr a).lookup c si t = s.lookup c si t := rfl
  unfold setHolderMesi
  rw [hlookup]
  split <;> rfl

theorem ignoresBusAddr_completeAccess (c : CoreId) (si k : Nat) (kind : StatName) :
    IgnoresBusAddr (completeAccess c si k kind) := by
  have htouch : IgnoresBusAddr (touch c si k) := by
    refine IgnoresBusAddr.seq ?_
    simp only [List.forall_mem_cons]
    exact ⟨ignoresBusAddr_inc _ _, fun _ _ => rfl, by simp⟩
  refine IgnoresBusAddr.seq ?_
  simp only [List.forall_mem_cons]
  exact ⟨htouch, ignoresBusAddr_inc _ _, ignoresBusAddr_inc _ _, ignoresBusAddr_inc _ _, fun _ _ => rfl, by simp⟩

theorem ignoresBusAddr_snoopUpgr (c : CoreId) (si : Nat) (t : Tag) : IgnoresBusAddr (snoopUpgr c si t) := by
  have hat : ∀ c', IgnoresBusAddr (snoopUpgrAt si t c') := by
    intro c' s a
    have hmesi : (s.withBusAddr a).mesiOf c' si t = s.mesiOf c' si t := rfl
    unfold snoopUpgrAt
    rw [hmesi]
    split
    · exact ignoresBusAddr_setHolderMesi _ _ _ _ s a
    · exact ignoresBusAddr_raise _ s a
  intro s a
  have hholders : (s.withBusAddr a).holders c si t = s.holders c si t := rfl
  rw [snoopUpgr, snoopUpgr, hholders]
  exact IgnoresBusAddr.seq (List.forall_mem_map.mpr fun c' _ => hat c') s a

/-- The states differ at most in the address in the bus record. -/
def DifferInBusAddr (t1 t2 : State) : Prop := t2 = t1.withBusAddr t2.bus.addr

theorem DifferInBusAddr.refl (t : State) : DifferInBusAddr t t := rfl

/-- A rule that records an address on its first line and ignores it from there on. -/
theorem DifferInBusAddr.seq {f1 f2 : State → State} {fs : List (State → State)} {s : State} {a : Addr}
    (hfirst : f2 s = (f1 s).withBusAddr a) (hrest : ∀ f ∈ fs, IgnoresBusAddr f) :
    DifferInBusAddr (seq (f1 :: fs) s) (seq (f2 :: fs) s) := by
  by_cases hs : s.faultCode = .fNone
  · rw [seq_cons hs, seq_cons hs, hfirst, IgnoresBusAddr.seq hrest]
    rfl
  · rw [seq_of_faulted hs, seq_of_faulted hs]
    exact .refl s

theorem issue_differInBusAddr (c : CoreId) (a1 a2 : Addr) (w : Bool) (s : State) :
    DifferInBusAddr (issue c a1 w s) (issue c a2 w s) := by
  refine DifferInBusAddr.seq (a := a2) rfl ?_
  simp only [List.forall_mem_cons]
  refine ⟨ignoresBusAddr_inc _ _, ignoresBusAddr_inc _ _, ignoresBusAddr_inc _ _, ignoresBusAddr_inc _ _,
    ignoresBusAddr_inc _ _, ?_, by simp⟩
  cases w with
  | true => exact ignoresBusAddr_inc _ _
  | false => exact fun _ _ => rfl

section
variable {s : State} {a1 a2 : Addr}

theorem busUpgr_differInBusAddr (h : sameBlock s.cfg a1 a2 = true) (c : CoreId) (k : Nat) :
    DifferInBusAddr (busUpgr c a1 k s) (busUpgr c a2 k s) := by
  obtain ⟨htag, hset⟩ := sameBlock_iff_tagOf_setOf.mp h
  unfold busUpgr
  rw [htag, hset]
  refine DifferInBusAddr.seq (a := a2) rfl ?_
  simp only [List.forall_mem_cons]
  exact ⟨ignoresBusAddr_snoopUpgr _ _ _, ignoresBusAddr_inc _ _, ignoresBusAddr_inc _ _, ignoresBusAddr_setMesi _ _ _ _,
    ignoresBusAddr_completeAccess _ _ _ _, by simp⟩

theorem classify_of_sameBlock (h : sameBlock s.cfg a1 a2 = true) (c : CoreId) (w : Bool) :
    s.classify c a1 w = s.classify c a2 w := by
  obtain ⟨htag, hset⟩ := sameBlock_iff_tagOf_setOf.mp h
  unfold State.classify
  rw [htag, hset]

theorem access_differInBusAddr (h : sameBlock s.cfg a1 a2 = true) (c : CoreId) (w : Bool) :
    DifferInBusAddr (access c a1 w s) (access c a2 w s) := by
  unfold access
  rw [classify_of_sameBlock h, (sameBlock_iff_tagOf_setOf.mp h).2]
  cases s.classify c a2 w with
  | readHit k => exact .refl _
  | writeHit k => exact .refl _
  | upgrade k => exact busUpgr_differInBusAddr h c k
  | issue => exact issue_differInBusAddr c a1 a2 w s
  | stall => exact .refl _

theorem seq_access_differInBusAddr (h : sameBlock s.cfg a1 a2 = true) (c : CoreId) (w : Bool) :
    DifferInBusAddr (seq [access c a1 w] s) (seq [access c a2 w] s) := by
  by_cases hs : s.faultCode = .fNone
  · rw [seq_singleton hs, seq_singleton hs]
    exact access_differInBusAddr h c w
  · rw [seq_of_faulted hs, seq_of_faulted hs]
    exact .refl s

/-- A BusUpgr is refused for one address of the block as for the other, and otherwise leaves states that differ at
most in the bus record's address. -/
theorem execBusUpgr_of_sameBlock (h : sameBlock s.cfg a1 a2 = true) (c : CoreId) :
    (∃ r, execBusUpgr c a1 s = .refused r ∧ execBusUpgr c a2 s = .refused r) ∨
      ∃ t1 t2, execBusUpgr c a1 s = .next t1 ∧ execBusUpgr c a2 s = .next t2 ∧ DifferInBusAddr t1 t2 := by
  obtain ⟨htag, hset⟩ := sameBlock_iff_tagOf_setOf.mp h
  unfold execBusUpgr
  rw [htag, hset]
  split
  case isTrue => exact .inr ⟨_, _, rfl, rfl, .refl _⟩
  case isFalse =>
    split
    case isTrue =>
      split
      case h_1 k _ =>
        split
        case isTrue => exact .inr ⟨_, _, rfl, rfl, busUpgr_differInBusAddr h c k⟩
        case isFalse => exact .inl ⟨_, rfl, rfl⟩
      case h_2 => exact .inl ⟨_, rfl, rfl⟩
    case isFalse => exact .inr ⟨_, _, rfl, rfl, .refl _⟩

theorem execBusRd_of_sameBlock (h : sameBlock s.cfg a1 a2 = true) (c : CoreId) :
    execBusRd c a1 s = execBusRd c a2 s := by
  obtain ⟨htag, hset⟩ := sameBlock_iff_tagOf_setOf.mp h
  have hobserve : observeBusRd c a1 s = observeBusRd c a2 s := by
    unfold observeBusRd
    rw [htag, hset]
  simp only [execBusRd, seq, hobserve]

theorem execBusRdX_of_sameBlock (h : sameBlock s.cfg a1 a2 = true) (c : CoreId) :
    execBusRdX c a1 s = execBusRdX c a2 s := by
  obtain ⟨htag, hset⟩ := sameBlock_iff_tagOf_setOf.mp h
  have hobserve : observeBusRdX c a1 s = observeBusRdX c a2 s := by
    unfold observeBusRdX
    rw [htag, hset]
  simp only [execBusRdX, seq, hobserve]

end

/-- Settles O9: every meaning reads its address as a tag and a set; only ISSUE and BUSUPGR also record it on the bus,
on their first line, and no later line reads it there. -/
theorem offsetBitsAreDiscarded : Obligations.OffsetBitsAreDiscarded := by
  unfold Obligations.OffsetBitsAreDiscarded
  intro s c a1 a2 h
  refine ⟨?_, execBusRd_of_sameBlock h c, execBusRdX_of_sameBlock h c, rfl, rfl⟩
  rintro i1 i2 (hi | hi | hi) <;> cases hi
  · exact .inr ⟨_, _, rfl, rfl, seq_access_differInBusAddr h s.turn false⟩
  · exact .inr ⟨_, _, rfl, rfl, seq_access_differInBusAddr h s.turn true⟩
  · exact execBusUpgr_of_sameBlock h c

/-! ### Coherence -/

/-- The stages of a tick before the end-of-tick check. -/
def stagesBeforeCheck : List (State → Answer) :=
  openingStages ++ [snoop, fun s => .next (countdown s), fun s => .next (inc .globalCycle 1 s)]

theorem tick_eq_before_check :
    tick = stages (stagesBeforeCheck ++ [fun s => .next (checkInvariants s)]) := rfl

/-- A check that ends without a fault changed nothing and saw no violation in any set, listed or not (rule R200). -/
theorem checkInvariants_of_unfaulted {u : State} (h : (checkInvariants u).faultCode = .fNone) :
    checkInvariants u = u ∧ SetsUnique u ∧ Coherent u := by
  obtain ⟨hsame, hnone⟩ | ⟨code, hcode, hraise⟩ := checkInvariants_cases u
  · exact ⟨hsame, safe_of_listed hnone⟩
  · rw [hraise] at h
    by_cases hu : u.faultCode = .fNone
    · rw [raise_of_running code hu] at h
      rcases hcode with rfl | rfl <;> cases h
    · rw [raise_of_faulted code hu] at h
      exact absurd h hu

theorem tick_checked {s t : State} (htick : tick s = .next t) (ht : t.faultCode = .fNone) :
    SetsUnique t ∧ Coherent t := by
  rw [tick_eq_before_check, stages_append_eq_next] at htick
  obtain ⟨u, -, hcheck⟩ := htick
  by_cases hu : u.faultCode = .fNone
  · obtain ⟨v, hv, hvt⟩ := (stages_cons_eq_next hu).mp hcheck
    cases hv
    cases hvt
    obtain ⟨hsame, hsafe⟩ := checkInvariants_of_unfaulted ht
    rwa [hsame]
  · rw [stages_of_faulted hu] at hcheck
    cases hcheck
    exact absurd ht hu

/-- Settles O47: a state without a fault after a step with an active core comes from a tick, whose last stage is the
check. -/
theorem checkedTickIsCoherent : Obligations.CheckedTickIsCoherent := by
  unfold Obligations.CheckedTickIsCoherent
  intro s t _ hactive hstep ht
  obtain ⟨-, ⟨hstopped, rfl⟩ | ⟨-, htick⟩⟩ := step_eq_next hstep
  · exact absurd (ticking_iff.mpr ⟨ht, hactive⟩) (by simp [hstopped])
  · exact tick_checked htick ht

/-- P1 leaves a MODIFIED copy no company (rule R73). -/
theorem coherentCopies_of_modified {H : List Mesi} (h : coherentCopies H = true) (hmem : .modified ∈ H) :
    H = [.modified] := by
  simp only [coherentCopies, Bool.or_eq_true, decide_eq_true_iff, List.all_eq_true] at h
  obtain ((rfl | rfl) | rfl) | hshared := h
  · simp at hmem
  · rfl
  · simp at hmem
  · exact absurd (hshared _ hmem) (by decide)

theorem mem_allCores (c : CoreId) : c ∈ allCores := by
  revert c
  decide

/-- The MESI states of the valid lines of one cache that hold a block: its part of the list `H` of rule R73. -/
def State.copiesIn (s : State) (si : Nat) (t : Tag) (c : CoreId) : List Mesi :=
  ((s.setLines c si).filter fun l => l.holds t).map fun l => l.mesi

theorem mem_copiesIn_of_mesiOf {s : State} {c : CoreId} {si : Nat} {t : Tag} {m : Mesi} (hm : m ≠ .invalid)
    (h : s.mesiOf c si t = m) : m ∈ s.copiesIn si t c := by
  subst h
  obtain ⟨k, hk⟩ := lookup_of_mesiOf hm
  obtain ⟨l, hl, hvalid, htag, hmesi⟩ := lineAt_of_lookup hk
  rw [hmesi]
  exact List.mem_map_of_mem (List.mem_filter.mpr ⟨List.mem_of_getElem? hl, (Line.holds_iff l t).mpr ⟨hvalid, htag⟩⟩)

theorem length_copies (s : State) (si : Nat) (t : Tag) : (s.copies si t).length = ∑ c, (s.copiesIn si t c).length := by
  rw [Fin.sum_univ_four]
  simp [State.copies, State.copiesIn, allCores, add_assoc]

/-- Settles O50: with a MODIFIED copy P1 leaves one copy, and two caches would add one each. -/
theorem oneModifiedOwner : Obligations.OneModifiedOwner := by
  unfold Obligations.OneModifiedOwner
  intro s hcoherent c c' si t hc hc'
  by_contra hne
  have hmem := mem_copiesIn_of_mesiOf (by simp) hc
  have hmem' := mem_copiesIn_of_mesiOf (by simp) hc'
  have hin : .modified ∈ s.copies si t := List.mem_flatMap.mpr ⟨c, mem_allCores c, hmem⟩
  have hone : ∑ d, (s.copiesIn si t d).length = 1 := by
    rw [← length_copies, coherentCopies_of_modified (hcoherent si t) hin]
    rfl
  have htwo : (s.copiesIn si t c).length + (s.copiesIn si t c').length ≤ ∑ d, (s.copiesIn si t d).length :=
    Finset.add_le_sum (f := fun d => (s.copiesIn si t d).length) (fun _ _ => Nat.zero_le _) (Finset.mem_univ c)
      (Finset.mem_univ c') hne
  have hpos := List.length_pos_of_mem hmem
  have hpos' := List.length_pos_of_mem hmem'
  omega

end Sys2Proof.Machine
end

section
/-! PROOFS. The encodings: decoder and encoder are inverse on the words that are not reserved (O1, O2, O3, O4), and the
bus word is the bus record's (O5). -/

namespace Sys2Proof

/-! ### Request words -/

theorem decodeReq_packReq (w : Bool) (a : Addr) : decodeReq (packReq w a) = if w then .prWr a else .prRd a := by
  obtain ⟨hw, ha⟩ := packReq_fields w a
  rw [decodeReq, hw, ha]

theorem encode_decodeReq (w : ReqWord) : encode (decodeReq w) = .req w := by
  conv_rhs => rw [← packReq_of_fields w]
  unfold decodeReq
  cases w.getLsbD 32 <;> rfl

/-! ### Bus words -/

/-- The reserved patterns are `X = 1` with `T ≠ 11` (rule R97). -/
theorem BusFields.wf_iff (f : BusFields) : f.wf = true ↔ (f.x = true → f.t = .flush) := by
  unfold BusFields.wf
  cases f.x <;> simp

theorem ReqType.ofCode_eq_flush_iff (v : BitVec 2) : ReqType.ofCode v = .flush ↔ v = 0b11#2 := by
  constructor
  · intro h
    rw [← ReqType.code_ofCode v, h]
    rfl
  · rintro rfl
    rfl

theorem decodeBus_eq_refused_iff (w : BusWord) (e : DecodeError) :
    decodeBus w = .refused e ↔ ¬(busFields w).wf = true := by
  cases e
  unfold decodeBus
  split <;> simp_all

theorem decodeBus_eq_instr_iff (w : BusWord) (i : Instr) :
    decodeBus w = .instr i ↔ (busFields w).wf = true ∧ (busFields w).command = i := by
  unfold decodeBus
  split <;> simp_all

theorem decodeBus_packBus {f : BusFields} (h : f.wf = true) : decodeBus (packBus f) = .instr f.command := by
  rw [decodeBus, busFields_packBus, if_pos h]

/-- Fields that are not reserved are those of their command's word: `X = 1` is then the eviction FLUSH alone. -/
theorem encode_command {f : BusFields} (h : f.wf = true) : encode f.command = .bus (packBus f) := by
  obtain ⟨x, t, c, a⟩ := f
  rw [BusFields.wf_iff] at h
  cases x with
  | false => cases t <;> rfl
  | true =>
    obtain rfl : t = .flush := h rfl
    rfl

/-- The bit positions of the four fields (rule R91). -/
theorem packBus_bits (f : BusFields) :
    (packBus f).getLsbD 36 = f.x ∧ (packBus f).extractLsb' 34 2 = f.t.code ∧
      (packBus f).extractLsb' 32 2 = BitVec.ofNat 2 f.c.val ∧ (packBus f).extractLsb' 0 32 = f.a := by
  have hfields := busFields_packBus f
  refine ⟨congrArg BusFields.x hfields, ?_, ?_, congrArg BusFields.a hfields⟩
  · rw [← ReqType.code_ofCode ((packBus f).extractLsb' 34 2)]
    exact congrArg (fun g => g.t.code) hfields
  · rw [← congrArg BusFields.c hfields]
    exact ((BitVec.ofNat_toNat _ _).trans (BitVec.setWidth_eq _)).symm

/-! ### Decoder and encoder -/

/-- Settles O1: a request's word holds its write bit and address, a bus command's word its unreserved fields. -/
theorem decodeOfEncodeIsTheCommand : Obligations.DecodeOfEncodeIsTheCommand := by
  unfold Obligations.DecodeOfEncodeIsTheCommand
  intro i _
  cases i with
  | prRd a => exact congrArg Decoded.instr (decodeReq_packReq false a)
  | prWr a => exact congrArg Decoded.instr (decodeReq_packReq true a)
  | busRd c a => exact decodeBus_packBus (f := ⟨false, .busRd, c, a⟩) rfl
  | busRdX c a => exact decodeBus_packBus (f := ⟨false, .busRdX, c, a⟩) rfl
  | busUpgr c a => exact decodeBus_packBus (f := ⟨false, .busUpgr, c, a⟩) rfl
  | flushEvict c a => exact decodeBus_packBus (f := ⟨true, .flush, c, a⟩) rfl
  | flushInterv c a => exact decodeBus_packBus (f := ⟨false, .flush, c, a⟩) rfl

/-- Settles O2: a word is packed from its fields, and unreserved fields are those of their command's word. -/
theorem encodeOfDecodedWordIsTheWord : Obligations.EncodeOfDecodedWordIsTheWord := by
  unfold Obligations.EncodeOfDecodedWordIsTheWord
  intro cw i h
  cases cw with
  | req w =>
    obtain rfl : decodeReq w = i := Decoded.instr.inj h
    exact encode_decodeReq w
  | bus w =>
    obtain ⟨hwf, rfl⟩ := (decodeBus_eq_instr_iff w i).mp h
    rw [encode_command hwf, packBus_busFields]

/-- Settles O3: the decoder refuses the reserved fields and no others. -/
theorem onlyReservedBusWordsAreRefused : Obligations.OnlyReservedBusWordsAreRefused := by
  unfold Obligations.OnlyReservedBusWordsAreRefused
  refine ⟨fun w => ?_, fun w => ⟨decodeReq w, rfl⟩⟩
  calc decode (.bus w) = .refused .reservedBusWord
    _ ↔ ¬((busFields w).x = true → (busFields w).t = .flush) := by
        rw [← BusFields.wf_iff]
        exact decodeBus_eq_refused_iff w _
    _ ↔ w.getLsbD 36 = true ∧ w.extractLsb' 34 2 ≠ 0b11#2 := by
        rw [Classical.not_imp, ne_eq, ← ReqType.ofCode_eq_flush_iff]
        rfl

/-- Settles O4: the eight words are evaluated. -/
theorem writtenWordsDecode : Obligations.WrittenWordsDecode := by
  unfold Obligations.WrittenWordsDecode
  decide

/-- Settles O5: the bus word is packed from the record, and the snoop's command is that of the same fields. -/
theorem busWordShowsTheBusRecord : Obligations.BusWordShowsTheBusRecord := by
  unfold Obligations.BusWordShowsTheBusRecord
  intro b c hc
  obtain ⟨hx, ht, hsrc, ha⟩ := packBus_bits ⟨b.evict, b.reqType, c, b.addr⟩
  refine ⟨_, by rw [Machine.Bus.word, hc, Option.map_some], hx, ht, hsrc, ha, fun hevict => ?_⟩
  exact ⟨_, decodeBus_packBus ((BusFields.wf_iff _).mpr hevict), by rw [Machine.Bus.command, hc]⟩

end Sys2Proof
end

section
/-! PROOFS. The trace reader: a line is a record exactly when it has the form of the grammar (O6). -/

namespace Sys2Proof.Machine

/-! ### Characters -/

theorem isBlank_iff (c : Char) : isBlank c = true ↔ c = ' ' ∨ c = '\t' := by
  simp [isBlank]

theorem not_isBlank_of_hexDigit {c : Char} {d : Nat} (h : hexDigit c = some d) : isBlank c = false := by
  by_contra hblank
  rw [Bool.not_eq_false, isBlank_iff] at hblank
  rcases hblank with rfl | rfl <;> simp [hexDigit] at h

/-! ### Tokens -/

/-- Blanks before a token are dropped. -/
theorem tokensFrom_blanks {bs : List Char} (hbs : ∀ x ∈ bs, isBlank x = true) (cs : List Char) :
    tokensFrom [] (bs ++ cs) = tokensFrom [] cs := by
  induction bs with
  | nil => rfl
  | cons b bs ih =>
    obtain ⟨hb, hbs⟩ := List.forall_mem_cons.mp hbs
    rw [List.cons_append, tokensFrom, if_pos hb, if_pos rfl, ih hbs]

/-- A token that has begun goes on to the next blank. -/
theorem tokensFrom_of_ne_nil {cur : List Char} (hcur : cur ≠ []) (cs : List Char) :
    tokensFrom cur cs = (cur.reverse ++ cs.takeWhile (fun c => !isBlank c)) ::
      tokensFrom [] (cs.dropWhile (fun c => !isBlank c)) := by
  induction cs generalizing cur with
  | nil => simp [tokensFrom, hcur]
  | cons c cs ih =>
    cases hc : isBlank c with
    | true => simp [tokensFrom, hc, hcur]
    | false => simp [tokensFrom, hc, ih (List.cons_ne_nil c cur)]

/-- A token of a line: one character or more, none of them a blank. -/
abbrev IsToken (t : List Char) : Prop := t ≠ [] ∧ ∀ x ∈ t, isBlank x = false

/-- A token ends at a blank or at the end of the line. -/
theorem tokensFrom_append_token {t rest : List Char} (ht : IsToken t) (hrest : ∀ x ∈ rest.head?, isBlank x = true) :
    tokensFrom [] (t ++ rest) = t :: tokensFrom [] rest := by
  obtain ⟨hne, ht⟩ := ht
  obtain ⟨c, t, rfl⟩ := List.exists_cons_of_ne_nil hne
  obtain ⟨hc, ht⟩ := List.forall_mem_cons.mp ht
  have ht' : ∀ x ∈ t, (!isBlank x) = true := by simpa using ht
  rw [List.cons_append, tokensFrom, if_neg (by simp [hc]), tokensFrom_of_ne_nil (List.cons_ne_nil c []),
    List.takeWhile_append_of_pos ht', List.dropWhile_append_of_pos ht']
  cases rest with
  | nil => simp
  | cons r rest =>
    have hr : isBlank r = true := by simpa using hrest
    simp [hr]

theorem tokensFrom_eq_nil_iff (cs : List Char) : tokensFrom [] cs = [] ↔ ∀ x ∈ cs, isBlank x = true := by
  induction cs with
  | nil => simp [tokensFrom]
  | cons c cs ih =>
    cases hc : isBlank c with
    | true => simp [tokensFrom, hc, ih]
    | false => simp [tokensFrom, hc, tokensFrom_of_ne_nil]

/-- The first token of a line stands after the blanks and ends at a blank or at the end of the line. -/
theorem tokensFrom_eq_cons_iff (cs t : List Char) (ts : List (List Char)) :
    tokensFrom [] cs = t :: ts ↔ ∃ bs rest, cs = bs ++ (t ++ rest) ∧ (∀ x ∈ bs, isBlank x = true) ∧ IsToken t ∧
      (∀ x ∈ rest.head?, isBlank x = true) ∧ tokensFrom [] rest = ts := by
  constructor
  · intro h
    induction cs with
    | nil => exact absurd h (by simp [tokensFrom])
    | cons c cs ih =>
      cases hc : isBlank c with
      | true =>
        rw [tokensFrom, if_pos hc, if_pos rfl] at h
        obtain ⟨bs, rest, rfl, hbs, hrest⟩ := ih h
        exact ⟨c :: bs, rest, rfl, List.forall_mem_cons.mpr ⟨hc, hbs⟩, hrest⟩
      | false =>
        rw [tokensFrom, if_neg (by simp [hc]), tokensFrom_of_ne_nil (List.cons_ne_nil c [])] at h
        obtain ⟨rfl, rfl⟩ := List.cons.inj h
        refine ⟨[], cs.dropWhile (fun c => !isBlank c), by simp, by simp, ⟨by simp, ?_⟩, ?_, rfl⟩
        · refine List.forall_mem_cons.mpr ⟨hc, fun x hx => ?_⟩
          simpa using List.mem_takeWhile_imp hx
        · intro x hx
          have hnot := List.head?_dropWhile_not (fun c => !isBlank c) cs
          rw [Option.mem_def.mp hx] at hnot
          simpa using hnot
  · rintro ⟨bs, rest, rfl, hbs, ht, hrest, rfl⟩
    rw [tokensFrom_blanks hbs, tokensFrom_append_token ht hrest]

/-- A line of two tokens: at least one blank between them, and blanks around. -/
theorem tokensFrom_eq_pair_iff (line op num : List Char) :
    tokensFrom [] line = [op, num] ↔ ∃ b1 b2 b3, line = b1 ++ (op ++ (b2 ++ (num ++ b3))) ∧
      (∀ x ∈ b1 ++ b2 ++ b3, isBlank x = true) ∧ b2 ≠ [] ∧ IsToken op ∧ IsToken num := by
  simp only [tokensFrom_eq_cons_iff, tokensFrom_eq_nil_iff]
  constructor
  · rintro ⟨b1, _, rfl, hb1, hop, hhead, b2, b3, rfl, hb2, hnum, -, hb3⟩
    have hb := List.forall_mem_append.mpr ⟨List.forall_mem_append.mpr ⟨hb1, hb2⟩, hb3⟩
    refine ⟨b1, b2, b3, rfl, hb, ?_, hop, hnum⟩
    rintro rfl
    obtain ⟨hne, hnum⟩ := hnum
    obtain ⟨c, num, rfl⟩ := List.exists_cons_of_ne_nil hne
    have hblank : isBlank c = true := by simpa using hhead
    exact absurd hblank (by simp [hnum c List.mem_cons_self])
  · rintro ⟨b1, b2, b3, rfl, hb, hb2, hop, hnum⟩
    obtain ⟨hb12, hb3⟩ := List.forall_mem_append.mp hb
    obtain ⟨hb1, hb2'⟩ := List.forall_mem_append.mp hb12
    obtain ⟨c, b2, rfl⟩ := List.exists_cons_of_ne_nil hb2
    refine ⟨b1, _, rfl, hb1, hop, ?_, c :: b2, b3, rfl, hb2', hnum, ?_, hb3⟩
    · simpa using hb2' c List.mem_cons_self
    · exact fun x hx => hb3 x (List.mem_of_mem_head? hx)

/-! ### Numerals -/

/-- The value of a numeral with digits `vs`, most significant first, read after one of value `acc`. -/
abbrev hexValue (acc : Nat) (vs : List Nat) : Nat := vs.foldl (fun v d => 16 * v + d) acc

theorem hexDigits_eq_some_iff (acc v : Nat) (cs : List Char) : hexDigits acc cs = some v ↔
    ∃ vs : List Nat, cs.map hexDigit = vs.map some ∧ hexValue acc vs = v := by
  induction cs generalizing acc with
  | nil => simp [hexDigits]
  | cons c cs ih =>
    cases hc : hexDigit c with
    | none =>
      simp only [hexDigits, hc, List.map_cons, reduceCtorEq, false_iff]
      rintro ⟨vs, hvs, -⟩
      obtain ⟨e, -, -, he, -⟩ := List.map_eq_cons_iff.mp hvs.symm
      exact Option.some_ne_none e he
    | some d =>
      simp only [hexDigits, hc, ih, List.map_cons]
      constructor
      · rintro ⟨vs, hvs, hv⟩
        exact ⟨d :: vs, by rw [hvs, List.map_cons], hv⟩
      · rintro ⟨vs, hvs, hv⟩
        obtain ⟨e, vs, rfl, he, hvs'⟩ := List.map_eq_cons_iff.mp hvs.symm
        obtain rfl : e = d := Option.some.inj he
        exact ⟨vs, hvs'.symm, hv⟩

theorem hexNumeral_eq_some_iff (ds : List Char) (v : Nat) : hexNumeral ds = some v ↔
    ds ≠ [] ∧ ∃ vs : List Nat, ds.map hexDigit = vs.map some ∧ hexValue 0 vs = v := by
  rw [← hexDigits_eq_some_iff]
  unfold hexNumeral
  split <;> simp_all

theorem not_isBlank_of_mem_hexDigits {ds : List Char} {vs : List Nat} (h : ds.map hexDigit = vs.map some) :
    ∀ x ∈ ds, isBlank x = false := by
  intro x hx
  have hmem : hexDigit x ∈ vs.map some := h ▸ List.mem_map_of_mem hx
  obtain ⟨d, -, hd⟩ := List.mem_map.mp hmem
  exact not_isBlank_of_hexDigit hd.symm

/-- The `0x` is optional: a numeral without it does not begin with `0x` or `0X`, as `x` and `X` are no digits. -/
theorem hexAddr_eq_some_iff (num : List Char) (v : Nat) : hexAddr num = some v ↔
    ∃ p ds, num = p ++ ds ∧ (p = [] ∨ p = ['0', 'x'] ∨ p = ['0', 'X']) ∧ hexNumeral ds = some v := by
  constructor
  · intro h
    unfold hexAddr at h
    split at h
    next ds => exact ⟨['0', 'x'], ds, rfl, by simp, h⟩
    next ds => exact ⟨['0', 'X'], ds, rfl, by simp, h⟩
    next => exact ⟨[], num, rfl, by simp, h⟩
  · rintro ⟨p, ds, rfl, rfl | rfl | rfl, h⟩
    · rw [List.nil_append]
      unfold hexAddr
      split
      next => exact absurd h (by simp [hexNumeral, hexDigits, hexDigit])
      next => exact absurd h (by simp [hexNumeral, hexDigits, hexDigit])
      next => exact h
    · exact h
    · exact h

theorem isToken_of_hexAddr {num : List Char} {v : Nat} (h : hexAddr num = some v) : IsToken num := by
  obtain ⟨p, ds, rfl, hp, hds⟩ := (hexAddr_eq_some_iff _ _).mp h
  obtain ⟨hne, vs, hvs, -⟩ := (hexNumeral_eq_some_iff _ _).mp hds
  have hp' : ∀ x ∈ p, isBlank x = false := by
    rcases hp with rfl | rfl | rfl <;> simp [isBlank]
  exact ⟨by simp [hne], List.forall_mem_append.mpr ⟨hp', not_isBlank_of_mem_hexDigits hvs⟩⟩

/-! ### Lines -/

/-- A record is an op and a numeral below `2^32` (rules R103, R104). -/
theorem parseLine_eq_some_iff (line : List Char) (w : ReqWord) : parseLine line = some w ↔
    ∃ op num v, tokensFrom [] line = [[op], num] ∧ (op = 'R' ∨ op = 'W') ∧ hexAddr num = some v ∧ v < 2 ^ 32 ∧
      w = packReq (op == 'W') (BitVec.ofNat 32 v) := by
  constructor
  · intro h
    unfold parseLine at h
    split at h
    next op num htokens =>
      split at h
      next v hv =>
        split at h
        next hlt =>
          split at h
          next hop => exact ⟨'R', num, v, hop ▸ htokens, by simp, hv, hlt, (Option.some.inj h).symm⟩
          next =>
            split at h
            next hop => exact ⟨'W', num, v, hop ▸ htokens, by simp, hv, hlt, (Option.some.inj h).symm⟩
            next => cases h
        next => cases h
      next => cases h
    next => cases h
  · rintro ⟨op, num, v, htokens, hop, hv, hlt, rfl⟩
    rcases hop with rfl | rfl
    · simp only [parseLine, htokens, hv, if_pos hlt]
      rfl
    · simp only [parseLine, htokens, hv, if_pos hlt]
      rfl

/-- Settles O6: the two tokens are the op and the numeral, and what lies around them is blank. -/
theorem traceLineIsTheGrammar : Obligations.TraceLineIsTheGrammar := by
  unfold Obligations.TraceLineIsTheGrammar
  intro line w
  simp only [← isBlank_iff]
  rw [parseLine_eq_some_iff]
  constructor
  · rintro ⟨op, num, v, htokens, hop, hv, hlt, rfl⟩
    obtain ⟨b1, b2, b3, rfl, hb, hb2, -, -⟩ := (tokensFrom_eq_pair_iff _ _ _).mp htokens
    obtain ⟨p, ds, rfl, hp, hds⟩ := (hexAddr_eq_some_iff _ _).mp hv
    obtain ⟨hne, vs, hvs, rfl⟩ := (hexNumeral_eq_some_iff _ _).mp hds
    exact ⟨b1, b2, b3, p, ds, op, vs, by simp, hb, hb2, hop, hp, hne, hvs, hlt, rfl⟩
  · rintro ⟨b1, b2, b3, p, ds, op, vs, rfl, hb, hb2, hop, hp, hne, hvs, hlt, rfl⟩
    have hv : hexAddr (p ++ ds) = some (hexValue 0 vs) :=
      (hexAddr_eq_some_iff _ _).mpr ⟨p, ds, rfl, hp, (hexNumeral_eq_some_iff _ _).mpr ⟨hne, vs, hvs, rfl⟩⟩
    have hop' : IsToken [op] := by
      rcases hop with rfl | rfl <;> simp [IsToken, isBlank]
    have htokens : tokensFrom [] (b1 ++ op :: b2 ++ p ++ ds ++ b3) = [[op], p ++ ds] :=
      (tokensFrom_eq_pair_iff _ _ _).mpr
        ⟨b1, b2, b3, by simp, hb, hb2, hop', isToken_of_hexAddr hv⟩
    exact ⟨op, p ++ ds, _, htokens, hop, hv, hlt, rfl⟩

end Sys2Proof.Machine
end

section
/-! PROOFS. The tag array: what lookup (O10) and victim selection (O11) answer, line by line, and the whole effect of
touch (O12) and of install (O13). -/

namespace Sys2Proof.Machine

/-! ### Lookup and victim -/

theorem Line.not_holds_iff {l : Line} {t : Tag} : l.holds t = false ↔ l.mesi = .invalid ∨ l.tag ≠ t := by
  rw [← Bool.not_eq_true, Line.holds_iff]
  tauto

theorem lineAt_eq_some {s : State} {c : CoreId} {si w : Nat} {l : Line} :
    s.lineAt c si w = some l ↔ ∃ h : w < (s.setLines c si).length, (s.setLines c si)[w] = l :=
  List.getElem?_eq_some_iff

/-- `lookup` finds a way exactly when it is the first one that holds the tag valid (rule R110). -/
theorem lookup_eq_some {s : State} {c : CoreId} {si w : Nat} {t : Tag} :
    s.lookup c si t = some w ↔
      (∃ l, s.lineAt c si w = some l ∧ l.holds t = true) ∧
        ∀ j < w, ∀ l, s.lineAt c si j = some l → l.holds t = false := by
  rw [State.lookup, lookupIn_eq_some]
  constructor
  · rintro ⟨hw, hholds, hbelow⟩
    refine ⟨⟨_, lineAt_eq_some.mpr ⟨hw, rfl⟩, hholds⟩, fun j hj l hl => ?_⟩
    obtain ⟨-, rfl⟩ := lineAt_eq_some.mp hl
    exact hbelow j hj
  · rintro ⟨⟨l, hl, hholds⟩, hbelow⟩
    obtain ⟨hw, rfl⟩ := lineAt_eq_some.mp hl
    exact ⟨hw, hholds, fun j hj => hbelow j hj _ (lineAt_eq_some.mpr ⟨hj.trans hw, rfl⟩)⟩

/-- `lookup` finds nothing exactly when no way holds the tag valid (rule R110). -/
theorem lookup_eq_none {s : State} {c : CoreId} {si : Nat} {t : Tag} :
    s.lookup c si t = none ↔ ∀ w l, s.lineAt c si w = some l → l.holds t = false := by
  rw [State.lookup, lookupIn_eq_none, List.forall_mem_iff_getElem]
  constructor
  · intro h w l hl
    obtain ⟨hw, rfl⟩ := lineAt_eq_some.mp hl
    exact h w hw
  · exact fun h w hw => h w _ (lineAt_eq_some.mpr ⟨hw, rfl⟩)

/-- Settles O10: `lookup` is a search for the first line that holds the tag, and `holds` is validity and the tag. -/
theorem lookupFindsTheFirstValidLine : Obligations.LookupFindsTheFirstValidLine := by
  unfold Obligations.LookupFindsTheFirstValidLine
  intro s c si t
  simp only [lookup_eq_some, lookup_eq_none, Line.holds_iff, Line.not_holds_iff, implies_true, and_self]

theorem ArraysShaped.setLines_ne_nil {s : State} (h : ArraysShaped s) (hE : 1 ≤ s.cfg.E) (c : CoreId) (si : Nat) :
    s.setLines c si ≠ [] := by
  rw [← List.length_pos_iff, h.setLines_length]
  exact hE

/-- The victim of a set with lines is one of them. -/
theorem ArraysShaped.lineAt_victim {s : State} (h : ArraysShaped s) (hE : 1 ≤ s.cfg.E) (c : CoreId) (si : Nat) :
    ∃ v, s.lineAt c si (s.victim c si) = some v :=
  ⟨_, lineAt_eq_some.mpr ⟨victimIn_lt (h.setLines_ne_nil hE c si), rfl⟩⟩

theorem Line.valid_eq_false_iff {l : Line} : l.valid = false ↔ l.mesi = .invalid := by
  simp [Line.valid]

/-- Where the set has an INVALID line, its first one is the victim (rule R111). -/
theorem victim_of_invalid {s : State} {c : CoreId} {si : Nat} {v : Line}
    (hv : s.lineAt c si (s.victim c si) = some v) (h : ∃ w l, s.lineAt c si w = some l ∧ l.mesi = .invalid) :
    v.mesi = .invalid ∧ ∀ j < s.victim c si, ∀ l, s.lineAt c si j = some l → l.mesi ≠ .invalid := by
  obtain ⟨w, l, hl, hinv⟩ := h
  obtain ⟨_, hvic, hbelow⟩ := victimIn_of_invalid ⟨l, List.mem_of_getElem? hl, Line.valid_eq_false_iff.mpr hinv⟩
  obtain ⟨-, rfl⟩ := lineAt_eq_some.mp hv
  refine ⟨Line.valid_eq_false_iff.mp hvic, fun j hj l' hl' => ?_⟩
  obtain ⟨-, rfl⟩ := lineAt_eq_some.mp hl'
  simpa [Line.valid] using hbelow j hj

/-- Where the set has no INVALID line, the first line with the least `lru` is the victim (rule R111). -/
theorem victim_of_valid {s : State} {c : CoreId} {si : Nat} {v : Line}
    (hv : s.lineAt c si (s.victim c si) = some v) (h : ∀ w l, s.lineAt c si w = some l → l.mesi ≠ .invalid) :
    (∀ w l, s.lineAt c si w = some l → v.lru.toNat ≤ l.lru.toNat) ∧
      ∀ j < s.victim c si, ∀ l, s.lineAt c si j = some l → v.lru.toNat < l.lru.toNat := by
  obtain ⟨hlt, rfl⟩ := lineAt_eq_some.mp hv
  have hvalid : ∀ l ∈ s.setLines c si, l.valid = true := fun l hl => by
    obtain ⟨w, hw⟩ := List.getElem?_of_mem hl
    simpa [Line.valid] using h w l hw
  obtain ⟨_, hleast, hbelow⟩ := victimIn_of_valid (List.ne_nil_of_length_pos (Nat.zero_lt_of_lt hlt)) hvalid
  refine ⟨fun w l hl => hleast l (List.mem_of_getElem? hl), fun j hj l hl => ?_⟩
  obtain ⟨-, rfl⟩ := lineAt_eq_some.mp hl
  exact hbelow j hj

/-- Settles O11: the set has lines, so the victim is one of them, and its choice is that of `victimIn`. -/
theorem victimIsFirstInvalidOrLeastRecent : Obligations.VictimIsFirstInvalidOrLeastRecent := by
  unfold Obligations.VictimIsFirstInvalidOrLeastRecent
  intro s c si hshape hE
  obtain ⟨v, hv⟩ := hshape.lineAt_victim hE c si
  exact ⟨v, hv, victim_of_invalid hv, victim_of_valid hv⟩

/-! ### Touch and install -/

/-- The lines depend on the configuration and the sets alone. -/
theorem lineAt_congr {s t : State} {c : CoreId} (hcfg : t.cfg = s.cfg)
    (hsets : (t.cache.get c).sets = (s.cache.get c).sets) (si w : Nat) : t.lineAt c si w = s.lineAt c si w := by
  rw [State.lineAt, setLines_congr hcfg hsets, State.lineAt]

theorem setCounter_lruCtr_get (s : State) (c c' : CoreId) (v : Count) :
    ((s.setCounter (.lruCtr c) v).cache.get c').lruCtr = if c' = c then v else (s.cache.get c').lruCtr := by
  simp only [State.setCounter, Quad.get_set]
  split <;> rfl

/-- Settles O12: `touch` writes the LRU counter and rewrites one line, or overflows on its first line. -/
theorem touchStampsTheLine : Obligations.TouchStampsTheLine := by
  unfold Obligations.TouchStampsTheLine
  intro s c si w hshape hf
  refine ⟨fun hroom => ?_, touch_of_full hf⟩
  have hcounted : ArraysShaped (s.setCounter (.lruCtr c) ((s.cache.get c).lruCtr + 1)) :=
    hshape.congr (by simp) (by simp)
  rw [touch_of_room hf hroom]
  refine ⟨rfl, fun c' => ?_, fun c' si' w' => ?_⟩
  · rw [modifyLine_lruCtr, setCounter_lruCtr_get]
    split
    case isTrue h => rw [h]
    case isFalse => rfl
  · rw [lineAt_modifyLine hcounted, lineAt_congr (s := s) (by simp) (by simp)]

/-- The lines after an install are those after the line in the victim slot is rewritten. -/
theorem lineAt_installedCaches (s : State) (c : CoreId) (si : Nat) (t : Tag) (m : Mesi) (c' : CoreId) (si' w : Nat) :
    ({ s with cache := installedCaches s c si t m } : State).lineAt c' si' w =
      (modifyLine c si (s.victim c si)
        (fun _ => { tag := t, mesi := m, lru := (s.cache.get c).lruCtr + 1 }) s).lineAt c' si' w := by
  apply lineAt_congr
  · rfl
  · by_cases hc : c' = c
    · subst hc
      simp [installedCaches, lineRewritten, modifyLine, State.putSet, State.setLines]
    · simp [installedCaches, hc]

/-- Settles O13: the three lines of `install` amount to one rewrite of the line in the victim slot, which exists. -/
theorem installReplacesTheVictim : Obligations.InstallReplacesTheVictim := by
  unfold Obligations.InstallReplacesTheVictim
  intro s c si t m hshape hE hsi hf hroom
  rw [install_of_room hshape hsi hf hroom]
  refine ⟨rfl, fun c' => ?_, fun c' si' w => ?_⟩
  · simp only [installedCaches, Quad.get_set]
    split
    case isTrue h => rw [h]
    case isFalse => rfl
  · rw [lineAt_installedCaches, lineAt_modifyLine hshape]
    split
    case isTrue h =>
      obtain ⟨rfl, rfl, rfl⟩ := h
      obtain ⟨v, hv⟩ := hshape.lineAt_victim hE c' si'
      rw [hv]
      rfl
    case isFalse => rfl

end Sys2Proof.Machine
end

section
/-! PROOFS. Footprints: the counters, lines, bus fields and program counters that a rule may write, and with them
what it leaves alone. -/

namespace Sys2Proof.Machine

/-! ### Footprints -/

/-- What a rule may write. -/
structure Footprint where
  /-- The counters. -/
  counter : Counter → Prop
  /-- The lines, named by cache, set and way, with the old and the new line. -/
  line : CoreId → Nat → Nat → Line → Line → Prop
  /-- The bus records it may leave. -/
  bus : Bus → Prop
  /-- The program counters. -/
  pc : CoreId → Prop

/-- Rewriting the line at this place by `f` stays within the footprint, whatever the rule made of it before. -/
def Footprint.Allows (F : Footprint) (s : State) (c : CoreId) (si w : Nat) (f : Line → Line) : Prop :=
  ∀ l l', s.lineAt c si w = some l → l' = l ∨ F.line c si w l l' → F.line c si w l (f l')

/-- `u` differs from `s` within the footprint only. -/
structure Footprint.Covers (F : Footprint) (s u : State) : Prop where
  program : SameProgram s u
  turn : u.turn = s.turn
  arrays : ArraysShaped u
  counter : ∀ x, ¬ F.counter x → u.counter x = s.counter x
  line : ∀ c si w, u.lineAt c si w = s.lineAt c si w ∨
    ∃ l l', s.lineAt c si w = some l ∧ u.lineAt c si w = some l' ∧ F.line c si w l l'
  bus : F.bus u.bus
  pc : ∀ c, ¬ F.pc c → u.pc.get c = s.pc.get c

namespace Footprint.Covers

variable {F : Footprint} {s u : State}

theorem refl (hs : ArraysShaped s) (hbus : F.bus s.bus) : F.Covers s s :=
  ⟨⟨⟨rfl, rfl⟩, rfl, rfl⟩, rfl, hs, fun _ _ => rfl, fun _ _ _ => .inl rfl, hbus, fun _ _ => rfl⟩

theorem cfg (h : F.Covers s u) : u.cfg = s.cfg := h.program.1.1

/-- A wider footprint covers as much. -/
theorem mono {F' : Footprint} (h : F.Covers s u) (hcounter : ∀ x, F.counter x → F'.counter x)
    (hline : ∀ c si w l l', F.line c si w l l' → F'.line c si w l l') (hbus : ∀ b, F.bus b → F'.bus b)
    (hpc : ∀ c, F.pc c → F'.pc c) : F'.Covers s u where
  program := h.program
  turn := h.turn
  arrays := h.arrays
  counter x hx := h.counter x (mt (hcounter x) hx)
  line c si w := (h.line c si w).imp_right fun ⟨l, l', hl, hl', hF⟩ => ⟨l, l', hl, hl', hline _ _ _ _ _ hF⟩
  bus := hbus _ h.bus
  pc c hc := h.pc c (mt (hpc c) hc)

/-- A write of no line. -/
theorem of_sets {v : State} (h : F.Covers s u) (hprog : SameProgram u v) (hturn : v.turn = u.turn)
    (hsets : ∀ c, (v.cache.get c).sets = (u.cache.get c).sets)
    (hcounter : ∀ x, ¬ F.counter x → v.counter x = u.counter x) (hbus : F.bus v.bus)
    (hpc : ∀ c, ¬ F.pc c → v.pc.get c = u.pc.get c) : F.Covers s v := by
  obtain ⟨⟨hcfg, htr⟩, hdone, hactive⟩ := hprog
  obtain ⟨⟨hcfg', htr'⟩, hdone', hactive'⟩ := h.program
  refine ⟨⟨⟨hcfg.trans hcfg', htr.trans htr'⟩, hdone.trans hdone', hactive.trans hactive'⟩, hturn.trans h.turn,
    h.arrays.congr hcfg hsets, fun x hx => (hcounter x hx).trans (h.counter x hx), fun c si w => ?_, hbus,
    fun c hc => (hpc c hc).trans (h.pc c hc)⟩
  rw [lineAt_congr hcfg (hsets c)]
  exact h.line c si w

theorem setCounter (h : F.Covers s u) {x : Counter} (hx : F.counter x) (v : Count) :
    F.Covers s (u.setCounter x v) := by
  refine h.of_sets (by simp [SameProgram]) (by simp) (by simp) (fun y hy => ?_) (by simpa using h.bus) (by simp)
  exact State.counter_setCounter_ne _ _ fun e => hy (e ▸ hx)

theorem raise (h : F.Covers s u) (code : FaultCode) : F.Covers s (raise code u) :=
  h.of_sets (by simp [SameProgram]) (by simp) (by simp) (fun y _ => by cases y <;> simp [State.counter])
    (by simpa using h.bus) (by simp)

theorem inc (h : F.Covers s u) {x : Counter} (hx : F.counter x) (k : Nat) : F.Covers s (inc x k u) := by
  by_cases hroom : HasRoom u x k
  · rw [inc_of_room hroom]
    exact h.setCounter hx _
  · rw [inc_of_full hroom]
    exact h.raise _

theorem setBus (h : F.Covers s u) {b : Bus} (hb : F.bus b) : F.Covers s { u with bus := b } :=
  h.of_sets (v := { u with bus := b }) ⟨⟨rfl, rfl⟩, rfl, rfl⟩ rfl (fun _ => rfl) (fun x _ => by cases x <;> rfl) hb
    fun _ _ => rfl

theorem advancePc (h : F.Covers s u) {c : CoreId} (hc : F.pc c) : F.Covers s (advancePc c u) := by
  refine h.of_sets (v := Machine.advancePc c u) ⟨⟨rfl, rfl⟩, rfl, rfl⟩ rfl (fun _ => rfl)
    (fun x _ => by cases x <;> rfl) h.bus fun c' hc' => ?_
  exact Quad.get_set_ne _ _ fun e => hc' (e ▸ hc)

theorem modifyLine (h : F.Covers s u) {c : CoreId} {si w : Nat} {f : Line → Line} (hsi : si < s.cfg.numSets)
    (hf : F.Allows s c si w f) : F.Covers s (modifyLine c si w f u) := by
  refine ⟨h.program, h.turn, h.arrays.modifyLine c w f (by rwa [h.cfg]),
    fun x hx => ?_, fun c' si' w' => ?_, h.bus, h.pc⟩
  · rw [← h.counter x hx]
    cases x <;> simp [State.counter]
  · rw [lineAt_modifyLine h.arrays]
    split
    case isFalse => exact h.line c' si' w'
    case isTrue hat =>
      obtain ⟨rfl, rfl, rfl⟩ := hat
      obtain heq | ⟨l, l', hl, hl', hF⟩ := h.line c' si' w'
      · rw [heq]
        cases hl : s.lineAt c' si' w' with
        | none => exact .inl rfl
        | some l => exact .inr ⟨l, f l, rfl, rfl, hf l l hl (.inl rfl)⟩
      · exact .inr ⟨l, f l', hl, by rw [hl', Option.map_some], hf l l' hl (.inr hF)⟩

theorem setMesi (h : F.Covers s u) {c : CoreId} {si w : Nat} {m : Mesi} (hsi : si < s.cfg.numSets)
    (hf : F.Allows s c si w fun l => { l with mesi := m }) : F.Covers s (setMesi c si w m u) := h.modifyLine hsi hf

/-- A state write to the copy of a block that `s` already holds in that place. -/
theorem setHolderMesi (h : F.Covers s u) {c : CoreId} {si : Nat} {t : Tag} {m : Mesi} (hsi : si < s.cfg.numSets)
    (hlookup : u.lookup c si t = s.lookup c si t)
    (hf : ∀ w, s.lookup c si t = some w → F.Allows s c si w fun l => { l with mesi := m }) :
    F.Covers s (setHolderMesi c si t m u) := by
  unfold Machine.setHolderMesi
  rw [hlookup]
  split
  case h_1 w hw => exact h.setMesi hsi (hf w hw)
  case h_2 => exact h

/-- Lines of a rule that each stay within the footprint. -/
theorem seq {fs : List (State → State)} (hfs : ∀ f ∈ fs, ∀ u, F.Covers s u → F.Covers s (f u))
    (h : F.Covers s u) : F.Covers s (seq fs u) :=
  seq_induct (F.Covers s) (fun f hf u _ hu => hfs f hf u hu) h

/-- The first line of a rule, which reads the state it finds, and the lines after it. -/
theorem seq_cons {f : State → State} {fs : List (State → State)} (h : F.Covers s u)
    (hfs : F.Covers s (Machine.seq fs (f u))) : F.Covers s (Machine.seq (f :: fs) u) := by
  by_cases hu : u.faultCode = .fNone
  · rwa [Machine.seq_cons hu]
  · rwa [seq_of_faulted hu]

/-- State writes to the copies of one block in distinct caches, each of which may raise a fault instead. -/
theorem seq_holders {L : List CoreId} {g : CoreId → State → State} {si : Nat} {t : Tag} {m : Mesi}
    (hg : ∀ c u, g c u = Machine.setHolderMesi c si t m u ∨ ∃ code, g c u = Machine.raise code u) (hd : L.Nodup)
    (hsi : si < s.cfg.numSets) (hlookup : ∀ c ∈ L, u.lookup c si t = s.lookup c si t)
    (hf : ∀ c ∈ L, ∀ w, s.lookup c si t = some w → F.Allows s c si w fun l => { l with mesi := m })
    (h : F.Covers s u) : F.Covers s (Machine.seq (L.map g) u) := by
  induction L generalizing u with
  | nil => exact h
  | cons c L ih =>
    rw [List.forall_mem_cons] at hlookup hf
    obtain ⟨hc, hd⟩ := List.nodup_cons.mp hd
    by_cases hfault : u.faultCode = .fNone
    · rw [List.map_cons, Machine.seq_cons hfault]
      refine ih hd (fun c' hc' => ?_) hf.2 ?_
      · have hne : c' ≠ c := fun e => hc (e ▸ hc')
        rw [← hlookup.2 c' hc']
        obtain h | ⟨code, h⟩ := hg c u <;> rw [h]
        · exact lookup_congr (setLines_setHolderMesi_ne hne) t
        · exact lookup_congr (setLines_raise code u c' si) t
      · obtain he | ⟨code, he⟩ := hg c u <;> rw [he]
        · exact h.setHolderMesi hsi hlookup.1 hf.1
        · exact h.raise code
    · rwa [seq_of_faulted hfault]

/-! ### What a footprint leaves alone -/

theorem stats (h : F.Covers s u) {c : CoreId} (hc : ∀ n, ¬ F.counter (.stat c n)) :
    u.stats.get c = s.stats.get c := by
  have hread : ∀ n, (u.stats.get c).read n = (s.stats.get c).read n := fun n => h.counter (.stat c n) (hc n)
  generalize u.stats.get c = x at hread
  generalize s.stats.get c = y at hread
  cases x
  cases y
  simp only [Stats.mk.injEq]
  exact ⟨hread .totalInstructions, hread .totalReads, hread .totalWrites, hread .totalCycles, hread .idleCycles,
    hread .cacheMisses, hread .cacheEvictions, hread .writebacks, hread .busInvalidations, hread .dataTrafficBytes⟩

theorem lineAt (h : F.Covers s u) {c : CoreId} {si w : Nat} (hline : ∀ l l', ¬ F.line c si w l l') :
    u.lineAt c si w = s.lineAt c si w :=
  (h.line c si w).resolve_right fun ⟨l, l', _, _, hF⟩ => hline l l' hF

/-- A line that stood in `s` stands in `u` as it was, or as the footprint says. -/
theorem line_of_some (h : F.Covers s u) {c : CoreId} {si w : Nat} {l : Line} (hl : s.lineAt c si w = some l) :
    ∃ l', u.lineAt c si w = some l' ∧ (l' = l ∨ F.line c si w l l') := by
  obtain heq | ⟨l0, l', hl0, hl', hF⟩ := h.line c si w
  · exact ⟨l, heq.trans hl, .inl rfl⟩
  · obtain rfl := Option.some.inj (hl0.symm.trans hl)
    exact ⟨l', hl', .inr hF⟩

/-- A cache with no line and no LRU counter in the footprint stays: the canonical form determines it. -/
theorem cache (h : F.Covers s u) (hs : ArraysShaped s) {c : CoreId} (hlru : ¬ F.counter (.lruCtr c))
    (hline : ∀ si w l l', ¬ F.line c si w l l') : u.cache.get c = s.cache.get c := by
  have hctr : (u.cache.get c).lruCtr = (s.cache.get c).lruCtr := h.counter (.lruCtr c) hlru
  have hsets : (u.cache.get c).sets = (s.cache.get c).sets := by
    have hu := h.arrays c
    rw [h.cfg] at hu
    refine sets_ext hu (hs c) fun si => List.ext_getElem? fun w => ?_
    have hw := h.lineAt (hline si w)
    rwa [State.lineAt, State.setLines, h.cfg] at hw
  generalize u.cache.get c = x at hctr hsets
  obtain ⟨sets, lruCtr⟩ := x
  cases hctr
  cases hsets
  rfl

end Footprint.Covers

end Sys2Proof.Machine
end

section
/-! PROOFS. The footprint of an access, and what PrRd (O21) and PrWr (O22) leave alone. -/

namespace Sys2Proof.Machine

/-! ### The rules of an access -/

namespace Footprint.Covers

variable {F : Footprint} {s u : State}

theorem touch (h : F.Covers s u) {c : CoreId} {si w : Nat} (hsi : si < s.cfg.numSets) (hlru : F.counter (.lruCtr c))
    (hf : ∀ x, F.Allows s c si w fun l => { l with lru := x }) : F.Covers s (touch c si w u) := by
  refine seq ?_ h
  simp only [List.forall_mem_cons]
  exact ⟨fun v hv => hv.inc hlru 1, fun v hv => hv.modifyLine hsi (hf _), by simp⟩

theorem completeAccess (h : F.Covers s u) {c : CoreId} {si k : Nat} {kind : StatName} (hsi : si < s.cfg.numSets)
    (hlru : F.counter (.lruCtr c)) (hf : ∀ x, F.Allows s c si k fun l => { l with lru := x })
    (hstat : ∀ n ∈ [kind, .totalInstructions, .totalCycles], F.counter (.stat c n)) (hpc : F.pc c) :
    F.Covers s (completeAccess c si k kind u) := by
  simp only [List.forall_mem_cons] at hstat
  obtain ⟨hkind, hinstr, hcycles, -⟩ := hstat
  refine seq ?_ h
  simp only [List.forall_mem_cons]
  exact ⟨fun v hv => hv.touch hsi hlru hf, fun v hv => hv.inc hkind 1, fun v hv => hv.inc hinstr 1,
    fun v hv => hv.inc hcycles 1, fun v hv => hv.advancePc hpc, by simp⟩

theorem stall (h : F.Covers s u) {c : CoreId} (htotal : F.counter (.stat c .totalCycles))
    (hidle : F.counter (.stat c .idleCycles)) : F.Covers s (stall c u) := by
  unfold Machine.stall
  split
  · exact h.inc htotal 1
  · exact h.inc hidle 1

/-- The counters that an issue counts up are those of R132, and for a write the one of R133. -/
theorem issue (h : F.Covers s u) {c : CoreId} {a : Addr} {w : Bool} (hbus : ∀ b, F.bus b → F.bus (issueBus c a w b))
    (hstat : ∀ n ∈ [.cacheMisses, .totalCycles, .dataTrafficBytes], F.counter (.stat c n))
    (htrans : F.counter .busTransactions) (hbytes : F.counter .busTrafficBytes)
    (hinv : w = true → F.counter (.stat c .busInvalidations)) : F.Covers s (issue c a w u) := by
  simp only [List.forall_mem_cons] at hstat
  obtain ⟨hmiss, hcycles, hdata, -⟩ := hstat
  refine seq ?_ h
  simp only [List.forall_mem_cons]
  refine ⟨fun v hv => hv.setBus (hbus _ hv.bus), fun v hv => hv.inc hmiss 1, fun v hv => hv.inc hcycles 1,
    fun v hv => hv.inc hdata _, fun v hv => hv.inc htrans 1, fun v hv => hv.inc hbytes _, fun v hv => ?_, by simp⟩
  split
  case isTrue hw => exact hv.inc (hinv hw) 1
  case isFalse => exact hv

/-- SNOOP_UPGR turns the copies of the other caches INVALID, or raises a fault (rule R163). -/
theorem snoopUpgr (h : F.Covers s u) {c : CoreId} {si : Nat} {t : Tag} (hsi : si < s.cfg.numSets)
    (hlookup : ∀ c' ≠ c, u.lookup c' si t = s.lookup c' si t)
    (hf : ∀ c' ≠ c, ∀ w, s.lookup c' si t = some w → F.Allows s c' si w fun l => { l with mesi := .invalid }) :
    F.Covers s (snoopUpgr c si t u) := by
  refine seq_holders (fun c' v => ?_) (holders_nodup u c si t) hsi
    (fun c' hc' => hlookup c' (mem_holders.mp hc').1) (fun c' hc' => hf c' (mem_holders.mp hc').1) h
  unfold snoopUpgrAt
  split
  · exact .inl rfl
  · exact .inr ⟨_, rfl⟩

end Footprint.Covers

/-- What an access answers, by the lookup and the bus: a completion where it hits, an issue where it misses on an
available bus, or a stall (rule R125). -/
theorem access_cases (s : State) (c : CoreId) (a : Addr) (w : Bool) :
    (∃ k, s.lookup c (setOf s.cfg a) (tagOf s.cfg a) = some k ∧
      ((w = false ∧ access c a w s = readHit c (setOf s.cfg a) k s) ∨
        (w = true ∧ (access c a w s = writeHit c (setOf s.cfg a) k s ∨ access c a w s = busUpgr c a k s)))) ∨
    (s.lookup c (setOf s.cfg a) (tagOf s.cfg a) = none ∧ s.bus.available = true ∧ access c a w s = issue c a w s) ∨
    access c a w s = stall c s := by
  cases hlookup : s.lookup c (setOf s.cfg a) (tagOf s.cfg a) with
  | none => cases hav : s.bus.available <;> simp [access, State.classify, hlookup, hav]
  | some k =>
    cases w with
    | false => simp [access, State.classify, hlookup]
    | true =>
      cases hm : s.mesiOf c (setOf s.cfg a) (tagOf s.cfg a) <;> cases hav : s.bus.available <;>
        simp [access, State.classify, hlookup, hm, hav]

/-- Core `c`'s access to `a` is to be issued: it misses, and the bus is available (rule R130). -/
def State.Issues (s : State) (c : CoreId) (a : Addr) : Prop :=
  s.lookup c (setOf s.cfg a) (tagOf s.cfg a) = none ∧ s.bus.available = true

/-- The bus fields that no access writes: the ticks left of a phase, and the saved fields (rules R36, R40). -/
def Bus.SamePhase (b b' : Bus) : Prop :=
  b'.cyclesRemaining = b.cyclesRemaining ∧ b'.prevCore = b.prevCore ∧ b'.prevReqType = b.prevReqType ∧
    b'.prevMesi = b.prevMesi

theorem Bus.SamePhase.issueBus {b b' : Bus} (h : b.SamePhase b') (c : CoreId) (a : Addr) (w : Bool) :
    b.SamePhase (issueBus c a w b') := h

/-! ### PrRd -/

/-- The counters of its core that a read may count up (rules R126, R131, R132). -/
def readCounters : List StatName :=
  [.totalInstructions, .totalReads, .totalCycles, .idleCycles, .cacheMisses, .dataTrafficBytes]

/-- What a read of `a` by core `c` may write: counters of that core and, where it is issued, of the bus; the stamp of
the line it hits; where it is issued, the bus record (rules R126, R131, R132). -/
def readFootprint (s : State) (c : CoreId) (a : Addr) : Footprint where
  counter x :=
    (∃ n ∈ readCounters, x = .stat c n) ∨ x = .lruCtr c ∨
      (s.Issues c a ∧ (x = .busTransactions ∨ x = .busTrafficBytes))
  line c' si w l l' :=
    c' = c ∧ si = setOf s.cfg a ∧ s.lookup c si (tagOf s.cfg a) = some w ∧ ∃ x, l' = { l with lru := x }
  bus b := (¬ s.Issues c a → b = s.bus) ∧ s.bus.SamePhase b
  pc c' := c' = c

theorem access_read_covered {s : State} (hs : ArraysShaped s) (c : CoreId) (a : Addr) :
    (readFootprint s c a).Covers s (access c a false s) := by
  have hrefl : (readFootprint s c a).Covers s s := .refl hs ⟨fun _ => rfl, rfl, rfl, rfl, rfl⟩
  have hstat : ∀ n ∈ readCounters, (readFootprint s c a).counter (.stat c n) := fun n hn => .inl ⟨n, hn, rfl⟩
  obtain ⟨k, hk, ⟨-, h⟩ | ⟨hw, -⟩⟩ | ⟨hmiss, hav, h⟩ | h := access_cases s c a false
  · rw [h]
    refine hrefl.completeAccess (setOf_lt _ _) (.inr (.inl rfl)) (fun x l l' _ hl' => ⟨rfl, rfl, hk, x, ?_⟩) ?_ rfl
    · obtain rfl | ⟨-, -, -, y, rfl⟩ := hl' <;> rfl
    · exact fun n hn => hstat n (by revert n; decide)
  · cases hw
  · rw [h]
    refine hrefl.issue (fun b hb => ⟨fun hno => absurd ⟨hmiss, hav⟩ hno, hb.2.issueBus c a false⟩) ?_
      (.inr (.inr ⟨⟨hmiss, hav⟩, .inl rfl⟩)) (.inr (.inr ⟨⟨hmiss, hav⟩, .inr rfl⟩)) (fun hw => by cases hw)
    exact fun n hn => hstat n (by revert n; decide)
  · rw [h]
    exact hrefl.stall (hstat _ (by decide)) (hstat _ (by decide))

theorem prRd_covered {s t : State} {a : Addr} (hs : ArraysShaped s) (h : exec (.prRd a) s = .next t) :
    (readFootprint s s.turn a).Covers s t := by
  by_cases hf : s.faultCode = .fNone
  · rw [exec_prRd hf] at h
    cases h
    exact access_read_covered hs s.turn a
  · rw [exec_of_faulted hf] at h
    cases h
    exact .refl hs ⟨fun _ => rfl, rfl, rfl, rfl, rfl⟩

theorem not_issues_of_hit_or_busy {s : State} {c : CoreId} {a : Addr}
    (h : s.lookup c (setOf s.cfg a) (tagOf s.cfg a) ≠ none ∨ s.bus.available = false) : ¬ s.Issues c a := by
  rintro ⟨hmiss, hav⟩
  obtain h | h := h
  · exact h hmiss
  · simp [hav] at h

/-- Settles O21: a read stays within its footprint, and the frame is what lies outside it. -/
theorem prRdFrame : Obligations.PrRdFrame := by
  unfold Obligations.PrRdFrame
  rintro s t a c hs rfl ht
  have h := prRd_covered hs ht
  obtain ⟨⟨hcfg, htr⟩, hdone, hactive⟩ := h.program
  have hother : ∀ c' ≠ s.turn, ∀ n, ¬ (readFootprint s s.turn a).counter (.stat c' n) := fun c' hc' n => by
    simp [readFootprint, hc']
  refine ⟨⟨hcfg, htr, hdone, hactive, h.counter .globalCycle (by simp [readFootprint]), h.turn⟩,
    fun c' hc' => ⟨h.cache hs (by simp [readFootprint, hc']) fun _ _ _ _ hF => hc' hF.1, h.stats (hother c' hc'),
      h.pc c' hc'⟩,
    fun n hn => h.counter (.stat s.turn n) ?_, fun si w hno => h.lineAt fun _ _ hF => hno ⟨hF.2.1, hF.2.2.1⟩,
    fun w l _ hl => ?_, fun hhit => ?_, h.bus.2⟩
  · simpa [readFootprint, readCounters] using hn
  · obtain ⟨l', hl', rfl | ⟨-, -, -, x, rfl⟩⟩ := h.line_of_some hl
    · exact ⟨l'.lru, hl'⟩
    · exact ⟨x, hl'⟩
  · have hno := not_issues_of_hit_or_busy hhit
    exact ⟨h.bus.1 hno, h.counter .busTransactions (by simp [readFootprint, hno]),
      h.counter .busTrafficBytes (by simp [readFootprint, hno])⟩

/-! ### PrWr -/

/-- The counters of its core that a write may count up (rules R127, R129, R131, R132, R133). -/
def writeCounters : List StatName :=
  [.totalInstructions, .totalWrites, .totalCycles, .idleCycles, .cacheMisses, .busInvalidations, .dataTrafficBytes]

/-- What a write to `a` by core `c` may write: counters of that core and of the bus; the state of the copies of its
block, and the stamp of its own; of the bus record the three fields of an upgrade, or where it is issued those of an
issue (rules R127, R129, R131, R132, R133). -/
def writeFootprint (s : State) (c : CoreId) (a : Addr) : Footprint where
  counter x :=
    (∃ n ∈ writeCounters, x = .stat c n) ∨ x = .lruCtr c ∨ x = .busTransactions ∨ (s.Issues c a ∧ x = .busTrafficBytes)
  line c' si w l l' :=
    si = setOf s.cfg a ∧ s.lookup c' si (tagOf s.cfg a) = some w ∧
      ∃ m x, l' = { l with mesi := m, lru := x } ∧ (c' ≠ c → x = l.lru)
  bus b :=
    (¬ s.Issues c a → b = { s.bus with srcCore := b.srcCore, addr := b.addr, reqType := b.reqType }) ∧ s.bus.SamePhase b
  pc c' := c' = c

section

variable {s : State} {c : CoreId} {a : Addr}

theorem writeFootprint_allows_mesi {c' : CoreId} {w : Nat}
    (hw : s.lookup c' (setOf s.cfg a) (tagOf s.cfg a) = some w) (m : Mesi) :
    (writeFootprint s c a).Allows s c' (setOf s.cfg a) w fun l => { l with mesi := m } := by
  rintro l l' - (rfl | ⟨-, -, m', x, rfl, hx⟩)
  · exact ⟨rfl, hw, m, l'.lru, rfl, fun _ => rfl⟩
  · exact ⟨rfl, hw, m, x, rfl, hx⟩

theorem writeFootprint_allows_lru {k : Nat} (hk : s.lookup c (setOf s.cfg a) (tagOf s.cfg a) = some k) (x : Count) :
    (writeFootprint s c a).Allows s c (setOf s.cfg a) k fun l => { l with lru := x } := by
  rintro l l' - (rfl | ⟨-, -, m, y, rfl, -⟩)
  · exact ⟨rfl, hk, l'.mesi, x, rfl, fun h => absurd rfl h⟩
  · exact ⟨rfl, hk, m, x, rfl, fun h => absurd rfl h⟩

theorem writeFootprint_counter {n : StatName} (hn : n ∈ writeCounters) :
    (writeFootprint s c a).counter (.stat c n) := .inl ⟨n, hn, rfl⟩

theorem writeFootprint_refl (hs : ArraysShaped s) : (writeFootprint s c a).Covers s s :=
  .refl hs ⟨fun _ => rfl, rfl, rfl, rfl, rfl⟩

/-- The last line of a write that completes. -/
theorem completeWrite_covered {u : State} {k : Nat} (h : (writeFootprint s c a).Covers s u)
    (hk : s.lookup c (setOf s.cfg a) (tagOf s.cfg a) = some k) :
    (writeFootprint s c a).Covers s (completeAccess c (setOf s.cfg a) k .totalWrites u) := by
  refine h.completeAccess (setOf_lt _ _) (.inr (.inl rfl)) (writeFootprint_allows_lru hk) ?_ rfl
  exact fun n hn => writeFootprint_counter (by revert n; decide)

theorem writeHit_covered (hs : ArraysShaped s) {k : Nat}
    (hk : s.lookup c (setOf s.cfg a) (tagOf s.cfg a) = some k) :
    (writeFootprint s c a).Covers s (writeHit c (setOf s.cfg a) k s) := by
  refine .seq ?_ (writeFootprint_refl hs)
  simp only [List.forall_mem_cons]
  exact ⟨fun u hu => hu.setMesi (setOf_lt _ _) (writeFootprint_allows_mesi hk _),
    fun u hu => completeWrite_covered hu hk, by simp⟩

/-- The upgrade asks for the other copies before it has written any line, so it finds them where they stood. -/
theorem busUpgr_covered (hs : ArraysShaped s) {k : Nat}
    (hk : s.lookup c (setOf s.cfg a) (tagOf s.cfg a) = some k) :
    (writeFootprint s c a).Covers s (busUpgr c a k s) := by
  have hbus : (writeFootprint s c a).Covers s
      { s with bus := { s.bus with srcCore := some c, addr := a, reqType := .busUpgr } } :=
    (writeFootprint_refl hs).setBus ⟨fun _ => rfl, rfl, rfl, rfl, rfl⟩
  have hsnoop := hbus.snoopUpgr (c := c) (setOf_lt s.cfg a) (fun _ _ => rfl)
    fun c' _ w hw => writeFootprint_allows_mesi hw .invalid
  unfold busUpgr
  refine .seq_cons (writeFootprint_refl hs) ?_
  refine .seq_cons hbus ?_
  refine .seq ?_ hsnoop
  simp only [List.forall_mem_cons]
  exact ⟨fun u hu => hu.inc (writeFootprint_counter (by decide)) 1, fun u hu => hu.inc (.inr (.inr (.inl rfl))) 1,
    fun u hu => hu.setMesi (setOf_lt _ _) (writeFootprint_allows_mesi hk _),
    fun u hu => completeWrite_covered hu hk, by simp⟩

theorem access_write_covered (hs : ArraysShaped s) (c : CoreId) (a : Addr) :
    (writeFootprint s c a).Covers s (access c a true s) := by
  obtain ⟨k, hk, ⟨hw, -⟩ | ⟨-, h | h⟩⟩ | ⟨hmiss, hav, h⟩ | h := access_cases s c a true
  · cases hw
  · rw [h]
    exact writeHit_covered hs hk
  · rw [h]
    exact busUpgr_covered hs hk
  · rw [h]
    refine (writeFootprint_refl hs).issue
      (fun b hb => ⟨fun hno => absurd ⟨hmiss, hav⟩ hno, hb.2.issueBus c a true⟩) ?_
      (.inr (.inr (.inl rfl))) (.inr (.inr (.inr ⟨⟨hmiss, hav⟩, rfl⟩)))
      (fun _ => writeFootprint_counter (by decide))
    exact fun n hn => writeFootprint_counter (by revert n; decide)
  · rw [h]
    exact (writeFootprint_refl hs).stall (writeFootprint_counter (by decide)) (writeFootprint_counter (by decide))

theorem prWr_covered {t : State} (hs : ArraysShaped s) (h : exec (.prWr a) s = .next t) :
    (writeFootprint s s.turn a).Covers s t := by
  by_cases hf : s.faultCode = .fNone
  · rw [exec_prWr hf] at h
    cases h
    exact access_write_covered hs s.turn a
  · rw [exec_of_faulted hf] at h
    cases h
    exact writeFootprint_refl hs

end

/-- Settles O22: a write stays within its footprint, and the frame is what lies outside it. -/
theorem prWrFrame : Obligations.PrWrFrame := by
  unfold Obligations.PrWrFrame
  rintro s t a c hs rfl ht
  have h := prWr_covered hs ht
  obtain ⟨⟨hcfg, htr⟩, hdone, hactive⟩ := h.program
  have hother : ∀ c' ≠ s.turn, ∀ n, ¬ (writeFootprint s s.turn a).counter (.stat c' n) := fun c' hc' n => by
    simp [writeFootprint, hc']
  refine ⟨⟨hcfg, htr, hdone, hactive, h.counter .globalCycle (by simp [writeFootprint]), h.turn⟩,
    fun c' hc' => ⟨h.counter (.lruCtr c') (by simp [writeFootprint, hc']), h.stats (hother c' hc'), h.pc c' hc'⟩,
    fun n hn => h.counter (.stat s.turn n) ?_, fun c' si w hno => h.lineAt fun _ _ hF => hno ⟨hF.1, hF.1 ▸ hF.2.1⟩,
    fun c' w l _ hl => ?_, fun hhit => ?_, h.bus.2⟩
  · simpa [writeFootprint, writeCounters] using hn
  · obtain ⟨l', hl', rfl | ⟨-, -, m, x, rfl, hx⟩⟩ := h.line_of_some hl
    · exact ⟨l'.mesi, l'.lru, hl', fun _ => rfl⟩
    · exact ⟨m, x, hl', hx⟩
  · have hno := not_issues_of_hit_or_busy hhit
    exact ⟨h.bus.1 hno, h.counter .busTrafficBytes (by simp [writeFootprint, hno])⟩

end Sys2Proof.Machine
end

section
/-! PROOFS. The footprint of a demand on the bus, and what BusRd and BusRdX leave alone (O37). A demand's first
observation looks for the block's copies after it has prepared the victim; the preparation moves no copy in another
cache, so the lookups there answer as before. -/

namespace Sys2Proof.Machine

/-! ### Lookups -/

/-- The lookup depends on which ways hold the tag alone. -/
theorem lookup_of_holds {s u : State} {c : CoreId} {si : Nat} {t : Tag}
    (h : ∀ w, (u.lineAt c si w).map (fun l => l.holds t) = (s.lineAt c si w).map fun l => l.holds t) :
    u.lookup c si t = s.lookup c si t := by
  have hmap : (u.setLines c si).map (fun l => l.holds t) = (s.setLines c si).map fun l => l.holds t :=
    List.ext_getElem? fun w => by simpa [State.lineAt] using h w
  have hfind : ∀ L : List Line, lookupIn L t = (L.map fun l => l.holds t).findIdx? id := fun L => by
    rw [List.findIdx?_map]
    rfl
  rw [State.lookup, hfind, hmap, ← hfind, ← State.lookup]

/-- A footprint whose rewrites keep tag and validity in a set keeps every lookup there. -/
theorem Footprint.Covers.lookup {F : Footprint} {s u : State} (h : F.Covers s u) {c : CoreId} {si : Nat}
    (hline : ∀ w l l', F.line c si w l l' → l'.tag = l.tag ∧ l'.valid = l.valid) (t : Tag) :
    u.lookup c si t = s.lookup c si t := by
  refine lookup_of_holds fun w => ?_
  obtain heq | ⟨l, l', hl, hl', hF⟩ := h.line c si w
  · rw [heq]
  · obtain ⟨htag, hvalid⟩ := hline w l l' hF
    simp [hl, hl', Line.holds, htag, hvalid]

/-! ### Footprints of a demand -/

/-- What a demand of core `c` may write, apart from lines: the counters of the writebacks it causes, those of the
requester's eviction, fill and adjustment, and of the bus record all but the address. -/
def demandFootprint (s : State) (c : CoreId) (line : CoreId → Nat → Nat → Line → Line → Prop) : Footprint where
  counter x :=
    (∃ c' n, n ∈ [.writebacks, .dataTrafficBytes] ∧ x = .stat c' n) ∨
      (∃ n ∈ [.totalCycles, .idleCycles, .cacheEvictions], x = .stat c n) ∨
      x = .lruCtr c ∨ x = .busTransactions ∨ x = .busTrafficBytes
  line := line
  bus b := b.addr = s.bus.addr
  pc _ := False

/-- The lines that victim preparation may rewrite: the victim, and in the other caches the state of the copy of the
victim's block, which stays valid (rules R148, R150). -/
def preparedLine (s : State) (c : CoreId) (si : Nat) (c' : CoreId) (si' w : Nat) (l l' : Line) : Prop :=
  si' = si ∧ (c' = c → w = s.victim c si) ∧
    (c' ≠ c → s.lookup c' si (s.victimLine c si).tag = some w ∧
      ∃ m, l' = { l with mesi := m } ∧ l'.valid = l.valid)

/-- The lines that a demand for the block `(si, t)` may rewrite: the victim slot, and in the other caches the states of
the copies of that block and of the victim's (rule R114). -/
def demandLine (s : State) (c : CoreId) (si : Nat) (t : Tag) (c' : CoreId) (si' w : Nat) (l l' : Line) : Prop :=
  si' = si ∧ (c' = c → w = s.victim c si) ∧
    (c' ≠ c → (s.lookup c' si t = some w ∨ s.lookup c' si (s.victimLine c si).tag = some w) ∧
      ∃ m, l' = { l with mesi := m })

section

variable {s u : State} {c : CoreId} {si : Nat} {t : Tag} {line : CoreId → Nat → Nat → Line → Line → Prop}

theorem demandFootprint_refl (hs : ArraysShaped s) : (demandFootprint s c line).Covers s s := .refl hs rfl

theorem demandFootprint_counter_any (c' : CoreId) {n : StatName} (hn : n ∈ [.writebacks, .dataTrafficBytes]) :
    (demandFootprint s c line).counter (.stat c' n) := .inl ⟨c', n, hn, rfl⟩

theorem demandFootprint_counter_own {n : StatName} (hn : n ∈ [.totalCycles, .idleCycles, .cacheEvictions]) :
    (demandFootprint s c line).counter (.stat c n) := .inr (.inl ⟨n, hn, rfl⟩)

theorem demandFootprint_counter_lru : (demandFootprint s c line).counter (.lruCtr c) := .inr (.inr (.inl rfl))

/-- The lines of a writeback, after the one that puts it on the bus (rules R149, R156, R158). -/
theorem writeback_covered (h : (demandFootprint s c line).Covers s u) (o : CoreId) (B : Nat) :
    (demandFootprint s c line).Covers s
      (seq [inc (.stat o .writebacks) 1, inc (.stat o .dataTrafficBytes) B, inc .busTransactions 1,
        inc .busTrafficBytes B] u) := by
  refine .seq ?_ h
  simp only [List.forall_mem_cons]
  exact ⟨fun v hv => hv.inc (demandFootprint_counter_any o (by decide)) 1,
    fun v hv => hv.inc (demandFootprint_counter_any o (by decide)) B,
    fun v hv => hv.inc (.inr (.inr (.inr (.inl rfl)))) 1, fun v hv => hv.inc (.inr (.inr (.inr (.inr rfl)))) B, by simp⟩

theorem chainEvictFlush_covered (h : (demandFootprint s c line).Covers s u) (req : ReqType) :
    (demandFootprint s c line).Covers s (chainEvictFlush c req u) :=
  h.seq_cons (writeback_covered (h.setBus (b := evictFlushBus req u.bus) h.bus) c u.cfg.blockSize)

theorem chainIntervFlush_covered (h : (demandFootprint s c line).Covers s u) (o : CoreId) (req : ReqType) :
    (demandFootprint s c line).Covers s (chainIntervFlush c o req u) :=
  h.seq_cons (writeback_covered (h.setBus (b := intervFlushBus c o req u.bus) h.bus) o u.cfg.blockSize)

/-! ### Victim preparation -/

theorem evictVictim_setLines_ne {c' : CoreId} (h : c' ≠ c) (w si' : Nat) :
    (evictVictim c si w s).setLines c' si' = s.setLines c' si' := by
  refine seq_keeps (fun v => v.setLines c' si') ?_ s
  simp only [List.forall_mem_cons, setLines_inc]
  exact ⟨fun v => setLines_congr (by simp) (by simp [h]) si', by simp⟩

theorem preparedLine_allows_victim (f : Line → Line) :
    (demandFootprint s c (preparedLine s c si)).Allows s c si (s.victim c si) f :=
  fun _ _ _ _ => ⟨rfl, fun _ => rfl, fun h => absurd rfl h⟩

theorem preparedLine_allows_promote {r : CoreId} (hr : r ≠ c) {w : Nat}
    (hw : s.lookup r si (s.victimLine c si).tag = some w) :
    (demandFootprint s c (preparedLine s c si)).Allows s r si w fun l => { l with mesi := .exclusive } := by
  intro l l' hl hl'
  obtain ⟨l0, hl0, hvalid, -, -⟩ := lineAt_of_lookup hw
  obtain rfl := Option.some.inj (hl0.symm.trans hl)
  refine ⟨rfl, fun h => absurd h hr, fun _ => ⟨hw, .exclusive, ?_, by simp [Line.valid, hvalid]⟩⟩
  obtain rfl | ⟨-, -, hother⟩ := hl'
  · rfl
  · obtain ⟨-, m, rfl, -⟩ := hother hr
    rfl

/-- VICTIM_PREP (rule R147). The cores that share the victim's block are not the requester, whose line alone is
evicted, so they hold it where they did. -/
theorem victimPrep_covered (hs : ArraysShaped s) (hsi : si < s.cfg.numSets) (req : ReqType) :
    (demandFootprint s c (preparedLine s c si)).Covers s (victimPrep c si req s) := by
  have hrefl : (demandFootprint s c (preparedLine s c si)).Covers s s := demandFootprint_refl hs
  have hevict : (demandFootprint s c (preparedLine s c si)).Covers s (evictVictim c si (s.victim c si) s) := by
    refine .seq ?_ hrefl
    simp only [List.forall_mem_cons]
    exact ⟨fun v hv => hv.setMesi hsi (preparedLine_allows_victim _),
      fun v hv => hv.inc (demandFootprint_counter_own (by decide)) 1, by simp⟩
  have hpromote : (demandFootprint s c (preparedLine s c si)).Covers s
      (promoteLastSharer (s.sharers c si (s.victimLine c si).tag) si (s.victimLine c si).tag
        (evictVictim c si (s.victim c si) s)) := by
    unfold promoteLastSharer
    split
    case h_1 r hsh =>
      have hr : r ≠ c := (mem_sharers.mp (hsh ▸ List.mem_singleton.mpr rfl)).1
      exact hevict.setHolderMesi hsi (lookup_congr (evictVictim_setLines_ne hr _ _) _)
        fun w hw => preparedLine_allows_promote hr hw
    case h_2 => exact hevict
  unfold victimPrep
  simp only
  split
  case isFalse => exact hrefl
  case isTrue =>
    refine hrefl.seq_cons (hevict.seq_cons (hpromote.seq_cons ?_))
    rw [seq_nil]
    split
    · exact chainEvictFlush_covered hpromote req
    · exact hpromote

theorem demandFootprint_of_prepared (h : (demandFootprint s c (preparedLine s c si)).Covers s u) (t : Tag) :
    (demandFootprint s c (demandLine s c si t)).Covers s u := by
  refine h.mono (fun _ hx => hx) (fun c' si' w l l' hl => ?_) (fun _ hb => hb) fun _ hc => hc
  obtain ⟨hsi, hown, hother⟩ := hl
  refine ⟨hsi, hown, fun hne => ?_⟩
  obtain ⟨hw, m, hm, -⟩ := hother hne
  exact ⟨.inr hw, m, hm⟩

theorem victimPrep_lookup_ne (hs : ArraysShaped s) (hsi : si < s.cfg.numSets) (req : ReqType) {c' : CoreId}
    (h : c' ≠ c) (t : Tag) : (victimPrep c si req s).lookup c' si t = s.lookup c' si t := by
  refine (victimPrep_covered hs hsi req).lookup (fun w l l' hl => ?_) t
  obtain ⟨-, m, rfl, hvalid⟩ := hl.2.2 h
  exact ⟨rfl, hvalid⟩

/-! ### The first observation -/

theorem demandLine_allows_copy {c' : CoreId} (hc' : c' ≠ c) {w : Nat} (hw : s.lookup c' si t = some w) (m : Mesi) :
    (demandFootprint s c (demandLine s c si t)).Allows s c' si w fun l => { l with mesi := m } := by
  intro l l' _ hl'
  refine ⟨rfl, fun h => absurd h hc', fun _ => ⟨.inl hw, m, ?_⟩⟩
  obtain rfl | ⟨-, -, hother⟩ := hl'
  · rfl
  · obtain ⟨-, m', rfl⟩ := hother hc'
    rfl

theorem busRdStart_covered (h : (demandFootprint s c (demandLine s c si t)).Covers s u) (hsi : si < s.cfg.numSets)
    (hlookup : ∀ c' ≠ c, u.lookup c' si t = s.lookup c' si t) :
    (demandFootprint s c (demandLine s c si t)).Covers s (busRdStart c si t u) := by
  unfold busRdStart
  split
  case h_1 => exact h.setBus h.bus
  case h_2 r rest hh =>
    have hr : r ≠ c := (mem_holders.mp (hh ▸ List.mem_cons_self ..)).1
    have hbus := h.setBus (b := { u.bus with respCore := some r, prevMesi := u.mesiOf r si t }) h.bus
    refine h.seq_cons (hbus.seq_cons (.seq ?_ (hbus.setHolderMesi hsi (hlookup r hr)
      fun w hw => demandLine_allows_copy hr hw .shared)))
    simp only [List.forall_mem_cons]
    exact ⟨fun v hv => hv.setBus hv.bus, by simp⟩

theorem adjustRequester_covered (h : (demandFootprint s c line).Covers s u) :
    (demandFootprint s c line).Covers s (adjustRequester c u) := by
  unfold adjustRequester
  split
  · exact h.raise _
  · refine .seq ?_ h
    simp only [List.forall_mem_cons]
    exact ⟨fun v hv => hv.setCounter (demandFootprint_counter_own (by decide)) _,
      fun v hv => hv.inc (demandFootprint_counter_own (by decide)) 1, by simp⟩

theorem busRdXStart_covered (h : (demandFootprint s c (demandLine s c si t)).Covers s u) (hsi : si < s.cfg.numSets)
    (hlookup : ∀ c' ≠ c, u.lookup c' si t = s.lookup c' si t) :
    (demandFootprint s c (demandLine s c si t)).Covers s (busRdXStart c si t u) := by
  have hinv : (demandFootprint s c (demandLine s c si t)).Covers s (invalidateHolders c si t u) :=
    .seq_holders (fun _ _ => .inl rfl) (holders_nodup u c si t) hsi
      (fun c' hc' => hlookup c' (mem_holders.mp hc').1)
      (fun c' hc' w hw => demandLine_allows_copy (mem_holders.mp hc').1 hw .invalid) h
  unfold busRdXStart
  split
  case h_1 =>
    refine h.seq_cons (.seq ?_ hinv)
    simp only [List.forall_mem_cons]
    exact ⟨fun v hv => hv.setBus hv.bus, by simp⟩
  case h_2 o _ =>
    refine h.seq_cons (.seq ?_ hinv)
    simp only [List.forall_mem_cons]
    exact ⟨fun v hv => chainIntervFlush_covered hv o .busRdX, fun v hv => adjustRequester_covered hv, by simp⟩

/-! ### The fill -/

theorem demandLine_allows_slot (f : Line → Line) :
    (demandFootprint s c (demandLine s c si t)).Allows s c si (s.victim c si) f :=
  fun _ _ _ _ => ⟨rfl, fun _ => rfl, fun h => absurd rfl h⟩

theorem install_covered (hs : ArraysShaped s) (hsi : si < s.cfg.numSets) (m : Mesi) :
    (demandFootprint s c (demandLine s c si t)).Covers s (install c si t m s) := by
  refine .seq ?_ (demandFootprint_refl hs)
  simp only [List.forall_mem_cons]
  exact ⟨fun v hv => hv.modifyLine hsi (demandLine_allows_slot _), fun v hv => hv.setMesi hsi (demandLine_allows_slot _),
    fun v hv => hv.touch hsi demandFootprint_counter_lru fun _ => demandLine_allows_slot _, by simp⟩

/-- The fill that ends a transaction (rules R154, R162). -/
theorem fill_covered (hs : ArraysShaped s) (hsi : si < s.cfg.numSets) (m : Mesi) :
    (demandFootprint s c (demandLine s c si t)).Covers s (seq [install c si t m, releaseBus] s) := by
  refine (demandFootprint_refl hs).seq_cons (.seq ?_ (install_covered hs hsi m))
  simp only [List.forall_mem_cons]
  exact ⟨fun v hv => hv.setBus hv.bus, by simp⟩

theorem busRdDoneC2C_covered (hs : ArraysShaped s) (hsi : si < s.cfg.numSets) (r : CoreId) :
    (demandFootprint s c (demandLine s c si t)).Covers s (busRdDoneC2C c r si t s) := by
  refine (demandFootprint_refl hs).seq_cons (.seq ?_ (install_covered hs hsi .shared))
  simp only [List.forall_mem_cons]
  refine ⟨fun v hv => hv.inc (demandFootprint_counter_any r (by decide)) _, fun v hv => ?_, by simp⟩
  split
  · exact chainIntervFlush_covered hv r .busRd
  · exact hv.setBus hv.bus

end

/-! ### BusRd and BusRdX -/

section

variable {s : State} {c : CoreId} {a : Addr}

/-- What core `c`'s demand for `a` may write. -/
def addressFootprint (s : State) (c : CoreId) (a : Addr) : Footprint :=
  demandFootprint s c (demandLine s c (setOf s.cfg a) (tagOf s.cfg a))

theorem observeBusRd_covered (hs : ArraysShaped s) : (addressFootprint s c a).Covers s (observeBusRd c a s) := by
  have hrefl : (addressFootprint s c a).Covers s s := demandFootprint_refl hs
  have hsi := setOf_lt s.cfg a
  have hprep : (addressFootprint s c a).Covers s (victimPrep c (setOf s.cfg a) .busRd s) :=
    demandFootprint_of_prepared (victimPrep_covered hs hsi .busRd) _
  unfold observeBusRd
  simp only
  split
  · exact hrefl
  · split
    · split
      · exact hprep
      · exact hrefl.seq_cons (hprep.seq_cons
          (busRdStart_covered hprep hsi fun c' hc' => victimPrep_lookup_ne hs hsi .busRd hc' _))
    · split
      · split
        · exact fill_covered hs hsi .exclusive
        · exact busRdDoneC2C_covered hs hsi _
      · exact hrefl

theorem observeBusRdX_covered (hs : ArraysShaped s) : (addressFootprint s c a).Covers s (observeBusRdX c a s) := by
  have hrefl : (addressFootprint s c a).Covers s s := demandFootprint_refl hs
  have hsi := setOf_lt s.cfg a
  have hprep : (addressFootprint s c a).Covers s (victimPrep c (setOf s.cfg a) .busRdX s) :=
    demandFootprint_of_prepared (victimPrep_covered hs hsi .busRdX) _
  unfold observeBusRdX
  simp only
  split
  · exact hrefl
  · split
    · split
      · exact hprep
      · exact hrefl.seq_cons (hprep.seq_cons
          (busRdXStart_covered hprep hsi fun c' hc' => victimPrep_lookup_ne hs hsi .busRdX hc' _))
    · split
      · exact fill_covered hs hsi .modified
      · exact hrefl

theorem demand_covered {i : Instr} {t : State} (hs : ArraysShaped s) (hi : i = .busRd c a ∨ i = .busRdX c a)
    (h : exec i s = .next t) : (addressFootprint s c a).Covers s t := by
  by_cases hf : s.faultCode = .fNone
  · obtain rfl | rfl := hi
    · rw [exec_busRd hf] at h
      cases h
      exact observeBusRd_covered hs
    · rw [exec_busRdX hf] at h
      cases h
      exact observeBusRdX_covered hs
  · rw [exec_of_faulted hf] at h
    cases h
    exact demandFootprint_refl hs

end

/-- Settles O37: both demands stay within one footprint, and the frame is what lies outside it. -/
theorem busRdAndBusRdXFrame : Obligations.BusRdAndBusRdXFrame := by
  unfold Obligations.BusRdAndBusRdXFrame
  rintro s t c a i si hs rfl hi ht
  have h := demand_covered hs hi ht
  obtain ⟨⟨hcfg, htr⟩, hdone, hactive⟩ := h.program
  have hpc : t.pc = s.pc := Quad.ext_get fun c' => h.pc c' not_false
  refine ⟨⟨hcfg, htr, hpc, hdone, hactive, h.counter .globalCycle (by simp [addressFootprint, demandFootprint]),
      h.turn, h.bus⟩,
    fun c' n hn => h.counter (.stat c' n) ?_, fun si' w hno => h.lineAt fun _ _ hF => hno ⟨hF.1, hF.2.1 rfl⟩,
    fun c' hc' => h.counter (.lruCtr c') (by simp [addressFootprint, demandFootprint, hc']),
    fun c' si' w hc' hno => h.lineAt fun _ _ hF => hno ⟨hF.1, (hF.2.2 hc').1⟩, fun c' si' w l hc' hl => ?_⟩
  · obtain hn | ⟨hc', hn⟩ := hn
    · revert hn
      cases n <;> simp [addressFootprint, demandFootprint]
    · revert hn
      cases n <;> simp [addressFootprint, demandFootprint, hc']
  · obtain ⟨l', hl', rfl | hF⟩ := h.line_of_some hl
    · exact ⟨l'.mesi, hl'⟩
    · obtain ⟨-, m, rfl⟩ := hF.2.2 hc'
      exact ⟨m, hl'⟩

end Sys2Proof.Machine
end

section
/-! PROOFS. The processor's access rules in full: a read hit (O14), a write hit on an owned line (O15), the upgrade of a
SHARED line (O16, O23), a stall (O17) and the two issues (O18, O19). -/

namespace Sys2Proof.Machine

/-! ### The rule that an access runs -/

section

variable {s : State} {c : CoreId} {a : Addr} {k : Nat}

theorem access_read_of_hit (hk : s.lookup c (setOf s.cfg a) (tagOf s.cfg a) = some k) :
    access c a false s = readHit c (setOf s.cfg a) k s := by
  simp [access, State.classify, hk]

theorem access_write_of_owned (hk : s.lookup c (setOf s.cfg a) (tagOf s.cfg a) = some k)
    (hown : s.mesiOf c (setOf s.cfg a) (tagOf s.cfg a) = .modified ∨
      s.mesiOf c (setOf s.cfg a) (tagOf s.cfg a) = .exclusive) :
    access c a true s = writeHit c (setOf s.cfg a) k s := by
  obtain hm | hm := hown <;> simp [access, State.classify, hk, hm]

theorem access_write_of_shared (hav : s.bus.available = true)
    (hk : s.lookup c (setOf s.cfg a) (tagOf s.cfg a) = some k)
    (hshared : s.mesiOf c (setOf s.cfg a) (tagOf s.cfg a) = .shared) : access c a true s = busUpgr c a k s := by
  simp [access, State.classify, hk, hshared, hav]

theorem access_of_miss (hav : s.bus.available = true)
    (hmiss : s.lookup c (setOf s.cfg a) (tagOf s.cfg a) = none) (w : Bool) : access c a w s = issue c a w s := by
  simp [access, State.classify, hmiss, hav]

theorem access_of_miss_busy (hbusy : s.bus.available = false)
    (hmiss : s.lookup c (setOf s.cfg a) (tagOf s.cfg a) = none) (w : Bool) : access c a w s = stall c s := by
  simp [access, State.classify, hmiss, hbusy]

theorem access_write_of_shared_busy (hbusy : s.bus.available = false)
    (hshared : s.mesiOf c (setOf s.cfg a) (tagOf s.cfg a) = .shared) : access c a true s = stall c s := by
  obtain ⟨k, hk⟩ := lookup_of_mesiOf (s := s) (c := c) (si := setOf s.cfg a) (t := tagOf s.cfg a) (by simp [hshared])
  simp [access, State.classify, hk, hshared, hbusy]

theorem execBusUpgr_of_shared (hf : s.faultCode = .fNone) (hav : s.bus.available = true)
    (hk : s.lookup c (setOf s.cfg a) (tagOf s.cfg a) = some k)
    (hshared : s.mesiOf c (setOf s.cfg a) (tagOf s.cfg a) = .shared) :
    exec (.busUpgr c a) s = .next (busUpgr c a k s) := by
  simp [exec, execBusUpgr, hf, hav, hk, hshared]

end

/-! ### Hits -/

/-- Settles O14: a read that hits is a completion, in full or up to its first full counter. -/
theorem prRdHitCompletes : Obligations.PrRdHitCompletes := by
  unfold Obligations.PrRdHitCompletes
  rintro s a c si k hf rfl rfl hk
  have hexec : exec (.prRd a) s = .next (completeAccess s.turn (setOf s.cfg a) k .totalReads s) := by
    rw [exec_prRd hf, access_read_of_hit hk, readHit]
  refine ⟨fun hroom => ?_, fun hfull => ⟨_, hexec, completeAccess_of_full (.inl rfl) hf hfull⟩⟩
  rw [hexec, completeAccess_of_room (.inl rfl) hf hroom]
  rfl

/-- Two rewrites of one line of a tag array are one rewrite. -/
theorem lineRewritten_lineRewritten {cfg : Config} {sets : List (Nat × List Line)} (h : Rising sets) (si w : Nat)
    (f g : Line → Line) :
    lineRewritten cfg (lineRewritten cfg sets si w f) si w g = lineRewritten cfg sets si w (fun l => g (f l)) := by
  have hmodify (L : List Line) : (L.modify w f).modify w g = L.modify w (fun l => g (f l)) := by
    apply List.ext_getElem?
    intro i
    simp only [List.getElem?_modify]
    split <;> simp [Function.comp_def]
  simp only [lineRewritten, readSet_writeSet_self _ _ _ h, writeSet_writeSet _ _ _ _ h, hmodify]

/-- The caches of `s` after a completed access to way `k` of set `si` by core `c`: the line is rewritten by `f` and
stamped (rules R112, R126, R127). -/
def hitCaches (s : State) (c : CoreId) (si k : Nat) (f : Line → Line) : Quad Cache :=
  s.cache.set c
    { sets := lineRewritten s.cfg (s.cache.get c).sets si k (fun l => { f l with lru := (s.cache.get c).lruCtr + 1 })
      lruCtr := (s.cache.get c).lruCtr + 1 }

theorem hitCaches_lruCtr (s : State) (c : CoreId) (si k : Nat) (f : Line → Line) (c' : CoreId) :
    ((hitCaches s c si k f).get c').lruCtr =
      if c' = c then (s.cache.get c').lruCtr + 1 else (s.cache.get c').lruCtr := by
  rw [hitCaches, Quad.get_set]
  split
  case isTrue h => rw [h]
  case isFalse => rfl

/-- The lines after a completed access are those after the one line is rewritten. -/
theorem lineAt_hitCaches {s u : State} (hs : ArraysShaped s) {c : CoreId} {si k : Nat} {f : Line → Line}
    (hcfg : u.cfg = s.cfg) (hcache : u.cache = hitCaches s c si k f) (c' : CoreId) (si' w : Nat) :
    u.lineAt c' si' w =
      if c' = c ∧ si' = si ∧ w = k then
        (s.lineAt c' si' w).map fun l => { f l with lru := (s.cache.get c).lruCtr + 1 }
      else s.lineAt c' si' w := by
  have hline := lineAt_modifyLine hs c c' si si' k w fun l => { f l with lru := (s.cache.get c).lruCtr + 1 }
  rw [← hline]
  refine lineAt_congr (hcfg.trans (modifyLine_cfg ..).symm) ?_ si' w
  rw [hcache]
  by_cases hc : c' = c
  · subst hc
    simp [hitCaches, lineRewritten, modifyLine, State.putSet, State.setLines]
  · simp [hitCaches, hc]

/-- A write hit whose counters have room (rule R127). -/
theorem writeHit_of_room {s : State} {c : CoreId} {si k : Nat} (hs : ArraysShaped s) (hf : s.faultCode = .fNone)
    (hroom : HasRooms s (completionCounters c .totalWrites)) :
    writeHit c si k s =
      { s with
        cache := hitCaches s c si k fun l => { l with mesi := .modified }
        stats := s.stats.set c
          { s.stats.get c with
            totalWrites := (s.stats.get c).totalWrites + 1
            totalInstructions := (s.stats.get c).totalInstructions + 1
            totalCycles := (s.stats.get c).totalCycles + 1 }
        pc := s.pc.set c (s.pc.get c + 1) } := by
  have hcache : (setMesi c si k .modified s).cache = s.cache.set c
      { s.cache.get c with
        sets := lineRewritten s.cfg (s.cache.get c).sets si k fun l => { l with mesi := .modified } } := rfl
  have hroom' : HasRooms (setMesi c si k .modified s) (completionCounters c .totalWrites) := by
    simpa [completionCounters, hasRooms_cons, HasRoom, State.counter] using hroom
  have hf' : (setMesi c si k .modified s).faultCode = .fNone := hf
  rw [writeHit, seq_cons hf, seq_singleton hf', completeAccess_of_room (.inr rfl) hf' hroom', hcache]
  simp only [Quad.get_set_self, Quad.set_set, setMesi_cfg, lineRewritten_lineRewritten (hs.rising c)]
  rfl

/-- A write hit that meets a full counter (rules R127, R199). -/
theorem writeHit_of_full {s : State} {c : CoreId} {si k : Nat} (hf : s.faultCode = .fNone)
    (hfull : ¬ HasRooms s (completionCounters c .totalWrites)) :
    (writeHit c si k s).faultCode = .fOverflow ∧ (writeHit c si k s).pc = s.pc := by
  have hf' : (setMesi c si k .modified s).faultCode = .fNone := hf
  rw [writeHit, seq_cons hf, seq_singleton hf']
  refine completeAccess_of_full (.inr rfl) hf' ?_
  simpa [completionCounters, hasRooms_cons, HasRoom, State.counter] using hfull

/-- Settles O15: the state write and the stamp of the completion are one rewrite of the line that is hit. -/
theorem prWrHitOnOwnedLineCompletes : Obligations.PrWrHitOnOwnedLineCompletes := by
  unfold Obligations.PrWrHitOnOwnedLineCompletes
  rintro s a c si k hs hf rfl rfl hk hown
  have hexec : exec (.prWr a) s = .next (writeHit s.turn (setOf s.cfg a) k s) := by
    rw [exec_prWr hf, access_write_of_owned hk hown]
  refine ⟨fun hroom => ?_, fun hfull => ⟨_, hexec, writeHit_of_full hf hfull⟩⟩
  rw [hexec, writeHit_of_room hs hf hroom]
  rfl

/-! ### Stalls -/

theorem inc_of_full_of_running {x : Counter} {k : Nat} {s : State} (hf : s.faultCode = .fNone)
    (hfull : ¬ HasRoom s x k) : inc x k s = { s with faultCode := .fOverflow } := by
  rw [inc_of_full hfull, raise_of_running _ hf]

/-- Settles O17: each of the two requests is a stall, which is one increment. -/
theorem busyBusStallsTheCore : Obligations.BusyBusStallsTheCore := by
  unfold Obligations.BusyBusStallsTheCore
  rintro s a c i hf rfl hbusy hi
  have hexec : exec i s = .next (stall s.turn s) := by
    obtain ⟨rfl, hmiss⟩ | ⟨rfl, hmiss | hshared⟩ := hi
    · rw [exec_prRd hf, access_of_miss_busy hbusy hmiss]
    · rw [exec_prWr hf, access_of_miss_busy hbusy hmiss]
    · rw [exec_prWr hf, access_write_of_shared_busy hbusy hshared]
  rw [hexec]
  refine ⟨fun hsrc => ?_, fun hsrc => ?_⟩
  · rw [stall, if_pos hsrc]
    exact ⟨fun hroom => congrArg _ (inc_of_room hroom), fun hfull => congrArg _ (inc_of_full_of_running hf hfull)⟩
  · rw [stall, if_neg hsrc]
    exact ⟨fun hroom => congrArg _ (inc_of_room hroom), fun hfull => congrArg _ (inc_of_full_of_running hf hfull)⟩

/-! ### Issues -/

/-- Settles O18: a read miss on an available bus is an issue, in full or up to its first full counter. -/
theorem readMissIssuesBusRd : Obligations.ReadMissIssuesBusRd := by
  unfold Obligations.ReadMissIssuesBusRd
  rintro s a c hf rfl hav hmiss
  have hexec : exec (.prRd a) s = .next (issue s.turn a false s) := by
    rw [exec_prRd hf, access_of_miss hav hmiss]
  refine ⟨fun hroom => ?_, fun hfull => ⟨_, hexec, issue_of_full hf hfull⟩⟩
  rw [hexec, issue_of_room hf hroom]
  rfl

/-- Settles O19: a write miss is the issue with one increment more, after those of a read miss. -/
theorem writeMissIssuesBusRdX : Obligations.WriteMissIssuesBusRdX := by
  unfold Obligations.WriteMissIssuesBusRdX
  rintro s a c hf rfl hav hmiss
  have hexec : exec (.prWr a) s = .next (issue s.turn a true s) := by
    rw [exec_prWr hf, access_of_miss hav hmiss]
  refine ⟨fun hroom => ?_, fun hfull => ⟨_, hexec, issue_of_full hf hfull⟩⟩
  rw [hexec, issue_of_room hf hroom]
  rfl

/-! ### Upgrades -/

/-- Settles O16: both run the one upgrade rule, and neither runs in a frozen block. -/
theorem prWrHitOnSharedLineIsTheUpgrade : Obligations.PrWrHitOnSharedLineIsTheUpgrade := by
  unfold Obligations.PrWrHitOnSharedLineIsTheUpgrade
  intro s a hav hshared
  by_cases hf : s.faultCode = .fNone
  · obtain ⟨k, hk⟩ := lookup_of_mesiOf (s := s) (c := s.turn) (si := setOf s.cfg a) (t := tagOf s.cfg a)
      (by simp [hshared])
    rw [exec_prWr hf, access_write_of_shared hav hk hshared, execBusUpgr_of_shared hf hav hk hshared]
  · rw [exec_of_faulted hf, exec_of_faulted hf]

/-- A rule as the one line of a rule. -/
theorem seq_seq (fs : List (State → State)) (s : State) : seq [seq fs] s = seq fs s := by
  by_cases hf : s.faultCode = .fNone
  · exact seq_singleton hf
  · rw [seq_of_faulted hf, seq_of_faulted hf]

/-- The lines of an upgrade before its write hit (rule R129). -/
def upgradeLines (c : CoreId) (a : Addr) (si : Nat) (t : Tag) : List (State → State) :=
  [ fun s => { s with bus := upgradeBus c a s.bus },
    snoopUpgr c si t,
    inc (.stat c .busInvalidations) 1,
    inc .busTransactions 1 ]

/-- An upgrade ends in what a write hit does (rules R127, R129). -/
theorem busUpgr_eq_writeHit (c : CoreId) (a : Addr) (k : Nat) (s : State) :
    busUpgr c a k s =
      seq [writeHit c (setOf s.cfg a) k] (seq (upgradeLines c a (setOf s.cfg a) (tagOf s.cfg a)) s) := by
  rw [writeHit, seq_seq, ← seq_append]
  rfl

/-- SNOOP_UPGR where every other holder is SHARED invalidates their copies (rule R163). -/
theorem snoopUpgr_of_shared {s : State} {c : CoreId} {si : Nat} {t : Tag} (hs : ArraysShaped s)
    (hf : s.faultCode = .fNone) (hsi : si < s.cfg.numSets)
    (hshared : ∀ c', s.lookup c' si t ≠ none → s.mesiOf c' si t = .shared) :
    ∃ q : Quad Cache, snoopUpgr c si t s = { s with cache := q } ∧ ArraysShaped { s with cache := q } ∧
      OtherCopiesInvalidated s { s with cache := q } c si t := by
  have hsnoop : snoopUpgr c si t s = invalidateHolders c si t s :=
    seq_snoopUpgrAt_of_shared hf (fun c' hc' => hshared c' (mem_holders.mp hc').2) (holders_nodup s c si t)
  rw [hsnoop]
  exact invalidateHolders_spec hs hsi hf

/-- The lines of an upgrade before its write hit, where every holder is SHARED and the counters have room
(rules R129, R163). -/
theorem upgradeLines_of_room {s : State} {c : CoreId} {a : Addr} {si : Nat} {t : Tag} (hs : ArraysShaped s)
    (hf : s.faultCode = .fNone) (hsi : si < s.cfg.numSets)
    (hshared : ∀ c', s.lookup c' si t ≠ none → s.mesiOf c' si t = .shared)
    (hroom : HasRooms s [(.stat c .busInvalidations, 1), (.busTransactions, 1)]) :
    ∃ q : Quad Cache,
      seq (upgradeLines c a si t) s =
        { s with
          cache := q
          bus := upgradeBus c a s.bus
          totalBusTransactions := s.totalBusTransactions + 1
          stats := s.stats.set c
            { s.stats.get c with busInvalidations := (s.stats.get c).busInvalidations + 1 } } ∧
      ArraysShaped { s with cache := q } ∧ OtherCopiesInvalidated s { s with cache := q } c si t := by
  obtain ⟨q, hsnoop, hq, hothers⟩ :=
    snoopUpgr_of_shared (s := { s with bus := upgradeBus c a s.bus }) (c := c) hs hf hsi hshared
  refine ⟨q, ?_, hq, hothers⟩
  rw [upgradeLines, seq_cons hf, seq_cons (by exact hf), hsnoop]
  refine (seq_incs_of_room (l := [(.stat c .busInvalidations, 1), (.busTransactions, 1)]) (fs := []) (by exact hf)
    (by simp) ((hasRooms_congr (by simp [State.counter])).mpr hroom)).trans ?_
  rfl

/-- Settles O23: the snoop invalidates the other copies, and on the lines it leaves the write hits. -/
theorem busUpgrTakesOwnership : Obligations.BusUpgrTakesOwnership := by
  unfold Obligations.BusUpgrTakesOwnership
  rintro s c a si k tg hs hf rfl rfl hav hk hshared hroom
  obtain ⟨hupgrade, hcompletion⟩ := List.forall_mem_append.mp hroom
  obtain ⟨q, hlines, hq, hlru, hothers⟩ := upgradeLines_of_room (a := a) hs hf (setOf_lt s.cfg a) hshared hupgrade
  have hlru_c : (q.get c).lruCtr = (s.cache.get c).lruCtr := hlru c
  rw [execBusUpgr_of_shared hf hav hk (hshared c (by simp [hk])), busUpgr_eq_writeHit, hlines,
    seq_singleton (by exact hf), writeHit_of_room (by exact hq) (by exact hf)
      ((hasRooms_congr (by simp [completionCounters, State.counter, hlru_c, Stats.read])).mpr hcompletion)]
  refine ⟨_, rfl, ?_, fun c' => ?_, fun c' si' w => ?_⟩
  · simp [upgradeBus]
  · rw [hitCaches_lruCtr]
    simp only [hlru c']
  · refine (lineAt_hitCaches hq (by rfl) (by rfl) c' si' w).trans ?_
    by_cases hwriter : c' = c ∧ si' = setOf s.cfg a ∧ w = k
    · rw [if_pos hwriter, if_pos hwriter, hothers, if_neg fun h => h.1 hwriter.1]
      simp only [hlru_c]
    · rw [if_neg hwriter, if_neg hwriter, hothers]

end Sys2Proof.Machine
end

section
/-! PROOFS. What a snooped command leaves alone, once for everything that it leaves alone. -/

namespace Sys2Proof.Machine

/-- The counters that a snooped command may write (rules R148, R149, R154–R158, R162). -/
def Counter.Snooped (x : Counter) : Prop :=
  match x with
  | .stat _ n => n ∈ [.totalCycles, .idleCycles, .cacheEvictions, .writebacks, .dataTrafficBytes]
  | .lruCtr _ => True
  | .globalCycle => False
  | .busTransactions => True
  | .busTrafficBytes => True

/-- `g` reads nothing that a snooped command writes: only some counters, the caches, the bus and the fault register
are written. -/
structure Unsnooped {α : Type} (g : State → α) : Prop where
  counter : ∀ x v s, x.Snooped → g (s.setCounter x v) = g s
  cache : ∀ q s, g { s with cache := q } = g s
  bus : ∀ b s, g { s with bus := b } = g s
  fault : ∀ code s, g { s with faultCode := code } = g s

namespace Unsnooped

variable {α : Type} {g : State → α}

theorem raise (h : Unsnooped g) (code : FaultCode) (s : State) : g (raise code s) = g s := by
  unfold Machine.raise
  split
  · rfl
  · exact h.fault code s

theorem inc (h : Unsnooped g) {x : Counter} (hx : x.Snooped) (k : Nat) (s : State) : g (inc x k s) = g s := by
  unfold Machine.inc
  split
  · exact h.counter x _ s hx
  · exact h.raise _ s

theorem setMesi (h : Unsnooped g) (c : CoreId) (si w : Nat) (m : Mesi) (s : State) : g (setMesi c si w m s) = g s :=
  h.cache _ s

theorem setHolderMesi (h : Unsnooped g) (c : CoreId) (si : Nat) (t : Tag) (m : Mesi) (s : State) :
    g (setHolderMesi c si t m s) = g s := by
  unfold Machine.setHolderMesi
  split
  · exact h.setMesi _ _ _ _ s
  · rfl

theorem touch (h : Unsnooped g) (c : CoreId) (si w : Nat) (s : State) : g (touch c si w s) = g s := by
  refine seq_keeps g ?_ s
  simp only [List.forall_mem_cons]
  exact ⟨h.inc (by simp [Counter.Snooped]) 1, fun u => h.cache _ u, by simp⟩

theorem install (h : Unsnooped g) (c : CoreId) (si : Nat) (t : Tag) (m : Mesi) (s : State) :
    g (install c si t m s) = g s := by
  refine seq_keeps g ?_ s
  simp only [List.forall_mem_cons]
  exact ⟨fun u => h.cache _ u, h.setMesi _ _ _ _, h.touch _ _ _, by simp⟩

theorem evictVictim (h : Unsnooped g) (c : CoreId) (si v : Nat) (s : State) : g (evictVictim c si v s) = g s := by
  refine seq_keeps g ?_ s
  simp only [List.forall_mem_cons]
  exact ⟨h.setMesi _ _ _ _, h.inc (by simp [Counter.Snooped]) 1, by simp⟩

theorem promoteLastSharer (h : Unsnooped g) (sh : List CoreId) (si : Nat) (t : Tag) (s : State) :
    g (promoteLastSharer sh si t s) = g s := by
  unfold Machine.promoteLastSharer
  split
  · exact h.setHolderMesi _ _ _ _ s
  · rfl

/-- A bus write and the four increments of a writeback (rules R149, R156, R158). -/
theorem writeback (h : Unsnooped g) (b : State → Bus) (c : CoreId) (B : Nat) (s : State) :
    g (seq ((fun u => { u with bus := b u }) :: (writebackCounters c B).map fun p => Machine.inc p.1 p.2) s) = g s := by
  refine seq_keeps g ?_ s
  simp only [writebackCounters, List.map_cons, List.map_nil, List.forall_mem_cons]
  exact ⟨fun u => h.bus _ u, h.inc (by simp [Counter.Snooped]) 1, h.inc (by simp [Counter.Snooped]) B,
    h.inc (by simp [Counter.Snooped]) 1, h.inc (by simp [Counter.Snooped]) B, by simp⟩

theorem victimPrep (h : Unsnooped g) (c : CoreId) (si : Nat) (req : ReqType) (s : State) :
    g (victimPrep c si req s) = g s := by
  unfold Machine.victimPrep
  simp only
  split
  · refine seq_keeps g ?_ s
    simp only [List.forall_mem_cons]
    refine ⟨h.evictVictim _ _ _, h.promoteLastSharer _ _ _, fun u => ?_, by simp⟩
    split
    · exact h.writeback _ c u.cfg.blockSize u
    · rfl
  · rfl

theorem busRdStart (h : Unsnooped g) (c : CoreId) (si : Nat) (t : Tag) (s : State) :
    g (busRdStart c si t s) = g s := by
  unfold Machine.busRdStart
  split
  · exact h.bus _ s
  · refine seq_keeps g ?_ s
    simp only [List.forall_mem_cons]
    exact ⟨fun u => h.bus _ u, h.setHolderMesi _ _ _ _, fun u => h.bus _ u, by simp⟩

theorem fill (h : Unsnooped g) (c : CoreId) (si : Nat) (t : Tag) (m : Mesi) (s : State) :
    g (seq [Machine.install c si t m, releaseBus] s) = g s := by
  refine seq_keeps g ?_ s
  simp only [List.forall_mem_cons]
  exact ⟨h.install _ _ _ _, fun u => h.bus _ u, by simp⟩

theorem busRdDoneC2C (h : Unsnooped g) (c r : CoreId) (si : Nat) (t : Tag) (s : State) :
    g (busRdDoneC2C c r si t s) = g s := by
  refine seq_keeps g ?_ s
  simp only [List.forall_mem_cons]
  refine ⟨h.install _ _ _ _, h.inc (by simp [Counter.Snooped]) _, fun u => ?_, by simp⟩
  split
  · exact h.writeback _ r u.cfg.blockSize u
  · exact h.bus _ u

theorem adjustRequester (h : Unsnooped g) (c : CoreId) (s : State) : g (adjustRequester c s) = g s := by
  unfold Machine.adjustRequester
  split
  · exact h.raise _ s
  · refine seq_keeps g ?_ s
    simp only [List.forall_mem_cons]
    exact ⟨fun u => h.counter _ _ u (by simp [Counter.Snooped]), h.inc (by simp [Counter.Snooped]) 1, by simp⟩

theorem invalidateHolders (h : Unsnooped g) (c : CoreId) (si : Nat) (t : Tag) (s : State) :
    g (invalidateHolders c si t s) = g s :=
  seq_keeps g (List.forall_mem_map.mpr fun c' _ => h.setHolderMesi c' si t .invalid) s

theorem snoopUpgr (h : Unsnooped g) (c : CoreId) (si : Nat) (t : Tag) (s : State) : g (snoopUpgr c si t s) = g s := by
  refine seq_keeps g (List.forall_mem_map.mpr fun c' _ u => ?_) s
  unfold snoopUpgrAt
  split
  · exact h.setHolderMesi _ _ _ _ u
  · exact h.raise _ u

theorem busRdXStart (h : Unsnooped g) (c : CoreId) (si : Nat) (t : Tag) (s : State) :
    g (busRdXStart c si t s) = g s := by
  unfold Machine.busRdXStart
  split
  · refine seq_keeps g ?_ s
    simp only [List.forall_mem_cons]
    exact ⟨h.invalidateHolders _ _ _, fun u => h.bus _ u, by simp⟩
  · refine seq_keeps g ?_ s
    simp only [List.forall_mem_cons]
    exact ⟨h.invalidateHolders _ _ _, fun u => h.writeback _ _ u.cfg.blockSize u, h.adjustRequester c, by simp⟩

theorem observeBusRd (h : Unsnooped g) (c : CoreId) (a : Addr) (s : State) : g (observeBusRd c a s) = g s := by
  unfold Machine.observeBusRd
  simp only
  split
  · rfl
  · split
    · split
      · exact h.victimPrep _ _ _ s
      · refine seq_keeps g ?_ s
        simp only [List.forall_mem_cons]
        exact ⟨h.victimPrep _ _ _, h.busRdStart _ _ _, by simp⟩
    · split
      · split
        · exact h.fill _ _ _ _ s
        · exact h.busRdDoneC2C _ _ _ _ s
      · rfl

theorem observeBusRdX (h : Unsnooped g) (c : CoreId) (a : Addr) (s : State) : g (observeBusRdX c a s) = g s := by
  unfold Machine.observeBusRdX
  simp only
  split
  · rfl
  · split
    · split
      · exact h.victimPrep _ _ _ s
      · refine seq_keeps g ?_ s
        simp only [List.forall_mem_cons]
        exact ⟨h.victimPrep _ _ _, h.busRdXStart _ _ _, by simp⟩
    · split
      · exact h.fill _ _ _ _ s
      · rfl

theorem observeFlushEvict (h : Unsnooped g) (s : State) : g (observeFlushEvict s) = g s := by
  unfold Machine.observeFlushEvict
  split
  · rfl
  · split
    · exact h.bus _ s
    · split
      · exact h.bus _ s
      · rfl

theorem observeFlushInterv (h : Unsnooped g) (s : State) : g (observeFlushInterv s) = g s := by
  unfold Machine.observeFlushInterv
  split
  · rfl
  · split
    · exact h.bus _ s
    · split
      · unfold intervDone
        split <;> exact h.bus _ s
      · rfl

/-- A snooped command leaves alone what it does not write. -/
theorem snooped (h : Unsnooped g) {i : Instr} {s t : State} (hf : s.faultCode = .fNone)
    (hbusy : s.bus.available = false) (hi : s.bus.command = some i) (ht : exec i s = .next t) : g t = g s := by
  cases i with
  | prRd a => exact absurd rfl (command_ne_request hi a).1
  | prWr a => exact absurd rfl (command_ne_request hi a).2
  | busRd c a =>
    rw [exec_busRd hf] at ht
    cases ht
    exact h.observeBusRd c a s
  | busRdX c a =>
    rw [exec_busRdX hf] at ht
    cases ht
    exact h.observeBusRdX c a s
  | busUpgr c a =>
    rw [exec_busUpgr_of_busy hf hbusy] at ht
    cases ht
    exact h.raise _ s
  | flushEvict c a =>
    rw [exec_flushEvict hf] at ht
    cases ht
    exact h.observeFlushEvict s
  | flushInterv c a =>
    rw [exec_flushInterv hf] at ht
    cases ht
    exact h.observeFlushInterv s

end Unsnooped

end Sys2Proof.Machine
end

section
/-! PROOFS. The accounting properties: what an access that raises no fault charges to its core (O20), and with it P4, P5
and P7 over a step (O57). P4 and P5 hold at every point of a tick; P7 because a core is charged in its own turn only. -/

namespace Sys2Proof.Machine

/-! ### What an access charges -/

/-- What a core's accesses add up to besides its progress: its reads, its writes and its misses. -/
def State.tally (s : State) (c : CoreId) : Count × Count × Count :=
  ((s.stats.get c).totalReads, (s.stats.get c).totalWrites, (s.stats.get c).cacheMisses)

/-- The counter is one that the tally of some core reads. -/
def Counter.InTally (x : Counter) : Prop :=
  ∃ c, x = .stat c .totalReads ∨ x = .stat c .totalWrites ∨ x = .stat c .cacheMisses

theorem tally_setCounter {x : Counter} (hx : ¬ x.InTally) (v : Count) (s : State) :
    (s.setCounter x v).tally = s.tally := by
  have hread (c : CoreId) (n : StatName) (hn : Counter.stat c n ≠ x) :
      ((s.setCounter x v).stats.get c).read n = (s.stats.get c).read n := State.counter_setCounter_ne s v hn
  funext c
  refine congrArg₂ Prod.mk (hread c .totalReads ?_) (congrArg₂ Prod.mk (hread c .totalWrites ?_)
    (hread c .cacheMisses ?_))
  all_goals
    rintro rfl
    simp [Counter.InTally] at hx

@[simp] theorem tally_inc {x : Counter} (hx : ¬ x.InTally) (k : Nat) (s : State) : (inc x k s).tally = s.tally := by
  unfold inc
  split
  · exact tally_setCounter hx _ s
  · funext c
    simp [State.tally]

/-- A snooped command counts no read, no write and no miss. -/
theorem unsnooped_tally : Unsnooped State.tally where
  counter x v s hx := tally_setCounter (by rintro ⟨c, rfl | rfl | rfl⟩ <;> simp [Counter.Snooped] at hx) v s
  cache _ _ := rfl
  bus _ _ := rfl
  fault _ _ := rfl

/-- The access of core `c` from `s` to `u` completes `done` instructions and counts `missed` misses, and charges one
tick (rules R126–R133). -/
structure Charges (s u : State) (c : CoreId) (done missed : Nat) : Prop where
  pc : u.pc.get c = s.pc.get c + done
  instructions : (u.stats.get c).totalInstructions.toNat = (s.stats.get c).totalInstructions.toNat + done
  accesses : (u.stats.get c).totalReads.toNat + (u.stats.get c).totalWrites.toNat =
    (s.stats.get c).totalReads.toNat + (s.stats.get c).totalWrites.toNat + done
  misses : (u.stats.get c).cacheMisses.toNat = (s.stats.get c).cacheMisses.toNat + missed
  ticks : u.ticksCharged c = s.ticksCharged c + 1

/-- Lines that count nothing of the account, before the others. -/
theorem Charges.of_uncounted {s s' u : State} {c : CoreId} {done missed : Nat} (h : Charges s' u c done missed)
    (haccount : s'.account = s.account) (htally : s'.tally = s.tally) : Charges s u c done missed := by
  have ha := congrFun haccount c
  have ht := congrFun htally c
  simp only [State.account, State.progress, State.tally, Prod.mk.injEq] at ha ht
  obtain ⟨⟨hpc, hins⟩, hticks⟩ := ha
  obtain ⟨hreads, hwrites, hmisses⟩ := ht
  obtain ⟨h1, h2, h3, h4, h5⟩ := h
  exact ⟨hpc ▸ h1, hins ▸ h2, hreads ▸ hwrites ▸ h3, hmisses ▸ h4, hticks ▸ h5⟩

theorem completeAccess_charges {c : CoreId} {si k : Nat} {kind : StatName} {s : State}
    (hk : kind = .totalReads ∨ kind = .totalWrites) (hs : s.faultCode = .fNone)
    (h : (completeAccess c si k kind s).faultCode = .fNone) : Charges s (completeAccess c si k kind s) c 1 0 := by
  by_cases hroom : HasRooms s (completionCounters c kind)
  · rw [completeAccess_of_room hk hs hroom]
    simp only [completionCounters, hasRooms_cons, HasRoom, State.counter] at hroom
    obtain ⟨-, hkind, hins, hcycles, -⟩ := hroom
    obtain rfl | rfl := hk <;>
      simp only [Stats.read] at hkind hins hcycles <;>
      constructor <;> simp [Stats.write, Stats.read, State.ticksCharged] <;> omega
  · simp [(completeAccess_of_full hk hs hroom).1] at h

theorem issue_charges {c : CoreId} {a : Addr} {w : Bool} {s : State} (hs : s.faultCode = .fNone)
    (h : (issue c a w s).faultCode = .fNone) :
    Charges s (issue c a w s) c 0 1 ∧
      (issue c a w s).totalBusTransactions.toNat = s.totalBusTransactions.toNat + 1 := by
  by_cases hroom : HasRooms s (issueCounters c s.cfg.blockSize w)
  · rw [issue_of_room hs hroom]
    simp only [issueCounters, List.cons_append, hasRooms_cons, HasRoom, State.counter, Stats.read] at hroom
    obtain ⟨hmisses, hcycles, -, htrans, -⟩ := hroom
    refine ⟨⟨?_, ?_, ?_, ?_, ?_⟩, ?_⟩ <;> simp [State.ticksCharged] <;> omega
  · simp [(issue_of_full hs hroom).1] at h

/-- One tick charged, and nothing else counted. -/
theorem inc_charges {c : CoreId} {n : StatName} {s : State} (hn : n = .totalCycles ∨ n = .idleCycles)
    (h : (inc (.stat c n) 1 s).faultCode = .fNone) : Charges s (inc (.stat c n) 1 s) c 0 0 := by
  obtain ⟨hroom, -, heq⟩ := inc_of_unfaulted h
  rw [heq]
  obtain rfl | rfl := hn <;> simp only [HasRoom, State.counter, Stats.read] at hroom <;>
    constructor <;> simp [State.setCounter, State.counter, Stats.write, Stats.read, State.ticksCharged] <;> omega

theorem stall_charges {c : CoreId} {s : State} (h : (stall c s).faultCode = .fNone) : Charges s (stall c s) c 0 0 := by
  unfold stall at h ⊢
  split at h
  case isTrue hsrc =>
    rw [if_pos hsrc]
    exact inc_charges (.inl rfl) h
  case isFalse hsrc =>
    rw [if_neg hsrc]
    exact inc_charges (.inr rfl) h

theorem writeHit_charges {c : CoreId} {si k : Nat} {s : State} (h : (writeHit c si k s).faultCode = .fNone) :
    Charges s (writeHit c si k s) c 1 0 := by
  obtain ⟨-, hwrite, hseq⟩ := seq_cons_of_unfaulted h
  rw [writeHit, hseq, seq_singleton hwrite]
  rw [writeHit, hseq, seq_singleton hwrite] at h
  exact (completeAccess_charges (.inr rfl) hwrite h).of_uncounted rfl rfl

theorem upgradeLines_account (c : CoreId) (a : Addr) (si : Nat) (t : Tag) (s : State) :
    (seq (upgradeLines c a si t) s).account = s.account := by
  refine seq_keeps State.account ?_ s
  simp only [upgradeLines, List.forall_mem_cons]
  exact ⟨by simp, account_snoopUpgr c si t, account_inc (by simp [Counter.InAccount]) 1,
    account_inc (by simp [Counter.InAccount]) 1, by simp⟩

theorem upgradeLines_tally (c : CoreId) (a : Addr) (si : Nat) (t : Tag) (s : State) :
    (seq (upgradeLines c a si t) s).tally = s.tally := by
  refine seq_keeps State.tally ?_ s
  simp only [upgradeLines, List.forall_mem_cons]
  exact ⟨fun _ => rfl, unsnooped_tally.snoopUpgr c si t, tally_inc (by simp [Counter.InTally]) 1,
    tally_inc (by simp [Counter.InTally]) 1, by simp⟩

theorem busUpgr_charges {c : CoreId} {a : Addr} {k : Nat} {s : State} (h : (busUpgr c a k s).faultCode = .fNone) :
    Charges s (busUpgr c a k s) c 1 0 := by
  rw [busUpgr_eq_writeHit] at h ⊢
  obtain ⟨-, hwrite, hseq⟩ := seq_cons_of_unfaulted h
  rw [hseq]
  exact (writeHit_charges hwrite).of_uncounted (upgradeLines_account ..) (upgradeLines_tally ..)

theorem transactions_le_access (c : CoreId) (a : Addr) (w : Bool) (s : State) :
    s.totalBusTransactions.toNat ≤ (access c a w s).totalBusTransactions.toNat :=
  (counter_kept s.totalBusTransactions.toNat (x := .busTransactions) (by simp)).access le_rfl

/-- An access that raises no fault charges one tick to its core. It completes, or counts a miss with its bus
transaction, or neither. -/
theorem access_charges {c : CoreId} {a : Addr} {w : Bool} {s : State} (hs : s.faultCode = .fNone)
    (h : (access c a w s).faultCode = .fNone) :
    ∃ done missed, Charges s (access c a w s) c done missed ∧
      s.totalBusTransactions.toNat + missed ≤ (access c a w s).totalBusTransactions.toNat := by
  have hle := transactions_le_access c a w s
  obtain ⟨k, -, ⟨-, heq⟩ | ⟨-, heq | heq⟩⟩ | ⟨-, -, heq⟩ | heq := access_cases s c a w <;> rw [heq] at h hle ⊢
  · exact ⟨1, 0, completeAccess_charges (.inl rfl) hs h, hle⟩
  · exact ⟨1, 0, writeHit_charges h, hle⟩
  · exact ⟨1, 0, busUpgr_charges h, hle⟩
  · obtain ⟨hcharges, htrans⟩ := issue_charges hs h
    exact ⟨0, 1, hcharges, htrans.ge⟩
  · exact ⟨0, 0, stall_charges h, hle⟩

/-- Settles O20: an access charges its own core one tick and leaves the accounts of the others alone. -/
theorem attemptChargesOneTick : Obligations.AttemptChargesOneTick := by
  unfold Obligations.AttemptChargesOneTick
  intro s t a i hi hs ht hf c
  obtain ⟨w, rfl⟩ : ∃ w, t = access s.turn a w s := by
    obtain rfl | rfl := hi
    · rw [exec_prRd hs] at ht
      cases ht
      exact ⟨false, rfl⟩
    · rw [exec_prWr hs] at ht
      cases ht
      exact ⟨true, rfl⟩
  by_cases hc : c = s.turn
  · rw [if_pos hc, hc]
    obtain ⟨_, _, hcharges, -⟩ := access_charges hs hf
    exact hcharges.ticks
  · rw [if_neg hc]
    exact ticksCharged_of_account (account_access_ne hc a w s)

/-! ### The tallies of the other cores -/

theorem tally_inc_ne {c c' : CoreId} (h : c' ≠ c) (n : StatName) (k : Nat) (s : State) :
    (inc (.stat c n) k s).tally c' = s.tally c' := by
  unfold inc
  split <;> simp [State.tally, State.setCounter, h]

theorem tally_completeAccess_ne {c c' : CoreId} (h : c' ≠ c) (si k : Nat) (kind : StatName) (s : State) :
    (completeAccess c si k kind s).tally c' = s.tally c' := by
  refine seq_keeps (fun u => u.tally c') ?_ s
  simp only [List.forall_mem_cons]
  exact ⟨fun u => congrFun (unsnooped_tally.touch c si k u) c', tally_inc_ne h _ _, tally_inc_ne h _ _,
    tally_inc_ne h _ _, fun _ => rfl, by simp⟩

theorem tally_writeHit_ne {c c' : CoreId} (h : c' ≠ c) (si k : Nat) (s : State) :
    (writeHit c si k s).tally c' = s.tally c' := by
  refine seq_keeps (fun u => u.tally c') ?_ s
  simp only [List.forall_mem_cons]
  exact ⟨fun _ => rfl, tally_completeAccess_ne h _ _ _, by simp⟩

theorem tally_issue_ne {c c' : CoreId} (h : c' ≠ c) (a : Addr) (w : Bool) (s : State) :
    (issue c a w s).tally c' = s.tally c' := by
  refine seq_keeps (fun u => u.tally c') ?_ s
  simp only [List.forall_mem_cons]
  refine ⟨fun _ => rfl, tally_inc_ne h _ _, tally_inc_ne h _ _, tally_inc_ne h _ _, by simp [Counter.InTally],
    by simp [Counter.InTally], fun u => ?_, by simp⟩
  split
  · exact tally_inc_ne h _ _ u
  · rfl

/-- An access by core `c` leaves the tallies of the other cores alone. -/
theorem tally_access_ne {c c' : CoreId} (h : c' ≠ c) (a : Addr) (w : Bool) (s : State) :
    (access c a w s).tally c' = s.tally c' := by
  obtain ⟨k, -, ⟨-, heq⟩ | ⟨-, heq | heq⟩⟩ | ⟨-, -, heq⟩ | heq := access_cases s c a w <;> rw [heq]
  · exact tally_completeAccess_ne h _ _ _ s
  · exact tally_writeHit_ne h _ _ s
  · rw [busUpgr_eq_writeHit, ← upgradeLines_tally c a (setOf s.cfg a) (tagOf s.cfg a) s]
    exact seq_keeps (fun u => u.tally c') (by simpa using tally_writeHit_ne h _ _) _
  · exact tally_issue_ne h a w s
  · unfold stall
    split <;> exact tally_inc_ne h _ _ s

/-! ### P4 and P5 over the stages of a tick -/

/-- P4 and P5, which hold at every point of a tick (rules R139, R140). -/
def RequestsCounted (s : State) : Prop := InstructionsCounted s ∧ MissesBounded s

/-- P4 and P5 read the program counters, the counted instructions, the tallies and the bus transactions. -/
theorem RequestsCounted.congr {s u : State} (h : RequestsCounted s) (hprogress : u.progress = s.progress)
    (htally : u.tally = s.tally) (htrans : s.totalBusTransactions.toNat ≤ u.totalBusTransactions.toNat) :
    RequestsCounted u := by
  obtain ⟨hins, hmiss⟩ := h
  have hp (c : CoreId) := congrFun hprogress c
  have ht (c : CoreId) := congrFun htally c
  simp only [State.progress, State.tally, Prod.mk.injEq] at hp ht
  refine ⟨fun c => ?_, ?_⟩
  · rw [(hp c).1, (hp c).2, (ht c).1, (ht c).2.1]
    exact hins c
  · simp only [MissesBounded, (ht _).2.2]
    exact hmiss.trans htrans

theorem missesBounded_iff (s : State) :
    MissesBounded s ↔ ∑ c, (s.stats.get c).cacheMisses.toNat ≤ s.totalBusTransactions.toNat := by
  rw [MissesBounded, Fin.sum_univ_four]

/-- A completed access counts one instruction, read or written, and one record; a miss counts its bus transaction. -/
theorem RequestsCounted.access {c : CoreId} {a : Addr} {w : Bool} {s : State} (h : RequestsCounted s)
    (hs : s.faultCode = .fNone) (hf : (access c a w s).faultCode = .fNone) : RequestsCounted (access c a w s) := by
  obtain ⟨hins, hmiss⟩ := h
  obtain ⟨done, missed, hcharges, htrans⟩ := access_charges hs hf
  have hother (c' : CoreId) (hc' : c' ≠ c) := progress_of_account (account_access_ne hc' a w s)
  have htally (c' : CoreId) (hc' : c' ≠ c) := tally_access_ne hc' a w s
  simp only [State.progress, State.tally, Prod.mk.injEq] at hother htally
  refine ⟨fun c' => ?_, ?_⟩
  · by_cases hc' : c' = c
    · subst hc'
      rw [hcharges.pc, hcharges.instructions, hcharges.accesses]
      have := hins c'
      omega
    · rw [(hother c' hc').1, (hother c' hc').2, (htally c' hc').1, (htally c' hc').2.1]
      exact hins c'
  · rw [missesBounded_iff] at hmiss ⊢
    have hsum : ∑ c', ((Machine.access c a w s).stats.get c').cacheMisses.toNat =
        ∑ c', (s.stats.get c').cacheMisses.toNat + missed := by
      rw [← Finset.add_sum_erase _ _ (Finset.mem_univ c), ← Finset.add_sum_erase _ _ (Finset.mem_univ c),
        hcharges.misses, Finset.sum_congr rfl fun c' hc' => by rw [(htally c' (Finset.ne_of_mem_erase hc')).2.2]]
      omega
    rw [hsum]
    omega

/-- Only the core turns count requests; the rest of a step that raises no fault leaves P4 and P5 as they are. -/
theorem step_requestsCounted {s t : State} (hs : RequestsCounted s) (hstep : step s = .next t)
    (ht : t.faultCode = .fNone) : RequestsCounted t := by
  refine step_induct (fun u => u.faultCode = .fNone → RequestsCounted u) ?_ ?_ ?_ ?_ ?_ ?_ (fun _ => hs) hstep ht
  · intro i u v hf hbusy hi hu hv _
    exact (hu hf).congr (snooped_account hf hbusy hi hv).1 (unsnooped_tally.snooped hf hbusy hi hv)
      ((counter_kept u.totalBusTransactions.toNat (x := .busTransactions) (by simp)).exec le_rfl hv)
  · intro c u v hf hu hv hvf
    obtain rfl | ⟨-, -, rfl⟩ | ⟨a, w, -, -, rfl, -⟩ := coreTurn_access_cases hf hv
    · exact hu hf
    · exact hu hf
    · exact RequestsCounted.access (s := { u with turn := c }) (hu hf) hf hvf
  · exact fun u hf hu _ => hu hf
  · exact fun u hf hu _ => hu hf
  · exact fun u hf hu _ => (hu hf).congr (progress_inc (by simp) 1 u) (tally_inc (by simp [Counter.InTally]) 1 u)
      (counter_le_inc .busTransactions .globalCycle 1 u)
  · intro u hf hu huf
    rw [(checkInvariants_of_unfaulted huf).1]
    exact hu hf

/-! ### P7 over a tick -/

/-- Stages that end without a fault began without one. -/
theorem unfaulted_of_stages {fs : List (State → Answer)} {s t : State} (h : stages fs s = .next t)
    (ht : t.faultCode = .fNone) : s.faultCode = .fNone := by
  by_contra hs
  rw [stages_of_faulted hs] at h
  cases h
  exact hs ht

/-- What every stage that raises no fault leaves alone, stages that end without a fault leave alone. -/
theorem stages_keep_of_unfaulted {α : Type} (g : State → α) {fs : List (State → Answer)}
    (h : ∀ f ∈ fs, ∀ s s', s.faultCode = .fNone → f s = .next s' → s'.faultCode = .fNone → g s' = g s) {s t : State}
    (hst : stages fs s = .next t) (ht : t.faultCode = .fNone) : g t = g s :=
  stages_induct (fun u => u.faultCode = .fNone → g u = g s)
    (fun f hf u v hu hP huv hv => (h f hf u v hu huv hv).trans (hP hu)) (fun _ => rfl) hst ht

theorem snoop_account {s t : State} (h : snoop s = .next t) (ht : t.faultCode = .fNone) : t.account = s.account :=
  snoopLoop_induct (fun u => u.faultCode = .fNone → u.account = s.account)
    (fun _ _ _ hf hbusy hi hu hv hvf => ((snooped_account hf hbusy hi hv).2 hvf).trans (hu hf)) (fun _ => rfl) h ht

theorem coreTurn_account_ne {c c' : CoreId} (hc : c' ≠ c) {s t : State} (hf : s.faultCode = .fNone)
    (h : coreTurn c s = .next t) : t.account c' = s.account c' := by
  obtain rfl | ⟨-, -, rfl⟩ | ⟨a, w, -, -, rfl, -⟩ := coreTurn_access_cases hf h
  · rfl
  · rfl
  · exact account_access_ne hc a w _

theorem turns_account {c : CoreId} {cs : List CoreId} (hcs : c ∉ cs) : ∀ f ∈ cs.map coreTurn, ∀ s s',
    s.faultCode = .fNone → f s = .next s' → s'.faultCode = .fNone → s'.account c = s.account c := by
  simp only [List.forall_mem_map]
  exact fun c' hc' s s' hf h _ => coreTurn_account_ne (fun e => hcs (by rwa [e])) hf h

theorem closingStages_account (c : CoreId) : ∀ f ∈ closingStages, ∀ s s',
    s.faultCode = .fNone → f s = .next s' → s'.faultCode = .fNone → s'.account c = s.account c := by
  simp only [closingStages, countingStages, List.forall_mem_cons, Host.Outcome.next.injEq]
  refine ⟨?_, fun s s' _ h hf => congrFun (snoop_account h hf) c, ?_, ?_, ?_, by simp⟩
  · rintro s _ - rfl -; rfl
  · rintro s _ - rfl -; rfl
  · rintro s _ - rfl -
    rw [account_inc (by simp [Counter.InAccount])]
  · rintro s _ - rfl -
    rw [account_congr (s := s) (by simp) (by simp)]

theorem coreTurn_ticksCharged_le_succ {c : CoreId} {s t : State} (hf : s.faultCode = .fNone)
    (h : coreTurn c s = .next t) (ht : t.faultCode = .fNone) : t.ticksCharged c ≤ s.ticksCharged c + 1 := by
  obtain rfl | ⟨-, -, rfl⟩ | ⟨a, w, -, -, rfl, -⟩ := coreTurn_access_cases hf h
  · exact Nat.le_succ _
  · exact Nat.le_succ _
  · obtain ⟨_, _, hcharges, -⟩ := access_charges (s := { s with turn := c }) hf ht
    exact hcharges.ticks.le

/-- A tick charges a core at most once, in its own turn (rules R138, R181). -/
theorem tick_ticksCharged_le {s t : State} (h : tick s = .next t) (ht : t.faultCode = .fNone) (c : CoreId) :
    t.ticksCharged c ≤ s.ticksCharged c + 1 := by
  rw [tick_eq_around_turn c, stages_append_eq_next] at h
  obtain ⟨u, hbefore, hrest⟩ := h
  have hu := unfaulted_of_stages hrest ht
  obtain ⟨v, hturn, hafter⟩ := (stages_cons_eq_next hu).mp hrest
  have hv := unfaulted_of_stages hafter ht
  have hsu : u.account c = s.account c := stages_keep_of_unfaulted (fun u => u.account c)
    (List.forall_mem_cons.mpr ⟨fun _ _ _ h hf => congrFun (snoop_account h hf) c, turns_account (by simp)⟩) hbefore hu
  have hvt : t.account c = v.account c := stages_keep_of_unfaulted (fun u => u.account c)
    (List.forall_mem_append.mpr ⟨turns_account (by simp), closingStages_account c⟩) hafter ht
  rw [ticksCharged_of_account hvt, ← ticksCharged_of_account hsu]
  exact coreTurn_ticksCharged_le_succ hu hturn hv

/-- No command counts a tick of the block: `global_cycle` is the tick's own (rule R184). -/
theorem globalCycle_kept (n : Count) : Kept (fun u => u.globalCycle = n) where
  inc x k u hx hu := by
    unfold inc
    split
    · exact (State.counter_setCounter_ne u _ hx.symm).trans hu
    · simpa using hu
  line c si w f u _ hu := hu
  bus b u hu := hu
  pc c u hu := hu
  dec c u hu := hu
  raise code u hu := by simpa using hu

theorem snoop_globalCycle {s t : State} (h : snoop s = .next t) : t.globalCycle = s.globalCycle :=
  snoopLoop_induct (fun u => u.globalCycle = s.globalCycle) (fun _ _ _ _ _ _ hu hv => (globalCycle_kept _).exec hu hv)
    rfl h

theorem coreTurn_globalCycle {c : CoreId} {s t : State} (h : coreTurn c s = .next t) :
    t.globalCycle = s.globalCycle := by
  obtain ⟨-, rfl⟩ | ⟨-, -, rfl⟩ | ⟨a, -, -, hrd | hwr⟩ := coreTurn_cases h
  · rfl
  · rfl
  · exact (globalCycle_kept s.globalCycle).exec (s := { s with turn := c }) rfl hrd
  · exact (globalCycle_kept s.globalCycle).exec (s := { s with turn := c }) rfl hwr

theorem tick_eq_around_count : tick = stages ((openingStages ++ [snoop, fun s => .next (countdown s)]) ++
    [fun s => .next (inc .globalCycle 1 s), fun s => .next (checkInvariants s)]) := rfl

/-- A tick that raises no fault counts itself once (rule R184). -/
theorem tick_globalCycle {s t : State} (h : tick s = .next t) (ht : t.faultCode = .fNone) :
    t.globalCycle.toNat = s.globalCycle.toNat + 1 := by
  rw [tick_eq_around_count, stages_append_eq_next] at h
  obtain ⟨u, hbefore, hrest⟩ := h
  obtain ⟨v, hcount, hcheck⟩ := (stages_cons_eq_next (unfaulted_of_stages hrest ht)).mp hrest
  obtain ⟨w, hw, hwt⟩ := (stages_cons_eq_next (unfaulted_of_stages hcheck ht)).mp hcheck
  cases hcount
  cases hw
  cases hwt
  have hsu : u.globalCycle = s.globalCycle := by
    refine stages_keep State.globalCycle ?_ hbefore
    simp only [openingStages, List.forall_mem_cons, List.forall_mem_append, List.forall_mem_map,
      Host.Outcome.next.injEq]
    exact ⟨⟨⟨fun _ _ _ h => snoop_globalCycle h, fun c _ _ _ _ h => coreTurn_globalCycle h⟩,
      by rintro _ _ - rfl; rfl, by simp⟩, fun _ _ _ h => snoop_globalCycle h, by rintro _ _ - rfl; rfl, by simp⟩
  have hchecked := (checkInvariants_of_unfaulted ht).1
  rw [hchecked] at ht ⊢
  obtain ⟨hroom, -, heq⟩ := inc_of_unfaulted ht
  rw [heq, ← hsu]
  exact counter_add_toNat hroom

/-- Settles O57: P4 and P5 hold through the tick, and P7 because the tick counts one for a charge of at most one. -/
theorem stepKeepsAccounted : Obligations.StepKeepsAccounted := by
  unfold Obligations.StepKeepsAccounted
  intro s t hs hstep
  by_cases ht : t.faultCode = .fNone
  · obtain ⟨-, ⟨-, rfl⟩ | ⟨hticking, htick⟩⟩ := step_eq_next hstep
    · exact hs
    · have hf : s.faultCode = .fNone := (ticking_iff.mp hticking).1
      obtain ⟨hins, hmiss, hcycles⟩ := hs.resolve_left (not_not_intro hf)
      obtain ⟨hins', hmiss'⟩ := step_requestsCounted ⟨hins, hmiss⟩ hstep ht
      refine .inr ⟨hins', hmiss', fun c => ?_⟩
      have hcharged : t.ticksCharged c ≤ s.ticksCharged c + 1 := tick_ticksCharged_le htick ht c
      have hbound : s.ticksCharged c ≤ s.globalCycle.toNat := hcycles c
      have hcount := tick_globalCycle htick ht
      show t.ticksCharged c ≤ t.globalCycle.toNat
      omega
  · exact .inl ht

end Sys2Proof.Machine
end

section
/-! PROOFS. The first observation of a demand, up to its victim: a clean victim is dropped (O28), the demand then acts
as on the state that this leaves (O27), and a dirty victim is written back before the demand starts (O29). -/

namespace Sys2Proof.Machine

/-! ### Victim preparation -/

/-- The state after core `c`'s eviction left the caches `q` (rules R148, R150). -/
def State.evicted (s : State) (c : CoreId) (q : Quad Cache) : State :=
  { s with
    cache := q
    stats := s.stats.set c { s.stats.get c with cacheEvictions := (s.stats.get c).cacheEvictions + 1 } }

section

variable {s : State} {c : CoreId} {si : Nat}

theorem victimPrep_of_free (hfree : (s.victimLine c si).mesi = .invalid) (req : ReqType) :
    victimPrep c si req s = s := by
  simp [victimPrep, Line.valid, hfree]

/-- VICTIM_PREP over a valid victim where the eviction can be counted (rule R147). -/
theorem victimPrep_of_valid (hs : ArraysShaped s) (hsi : si < s.cfg.numSets) (hf : s.faultCode = .fNone)
    (hvalid : (s.victimLine c si).mesi ≠ .invalid) (hroom : HasRoom s (.stat c .cacheEvictions) 1) :
    ∃ q : Quad Cache, ArraysShaped (s.evicted c q) ∧ VictimDropped s (s.evicted c q) c si ∧
      ∀ req, victimPrep c si req s =
        if (s.victimLine c si).mesi = .modified then chainEvictFlush c req (s.evicted c q) else s.evicted c q := by
  obtain ⟨q, hdrop, hshaped, hdropped⟩ := dropVictim_spec hs hsi hf hroom
  refine ⟨q, hshaped, hdropped, fun req => ?_⟩
  have hevict : (evictVictim c si (s.victim c si) s).faultCode = .fNone := by
    rw [evictVictim_of_room hf hroom]
    simpa using hf
  have hnone : (s.evicted c q).faultCode = .fNone := hf
  unfold victimPrep
  simp only
  rw [if_pos (by simpa [Line.valid] using hvalid), seq_cons hf, seq_cons hevict, hdrop]
  exact seq_singleton hnone

/-- A preparation of a valid victim that raises no fault counted the eviction. -/
theorem hasRoom_of_victimPrep {req : ReqType} (hvalid : (s.victimLine c si).mesi ≠ .invalid)
    (h : (victimPrep c si req s).faultCode = .fNone) : HasRoom s (.stat c .cacheEvictions) 1 := by
  unfold victimPrep at h
  simp only at h
  rw [if_pos (by simpa [Line.valid] using hvalid)] at h
  obtain ⟨-, hevict, -⟩ := seq_cons_of_unfaulted h
  obtain ⟨-, -, hinc⟩ := seq_cons_of_unfaulted hevict
  rw [evictVictim, hinc] at hevict
  obtain ⟨-, hcount, -⟩ := seq_cons_of_unfaulted hevict
  exact (inc_of_unfaulted hcount).1

/-- The victim slot is free once the victim is dropped: its set has an INVALID line then (rule R111). -/
theorem VictimDropped.free {u : State} (h : VictimDropped s u c si) (hu : ArraysShaped u) (hE : 1 ≤ u.cfg.E)
    (hvalid : (s.victimLine c si).mesi ≠ .invalid) : (u.victimLine c si).mesi = .invalid := by
  have hline : u.lineAt c si (s.victim c si) = some { s.victimLine c si with mesi := .invalid } := by
    rw [h.2, if_pos ⟨rfl, rfl, rfl⟩, lineAt_victim (by simpa [Line.valid] using hvalid)]
    rfl
  obtain ⟨v, hv⟩ := hu.lineAt_victim hE c si
  have hinvalid := (victim_of_invalid hv ⟨_, _, hline, rfl⟩).1
  rwa [State.victimLine, hv, Option.getD_some]

/-- VICTIM_PREP over a victim that is not MODIFIED reads no demand, keeps the bus record and frees the slot
(rules R146, R147). -/
theorem victimPrep_of_clean {req : ReqType} (hs : ArraysShaped s) (hE : 1 ≤ s.cfg.E) (hsi : si < s.cfg.numSets)
    (hf : s.faultCode = .fNone) (hclean : (s.victimLine c si).mesi ≠ .modified)
    (h : (victimPrep c si req s).faultCode = .fNone) :
    ∃ u, (∀ r, victimPrep c si r s = u) ∧ u.cfg = s.cfg ∧ u.bus = s.bus ∧ (u.victimLine c si).mesi = .invalid := by
  by_cases hfree : (s.victimLine c si).mesi = .invalid
  · exact ⟨s, victimPrep_of_free hfree, rfl, rfl, hfree⟩
  · obtain ⟨q, hshaped, hdropped, hprep⟩ := victimPrep_of_valid hs hsi hf hfree (hasRoom_of_victimPrep hfree h)
    exact ⟨s.evicted c q, fun r => by rw [hprep, if_neg hclean], rfl, rfl, hdropped.free hshaped hE hfree⟩

end

/-- Settles O28: the preparation of a clean victim ends with the drop of the victim. -/
theorem cleanVictimIsDropped : Obligations.CleanVictimIsDropped := by
  unfold Obligations.CleanVictimIsDropped
  intro s c si req hs hf hsi hvalid hclean hroom
  obtain ⟨q, -, hdropped, hprep⟩ := victimPrep_of_valid hs hsi hf hvalid hroom
  rw [hprep, if_neg hclean]
  exact ⟨hdropped, rfl⟩

/-! ### The first observation -/

/-- What an observation does with a demand that waits: victim preparation, and then the start of the demand, unless a
writeback comes before it (rules R145–R147). -/
def firstObservation (c : CoreId) (si : Nat) (req : ReqType) (start : State → State) (s : State) : State :=
  if s.victimDirty c si then victimPrep c si req s else seq [victimPrep c si req, start] s

section

variable {s : State} {c : CoreId} {a : Addr}

theorem observeBusRd_of_waiting (hbusy : s.bus.available = false) (hdone : s.bus.done = true) :
    observeBusRd c a s =
      firstObservation c (setOf s.cfg a) .busRd (busRdStart c (setOf s.cfg a) (tagOf s.cfg a)) s := by
  simp [observeBusRd, firstObservation, hbusy, hdone]

theorem observeBusRdX_of_waiting (hbusy : s.bus.available = false) (hdone : s.bus.done = true) :
    observeBusRdX c a s =
      firstObservation c (setOf s.cfg a) .busRdX (busRdXStart c (setOf s.cfg a) (tagOf s.cfg a)) s := by
  simp [observeBusRdX, firstObservation, hbusy, hdone]

variable {si : Nat} {req : ReqType} {start : State → State}

theorem firstObservation_of_dirty (hdirty : (s.victimLine c si).mesi = .modified) :
    firstObservation c si req start s = victimPrep c si req s := by
  simp [firstObservation, State.victimDirty, hdirty]

theorem firstObservation_of_clean (hf : s.faultCode = .fNone) (hclean : (s.victimLine c si).mesi ≠ .modified) :
    firstObservation c si req start s = seq [start] (victimPrep c si req s) := by
  rw [firstObservation, if_neg (by simpa [State.victimDirty] using hclean), seq_cons hf]

theorem firstObservation_of_free (hf : s.faultCode = .fNone) (hfree : (s.victimLine c si).mesi = .invalid) :
    firstObservation c si req start s = start s := by
  rw [firstObservation_of_clean hf (by simp [hfree]), victimPrep_of_free hfree, seq_singleton hf]

end

/-- Settles O27: the first observation of `s` and that of the prepared state both come to the start of the demand on the
prepared state. -/
theorem demandStartsAfterPreparation : Obligations.DemandStartsAfterPreparation := by
  unfold Obligations.DemandStartsAfterPreparation
  rintro s _ c a _ hs hE hf rfl hbusy hdone hclean rfl huf
  obtain ⟨u, hprep, hcfg, hbus, hfree⟩ := victimPrep_of_clean hs hE (setOf_lt s.cfg a) hf hclean huf
  rw [hprep] at huf ⊢
  have hubusy : u.bus.available = false := by rwa [hbus]
  have hudone : u.bus.done = true := by rwa [hbus]
  have hstart (req : ReqType) (start : State → State) :
      firstObservation c (setOf s.cfg a) req start s = firstObservation c (setOf s.cfg a) req start u := by
    rw [firstObservation_of_clean hf hclean, hprep, seq_singleton huf, firstObservation_of_free huf hfree]
  refine ⟨hfree, victimPrep_of_free hfree, ?_, ?_⟩
  · rw [exec_busRd hf, exec_busRd huf, observeBusRd_of_waiting hbusy hdone, observeBusRd_of_waiting hubusy hudone, hcfg,
      hstart]
  · rw [exec_busRdX hf, exec_busRdX huf, observeBusRdX_of_waiting hbusy hdone, observeBusRdX_of_waiting hubusy hudone,
      hcfg, hstart]

/-- Settles O29: the first observation of either demand is the victim preparation, which ends with the writeback. -/
theorem dirtyVictimChainsEvictionFlush : Obligations.DirtyVictimChainsEvictionFlush := by
  unfold Obligations.DirtyVictimChainsEvictionFlush
  intro s c a i req hs hf hi hbusy hdone hdirty hrooms
  have hexec : exec i s = .next (victimPrep c (setOf s.cfg a) req s) := by
    obtain ⟨rfl, rfl⟩ | ⟨rfl, rfl⟩ := hi
    · rw [exec_busRd hf, observeBusRd_of_waiting hbusy hdone, firstObservation_of_dirty hdirty]
    · rw [exec_busRdX hf, observeBusRdX_of_waiting hbusy hdone, firstObservation_of_dirty hdirty]
  obtain ⟨hroom, hwriteback⟩ := hasRooms_cons.mp hrooms
  obtain ⟨q, -, hdropped, hprep⟩ := victimPrep_of_valid hs (setOf_lt s.cfg a) hf (by simp [hdirty]) hroom
  have hroom' : HasRooms (s.evicted c q) (writebackCounters c (s.evicted c q).cfg.blockSize) := by
    refine (hasRooms_congr ?_).mpr hwriteback
    simp [writebackCounters, State.counter, State.evicted, Stats.read]
  rw [hexec, hprep, if_pos hdirty, chainEvictFlush_of_room (by exact hf) hroom']
  refine ⟨_, rfl, hdropped, ?_⟩
  simp [State.evicted]

end Sys2Proof.Machine
end

section
/-! PROOFS. BusRd and BusRdX in full, on a free victim slot: the start of a BusRd from memory (O30) and from a cache
(O31), the fills that end a phase (O32, O33), and the start of a BusRdX without an owner (O34) and with one (O35,
O36). -/

namespace Sys2Proof.Machine

/-! ### Demands on a free victim slot -/

section

variable {s : State} {c : CoreId} {a : Addr}

theorem exec_busRd_of_free (hf : s.faultCode = .fNone) (hbusy : s.bus.available = false) (hdone : s.bus.done = true)
    (hfree : (s.victimLine c (setOf s.cfg a)).mesi = .invalid) :
    exec (.busRd c a) s = .next (busRdStart c (setOf s.cfg a) (tagOf s.cfg a) s) := by
  rw [exec_busRd hf, observeBusRd_of_waiting hbusy hdone, firstObservation_of_free hf hfree]

theorem exec_busRdX_of_free (hf : s.faultCode = .fNone) (hbusy : s.bus.available = false) (hdone : s.bus.done = true)
    (hfree : (s.victimLine c (setOf s.cfg a)).mesi = .invalid) :
    exec (.busRdX c a) s = .next (busRdXStart c (setOf s.cfg a) (tagOf s.cfg a) s) := by
  rw [exec_busRdX hf, observeBusRdX_of_waiting hbusy hdone, firstObservation_of_free hf hfree]

end

/-! ### The start of a BusRd -/

section

variable {s : State} {c : CoreId} {si : Nat} {t : Tag}

theorem holders_eq_nil (h : ∀ c', c' ≠ c → s.lookup c' si t = none) : s.holders c si t = [] := by
  rw [List.eq_nil_iff_forall_not_mem]
  intro c' hc'
  obtain ⟨hne, hheld⟩ := mem_holders.mp hc'
  exact hheld (h c' hne)

/-- The holders are listed in ascending order, so the lowest one comes first (rule R151). -/
theorem holders_eq_cons {r : CoreId} (hr : r ≠ c) (hheld : s.lookup r si t ≠ none)
    (hlowest : ∀ c', c' ≠ c → c' < r → s.lookup c' si t = none) : ∃ rest, s.holders c si t = r :: rest := by
  have hmem : r ∈ s.holders c si t := mem_holders.mpr ⟨hr, hheld⟩
  have hascending := holders_ascending s c si t
  cases hh : s.holders c si t with
  | nil => simp [hh] at hmem
  | cons x rest =>
    rw [hh] at hmem hascending
    obtain rfl | hrest := List.mem_cons.mp hmem
    · exact ⟨rest, rfl⟩
    · have hlt : x < r := (List.pairwise_cons.mp hascending).1 r hrest
      obtain ⟨hx, hxheld⟩ := mem_holders.mp (hh ▸ List.mem_cons_self ..)
      exact absurd (hlowest x hx hlt) hxheld

end

/-- Settles O30: without holders the start is the one line of a start from memory. -/
theorem busRdStartsFromMemory : Obligations.BusRdStartsFromMemory := by
  unfold Obligations.BusRdStartsFromMemory
  rintro s c a _ hf rfl hbusy hdone hfree hnone
  rw [exec_busRd_of_free hf hbusy hdone hfree, busRdStart, holders_eq_nil hnone]
  rfl

/-- Settles O31: the lowest holder is the first one listed, and it answers. -/
theorem busRdStartsFromLowestHolder : Obligations.BusRdStartsFromLowestHolder := by
  unfold Obligations.BusRdStartsFromLowestHolder
  rintro s c r a _ k _ hf rfl rfl hbusy hdone hfree hr hk hlowest
  obtain ⟨rest, hholders⟩ := holders_eq_cons hr (by simp [hk]) hlowest
  have hshare (b : Bus) : setHolderMesi r (setOf s.cfg a) (tagOf s.cfg a) .shared { s with bus := b } =
      setMesi r (setOf s.cfg a) k .shared { s with bus := b } := by
    unfold setHolderMesi
    rw [show ({ s with bus := b } : State).lookup r (setOf s.cfg a) (tagOf s.cfg a) = some k from hk]
  rw [exec_busRd_of_free hf hbusy hdone hfree, busRdStart, hholders]
  simp only
  rw [busRdStartCache, seq_cons hf, seq_cons (by exact hf), hshare, seq_singleton (by exact hf)]
  rfl

/-! ### The fills -/

/-- The block installed and the bus released (rules R154, R162). -/
theorem fill_of_room {s : State} {c : CoreId} {si : Nat} {t : Tag} {m : Mesi} (hs : ArraysShaped s)
    (hsi : si < s.cfg.numSets) (hf : s.faultCode = .fNone) (hroom : HasRoom s (.lruCtr c) 1) :
    seq [install c si t m, releaseBus] s =
      { s with cache := installedCaches s c si t m, bus := { s.bus with available := true } } := by
  rw [seq_cons hf, install_of_room hs hsi hf hroom, seq_singleton (by exact hf)]
  rfl

section

variable {s : State} {c : CoreId} {a : Addr}

theorem observeBusRd_of_over_memory (hbusy : s.bus.available = false) (hdone : s.bus.done = false)
    (hover : s.bus.cyclesRemaining = 0) (hresp : s.bus.respCore = none) :
    observeBusRd c a s = busRdDoneMem c (setOf s.cfg a) (tagOf s.cfg a) s := by
  simp [observeBusRd, hbusy, hdone, hover, hresp]

theorem observeBusRd_of_over_cache {r : CoreId} (hbusy : s.bus.available = false) (hdone : s.bus.done = false)
    (hover : s.bus.cyclesRemaining = 0) (hresp : s.bus.respCore = some r) :
    observeBusRd c a s = busRdDoneC2C c r (setOf s.cfg a) (tagOf s.cfg a) s := by
  simp [observeBusRd, hbusy, hdone, hover, hresp]

theorem observeBusRdX_of_over (hbusy : s.bus.available = false) (hdone : s.bus.done = false)
    (hover : s.bus.cyclesRemaining = 0) :
    observeBusRdX c a s = busRdXDone c (setOf s.cfg a) (tagOf s.cfg a) s := by
  simp [observeBusRdX, hbusy, hdone, hover]

end

/-- Settles O32: both phases end with the same fill, in different states of the block. -/
theorem memoryPhaseFillsTheRequester : Obligations.MemoryPhaseFillsTheRequester := by
  unfold Obligations.MemoryPhaseFillsTheRequester
  intro s c a hs hf hbusy hdone hover hroom
  refine ⟨fun hmemory => ?_, ?_⟩
  · rw [exec_busRd hf, observeBusRd_of_over_memory hbusy hdone hover hmemory]
    exact congrArg _ (fill_of_room hs (setOf_lt s.cfg a) hf hroom)
  · rw [exec_busRdX hf, observeBusRdX_of_over hbusy hdone hover]
    exact congrArg _ (fill_of_room hs (setOf_lt s.cfg a) hf hroom)

/-- The state once responder `r` has supplied the block to core `c`: the fill, and the charge (rule R155). -/
def State.supplied (s : State) (c r : CoreId) (si : Nat) (t : Tag) : State :=
  { s with
    cache := installedCaches s c si t .shared
    stats := s.stats.set r
      { s.stats.get r with
        dataTrafficBytes := (s.stats.get r).dataTrafficBytes + BitVec.ofNat 64 s.cfg.blockSize } }

section

variable {s : State} {c r : CoreId} {si : Nat} {t : Tag}

theorem busRdDoneC2C_of_room (hs : ArraysShaped s) (hsi : si < s.cfg.numSets) (hf : s.faultCode = .fNone)
    (hlru : HasRoom s (.lruCtr c) 1) (hdata : HasRoom s (.stat r .dataTrafficBytes) s.cfg.blockSize) :
    busRdDoneC2C c r si t s =
      if s.bus.prevMesi = .modified then chainIntervFlush c r .busRd (s.supplied c r si t)
      else releaseBus (s.supplied c r si t) := by
  rw [busRdDoneC2C, seq_cons hf, install_of_room hs hsi hf hlru, seq_inc_of_room (by exact hf) (by exact hdata)]
  exact seq_singleton (by exact hf)

theorem hasRoom_mono {x : Counter} {j k : Nat} (h : HasRoom s x k) (hle : j ≤ k) : HasRoom s x j :=
  Nat.lt_of_le_of_lt (Nat.add_le_add_left hle _) h

/-- Of the responder's counters the supply has used up one block's room. -/
theorem supplied_hasRooms (hdata : HasRoom s (.stat r .dataTrafficBytes) (2 * s.cfg.blockSize))
    (hwritebacks : HasRoom s (.stat r .writebacks) 1) (hcount : HasRoom s .busTransactions 1)
    (htraffic : HasRoom s .busTrafficBytes s.cfg.blockSize) :
    HasRooms (s.supplied c r si t) (writebackCounters r s.cfg.blockSize) := by
  have hvalue := counter_add_toNat (hasRoom_mono hdata (Nat.le_mul_of_pos_left _ two_pos))
  have hmore : HasRoom (s.supplied c r si t) (.stat r .dataTrafficBytes) s.cfg.blockSize := by
    have hnow : (s.supplied c r si t).counter (.stat r .dataTrafficBytes) =
        s.counter (.stat r .dataTrafficBytes) + BitVec.ofNat 64 s.cfg.blockSize := by
      simp [State.supplied, State.counter, Stats.read]
    rw [HasRoom, hnow, hvalue]
    unfold HasRoom at hdata
    omega
  simp only [writebackCounters, hasRooms_cons, hasRooms_nil, and_true]
  exact ⟨by simpa [HasRoom, State.supplied, State.counter, Stats.read] using hwritebacks, hmore, hcount, htraffic⟩

end

/-- Settles O33: the supply, and after it the release of the bus or the responder's writeback. -/
theorem busRdFillsFromCache : Obligations.BusRdFillsFromCache := by
  unfold Obligations.BusRdFillsFromCache
  rintro s c r a _ hs hf rfl hbusy hdone hover hresp
  have hexec : exec (.busRd c a) s = .next (busRdDoneC2C c r (setOf s.cfg a) (tagOf s.cfg a) s) := by
    rw [exec_busRd hf, observeBusRd_of_over_cache hbusy hdone hover hresp]
  refine ⟨fun hclean hrooms => ?_, fun hdirty hrooms => ?_⟩
  · simp only [hasRooms_cons] at hrooms
    obtain ⟨hlru, hdata, -⟩ := hrooms
    rw [hexec, busRdDoneC2C_of_room hs (setOf_lt s.cfg a) hf hlru hdata, if_neg hclean]
    rfl
  · simp only [hasRooms_cons] at hrooms
    obtain ⟨hlru, hdata, hwritebacks, hcount, htraffic, -⟩ := hrooms
    have hsupply := hasRoom_mono hdata (Nat.le_mul_of_pos_left _ two_pos)
    rw [hexec, busRdDoneC2C_of_room hs (setOf_lt s.cfg a) hf hlru hsupply, if_pos hdirty,
      chainIntervFlush_of_room (by exact hf) (supplied_hasRooms hdata hwritebacks hcount htraffic)]
    simp [State.supplied]

/-! ### The start of a BusRdX -/

section

variable {s : State} {c : CoreId} {si : Nat} {t : Tag}

theorem owner_eq_none (h : ∀ c', c' ≠ c → s.mesiOf c' si t ≠ .modified) : s.owner c si t = none := by
  rw [State.owner, List.getLast?_eq_none_iff, List.filter_eq_nil_iff]
  intro c' hc'
  simpa using h c' (mem_holders.mp hc').1

/-- The one MODIFIED holder is the owner (rule R158). -/
theorem owner_eq_some {o : CoreId} (ho : o ≠ c) (h : ∀ c', c' ≠ c → (s.mesiOf c' si t = .modified ↔ c' = o)) :
    s.owner c si t = some o := by
  have hmem (c' : CoreId) :
      c' ∈ (s.holders c si t).filter (fun c => decide (s.mesiOf c si t = .modified)) ↔ c' = o := by
    rw [List.mem_filter, mem_holders, decide_eq_true_iff]
    constructor
    · exact fun ⟨⟨hne, _⟩, hm⟩ => (h c' hne).mp hm
    · rintro rfl
      have hm := (h c' ho).mpr rfl
      exact ⟨⟨ho, fun hnone => by simp [mesiOf_eq_invalid.mpr hnone] at hm⟩, hm⟩
  have hne := List.ne_nil_of_mem ((hmem o).mpr rfl)
  rw [State.owner, List.getLast?_eq_some_getLast hne, (hmem _).mp (List.getLast_mem hne)]

end

/-- Settles O34: without an owner the other copies are invalidated and the phase starts. -/
theorem busRdXStartsFromMemory : Obligations.BusRdXStartsFromMemory := by
  unfold Obligations.BusRdXStartsFromMemory
  rintro s c a _ _ hs hf rfl rfl hbusy hdone hfree hnone
  obtain ⟨q, hinvalidate, -, hothers⟩ :=
    invalidateHolders_spec (c0 := c) (t := tagOf s.cfg a) hs (setOf_lt s.cfg a) hf
  rw [exec_busRdX_of_free hf hbusy hdone hfree, busRdXStart, owner_eq_none hnone]
  simp only
  rw [seq_cons hf, hinvalidate, seq_singleton (by exact hf)]
  exact ⟨_, rfl, hothers, rfl⟩

/-- The state of a BusRdX start before its adjustment: the other copies are gone, which left the caches `q`, and owner
`o`'s writeback is on the bus and charged to it (rule R158). -/
def State.ownerFlushed (s : State) (c o : CoreId) (q : Quad Cache) : State :=
  { s with
    cache := q
    bus := intervFlushBus c o .busRdX s.bus
    stats := s.stats.set o
      { s.stats.get o with
        writebacks := (s.stats.get o).writebacks + 1
        dataTrafficBytes := (s.stats.get o).dataTrafficBytes + BitVec.ofNat 64 s.cfg.blockSize }
    totalBusTransactions := s.totalBusTransactions + 1
    totalBusTrafficBytes := s.totalBusTrafficBytes + BitVec.ofNat 64 s.cfg.blockSize }

/-- BUSRDX_START with owner `o` comes to the adjustment of the requester (rule R158). -/
theorem busRdXStart_of_owner {s : State} {c o : CoreId} {si : Nat} {t : Tag} (hs : ArraysShaped s)
    (hsi : si < s.cfg.numSets) (hf : s.faultCode = .fNone) (ho : s.owner c si t = some o)
    (hrooms : HasRooms s (writebackCounters o s.cfg.blockSize)) :
    ∃ q : Quad Cache, busRdXStart c si t s = adjustRequester c (s.ownerFlushed c o q) ∧
      OtherCopiesInvalidated s (s.ownerFlushed c o q) c si t := by
  obtain ⟨q, hinvalidate, -, hothers⟩ := invalidateHolders_spec (c0 := c) (t := t) hs hsi hf
  have hrooms' : HasRooms { s with cache := q } (writebackCounters o s.cfg.blockSize) :=
    (hasRooms_congr (by simp [writebackCounters, State.counter])).mpr hrooms
  refine ⟨q, ?_, hothers⟩
  rw [busRdXStart, ho]
  simp only
  rw [seq_cons hf, hinvalidate, seq_cons (by exact hf), chainIntervFlush_of_room (by exact hf) hrooms',
    seq_singleton (by exact hf)]
  rfl

/-- The adjustment where it fits: one tick moves from `total_cycles` to `idle_cycles` (rule R158). -/
theorem adjustRequester_of_room {s : State} {c : CoreId} (hf : s.faultCode = .fNone)
    (hcharged : (s.stats.get c).totalCycles ≠ 0) (hroom : HasRoom s (.stat c .idleCycles) 1) :
    adjustRequester c s =
      { s with
        stats := s.stats.set c
          { s.stats.get c with
            totalCycles := (s.stats.get c).totalCycles - 1
            idleCycles := (s.stats.get c).idleCycles + 1 } } := by
  rw [adjustRequester, if_neg (by exact hcharged), seq_cons hf,
    seq_inc_of_room (by simpa using hf) ((hasRoom_setCounter_ne (by simp)).mpr hroom)]
  simp [State.setCounter, State.counter, Stats.read, Stats.write]

/-- The adjustment of a requester without a charged tick (rule R201). -/
theorem adjustRequester_of_uncharged {s : State} {c : CoreId} (hf : s.faultCode = .fNone)
    (hzero : (s.stats.get c).totalCycles = 0) : adjustRequester c s = { s with faultCode := .fUnderflow } := by
  rw [adjustRequester, if_pos (by exact hzero), raise_of_running _ hf]

/-- Settles O35: the owner's charge leaves the requester's counters alone, which the adjustment then finds charged. -/
theorem busRdXChainsOwnerWriteback : Obligations.BusRdXChainsOwnerWriteback := by
  unfold Obligations.BusRdXChainsOwnerWriteback
  rintro s c o a _ _ hs hf rfl rfl hbusy hdone hfree ho howner hrooms hcharged
  obtain ⟨hidle, hwriteback⟩ := hasRooms_cons.mp hrooms
  obtain ⟨q, hstart, hothers⟩ :=
    busRdXStart_of_owner hs (setOf_lt s.cfg a) hf (owner_eq_some ho howner) hwriteback
  have hstats : (s.ownerFlushed c o q).stats.get c = s.stats.get c := Quad.get_set_ne _ _ ho.symm
  rw [exec_busRdX_of_free hf hbusy hdone hfree, hstart,
    adjustRequester_of_room (by exact hf) (by rwa [hstats])
      (by simpa only [HasRoom, State.counter, hstats] using hidle), hstats]
  exact ⟨_, rfl, hothers, rfl⟩

/-- Settles O36: the same start, whose adjustment finds nothing charged. -/
theorem busRdXAdjustmentUnderflowFaults : Obligations.BusRdXAdjustmentUnderflowFaults := by
  unfold Obligations.BusRdXAdjustmentUnderflowFaults
  rintro s c o a _ _ hs hf rfl rfl hbusy hdone hfree ho howner hwriteback hzero
  obtain ⟨q, hstart, hothers⟩ :=
    busRdXStart_of_owner hs (setOf_lt s.cfg a) hf (owner_eq_some ho howner) hwriteback
  have hstats : (s.ownerFlushed c o q).stats.get c = s.stats.get c := Quad.get_set_ne _ _ ho.symm
  rw [exec_busRdX_of_free hf hbusy hdone hfree, hstart, adjustRequester_of_uncharged (by exact hf) (by rwa [hstats])]
  refine ⟨_, rfl, rfl, hstats, hothers, rfl, ?_⟩
  simp [State.ownerFlushed]

end Sys2Proof.Machine
end

section
/-! PROOFS. The illegal and the short phases: a BusUpgr that finds an owner (O24) or a busy bus (O25), and the start and
the end of a FLUSH (O38). -/

namespace Sys2Proof.Machine

/-! ### BusUpgr -/

section

variable {s : State} {c c' : CoreId} {si : Nat} {t : Tag}

/-- SNOOP_UPGR stops at the first holder that is not SHARED; the SHARED ones before it lose their own copies only
(rule R163). -/
theorem seq_snoopUpgrAt_of_owned {L : List CoreId} (hf : s.faultCode = .fNone) (hnd : L.Nodup) (hc' : c' ∈ L)
    (howned : s.mesiOf c' si t ≠ .shared) : (seq (L.map (snoopUpgrAt si t)) s).faultCode = .fCoherence := by
  induction L generalizing s with
  | nil => simp at hc'
  | cons x L ih =>
    obtain ⟨hx, hnd⟩ := List.nodup_cons.mp hnd
    rw [List.map_cons, seq_cons hf, snoopUpgrAt]
    by_cases hshared : s.mesiOf x si t = .shared
    · have hne : c' ≠ x := fun e => howned (e ▸ hshared)
      rw [if_pos hshared]
      refine ih (by simpa using hf) hnd ((List.mem_cons.mp hc').resolve_left hne) ?_
      rwa [mesiOf_congr (setLines_setHolderMesi_ne hne)]
    · rw [if_neg hshared, raise_of_running _ hf, seq_of_faulted (by simp)]

theorem snoopUpgr_of_owned (hf : s.faultCode = .fNone) (hne : c' ≠ c) (hheld : s.mesiOf c' si t ≠ .invalid)
    (howned : s.mesiOf c' si t ≠ .shared) : (snoopUpgr c si t s).faultCode = .fCoherence :=
  seq_snoopUpgrAt_of_owned hf (holders_nodup s c si t)
    (mem_holders.mpr ⟨hne, fun h => hheld (mesiOf_eq_invalid.mpr h)⟩) howned

/-- SNOOP_UPGR counts nothing and completes nothing (rule R163). -/
theorem snoopUpgr_keeps_counts (s : State) (c : CoreId) (si : Nat) (t : Tag) :
    (snoopUpgr c si t s).stats = s.stats ∧ (snoopUpgr c si t s).pc = s.pc ∧
      (snoopUpgr c si t s).totalBusTransactions = s.totalBusTransactions := by
  have h := seq_keeps (fun u => (u.stats, u.pc, u.totalBusTransactions))
    (fs := (s.holders c si t).map (snoopUpgrAt si t)) (List.forall_mem_map.mpr fun c' _ u => by
      unfold snoopUpgrAt
      split <;> simp) s
  exact ⟨congrArg Prod.fst h, congrArg (fun p => p.2.1) h, congrArg (fun p => p.2.2) h⟩

/-- An upgrade whose snoop raises a fault ends there (rules R129, R198). -/
theorem busUpgr_of_snoop_faulted {a : Addr} {k : Nat} (hf : s.faultCode = .fNone)
    (h : (snoopUpgr c (setOf s.cfg a) (tagOf s.cfg a) { s with bus := upgradeBus c a s.bus }).faultCode ≠ .fNone) :
    busUpgr c a k s = snoopUpgr c (setOf s.cfg a) (tagOf s.cfg a) { s with bus := upgradeBus c a s.bus } := by
  rw [busUpgr, seq_cons hf, seq_cons (by exact hf)]
  exact seq_of_faulted h

end

/-- Settles O24: the snoop of the upgrade meets the owner, and nothing is written after it. -/
theorem busUpgrFindingAnOwnerFaults : Obligations.BusUpgrFindingAnOwnerFaults := by
  unfold Obligations.BusUpgrFindingAnOwnerFaults
  intro s c c' a hf hav hshared hne howner
  obtain ⟨k, hk⟩ := lookup_of_mesiOf (s := s) (c := c) (si := setOf s.cfg a) (t := tagOf s.cfg a) (by simp [hshared])
  have hfault := snoopUpgr_of_owned (s := { s with bus := upgradeBus c a s.bus }) (c := c) (c' := c')
    (si := setOf s.cfg a) (t := tagOf s.cfg a) hf hne
    (fun h => by obtain ho | ho := howner <;> cases ho.symm.trans h)
    (fun h => by obtain ho | ho := howner <;> cases ho.symm.trans h)
  rw [execBusUpgr_of_shared hf hav hk hshared, busUpgr_of_snoop_faulted hf (by simp [hfault])]
  exact ⟨_, rfl, hfault, snoopUpgr_keeps_counts _ c _ _⟩

/-- A snoop that reads no source core runs the command of its record, whatever core that names (log 9). -/
theorem command_of_sourceless {b : Bus} (h : b.needsSource = false) :
    ∃ c, b.command = some (BusFields.command { x := b.evict, t := b.reqType, c := c, a := b.addr }) := by
  unfold Bus.command
  split
  case h_1 c _ => exact ⟨c, rfl⟩
  case h_2 => exact ⟨0, by rw [h, if_neg (by simp)]⟩

/-- Settles O25: BUSUPGR reads no source core, and its command on a busy bus raises the fault. -/
theorem busUpgrOnBusyBusFaults : Obligations.BusUpgrOnBusyBusFaults := by
  unfold Obligations.BusUpgrOnBusyBusFaults
  intro s hf hbusy
  have hexec (c : CoreId) (a : Addr) : exec (.busUpgr c a) s = .next { s with faultCode := .fBusState } := by
    rw [exec_busUpgr_of_busy hf hbusy, raise_of_running _ hf]
  refine ⟨fun hreq => ?_, hexec⟩
  obtain ⟨c, hcommand⟩ := command_of_sourceless (b := s.bus) (by simp [Bus.needsSource, hreq])
  simp only [BusFields.command, hreq] at hcommand
  rw [snoop, snoopLoop_succ hf hbusy hcommand, hexec]
  rfl

/-! ### Flush -/

section

variable {s : State}

theorem observeFlushEvict_of_waiting (hbusy : s.bus.available = false) (hdone : s.bus.done = true) :
    observeFlushEvict s = flushStart s := by simp [observeFlushEvict, hbusy, hdone]

theorem observeFlushInterv_of_waiting (hbusy : s.bus.available = false) (hdone : s.bus.done = true) :
    observeFlushInterv s = flushStart s := by simp [observeFlushInterv, hbusy, hdone]

theorem observeFlushEvict_of_over (hbusy : s.bus.available = false) (hdone : s.bus.done = false)
    (hover : s.bus.cyclesRemaining = 0) : observeFlushEvict s = evictDone s := by
  simp [observeFlushEvict, hbusy, hdone, hover]

theorem observeFlushInterv_of_over (hbusy : s.bus.available = false) (hdone : s.bus.done = false)
    (hover : s.bus.cyclesRemaining = 0) : observeFlushInterv s = intervDone s := by
  simp [observeFlushInterv, hbusy, hdone, hover]

end

/-- Settles O38: both flushes have one start, and each its own end. -/
theorem flushPhasesStartAndEnd : Obligations.FlushPhasesStartAndEnd := by
  unfold Obligations.FlushPhasesStartAndEnd
  intro s c a hf hbusy
  refine ⟨fun hdone i hi => ?_, fun hdone hover => ⟨?_, fun hread => ?_, fun hwrite => ?_⟩⟩
  · obtain rfl | rfl := hi
    · rw [exec_flushEvict hf, observeFlushEvict_of_waiting hbusy hdone]
      rfl
    · rw [exec_flushInterv hf, observeFlushInterv_of_waiting hbusy hdone]
      rfl
  · rw [exec_flushEvict hf, observeFlushEvict_of_over hbusy hdone hover]
    rfl
  · rw [exec_flushInterv hf, observeFlushInterv_of_over hbusy hdone hover, intervDone, if_pos hread, hread]
  · rw [exec_flushInterv hf, observeFlushInterv_of_over hbusy hdone hover, intervDone,
      if_neg (by simp [hwrite]), hwrite]

end Sys2Proof.Machine
end

section
/-! PROOFS. The snoop and the tick: a phase in progress is left alone by a snoop (O39) and counts down over a step
(O45), a snoop ends within three iterations (O40), and a step runs decoded commands in the order of a tick (O41). -/

namespace Sys2Proof.Machine

/-! ### A phase in progress -/

/-- A phase has been observed once and has ticks to go: there is nothing to observe (rule R165). -/
structure Bus.InProgress (b : Bus) : Prop where
  busy : b.available = false
  done : b.done = false
  ticksLeft : b.cyclesRemaining ≠ 0
  legal : b.reqType ≠ .busUpgr

section

variable {s : State}

/-- The command on the bus finds nothing to do, and no source core is read (rule R165). -/
theorem command_of_inProgress (hf : s.faultCode = .fNone) (h : s.bus.InProgress) :
    ∃ i, s.bus.command = some i ∧ exec i s = .next s := by
  obtain ⟨hbusy, hdone, hticks, hlegal⟩ := h
  replace hticks : ¬ s.bus.cyclesRemaining = 0#32 := hticks
  obtain ⟨c, hcommand⟩ := command_of_sourceless (b := s.bus) (by
    cases hreq : s.bus.reqType <;> simp [Bus.needsSource, hreq, hdone, hticks])
  refine ⟨_, hcommand, ?_⟩
  cases hreq : s.bus.reqType with
  | busRd => simp [BusFields.command, exec_busRd hf, observeBusRd, hbusy, hdone, hticks]
  | busRdX => simp [BusFields.command, exec_busRdX hf, observeBusRdX, hbusy, hdone, hticks]
  | busUpgr => exact absurd hreq hlegal
  | flush =>
    cases hevict : s.bus.evict with
    | true => simp [BusFields.command, exec_flushEvict hf, observeFlushEvict, hbusy, hdone, hticks]
    | false => simp [BusFields.command, exec_flushInterv hf, observeFlushInterv, hbusy, hdone, hticks]

theorem snoop_of_inProgress (hf : s.faultCode = .fNone) (h : s.bus.InProgress) : snoop s = .next s := by
  obtain ⟨i, hcommand, hexec⟩ := command_of_inProgress hf h
  rw [snoop, snoopLoop_succ hf h.busy hcommand, hexec]
  simp [hf, h.done]

end

/-- Settles O39: the snoop of an available bus ends at once, and that of a phase in progress after one iteration. -/
theorem runningPhaseIsLeftAlone : Obligations.RunningPhaseIsLeftAlone := by
  unfold Obligations.RunningPhaseIsLeftAlone
  exact fun s => ⟨snoopLoop_available, fun hf hbusy hdone hticks hlegal =>
    snoop_of_inProgress hf ⟨hbusy, hdone, hticks, hlegal⟩⟩

/-- An access is classified as an issue only where the bus is available (rule R130). -/
theorem available_of_classify_issue {s : State} {c : CoreId} {a : Addr} {w : Bool} (h : s.classify c a w = .issue) :
    s.bus.available = true := by
  by_contra hbusy
  simp only [State.classify, hbusy, if_false] at h
  split at h
  · split at h
    · cases h
    · split at h <;> cases h
  · cases h

/-- On a busy bus an access hits or stalls, and writes nothing of the bus record (rules R128, R130). -/
theorem access_bus_of_busy {c : CoreId} {a : Addr} {w : Bool} {s : State} (hbusy : s.bus.available = false) :
    (access c a w s).bus = s.bus := by
  unfold access
  split
  case h_1 => exact completeAccess_bus _ _ _ _ s
  case h_2 => exact seq_keeps State.bus (by simp) s
  case h_3 k hk => simp [available_of_classify_upgrade hk] at hbusy
  case h_4 hissue => simp [available_of_classify_issue hissue] at hbusy
  case h_5 => exact stall_bus _ s

theorem coreTurn_bus_of_busy {c : CoreId} {s t : State} (hf : s.faultCode = .fNone) (hbusy : s.bus.available = false)
    (h : coreTurn c s = .next t) : t.bus = s.bus := by
  obtain rfl | ⟨-, -, rfl⟩ | ⟨a, w, -, -, rfl, -⟩ := coreTurn_access_cases hf h
  · rfl
  · rfl
  · exact access_bus_of_busy (s := { s with turn := c }) hbusy

/-- The stages of a tick before the countdown leave the record of a phase in progress alone. -/
theorem bus_before_countdown {s t : State} (hphase : s.bus.InProgress)
    (h : stages (openingStages ++ [snoop]) s = .next t) : t.bus = s.bus := by
  have hsnoop (u v : State) (hf : u.faultCode = .fNone) (hu : u.bus = s.bus) (huv : snoop u = .next v) :
      v.bus = s.bus := by
    rw [snoop_of_inProgress hf (hu ▸ hphase)] at huv
    cases huv
    exact hu
  refine stages_induct (fun u => u.bus = s.bus) ?_ rfl h
  simp only [openingStages, List.forall_mem_append, List.forall_mem_cons, List.forall_mem_map, Host.Outcome.next.injEq]
  refine ⟨⟨⟨hsnoop, fun c _ u v hf hu huv => ?_⟩, fun u v _ hu huv => huv ▸ hu, by simp⟩, hsnoop, by simp⟩
  exact (coreTurn_bus_of_busy hf (hu ▸ hphase.busy) huv).trans hu

/-- Settles O45: of the stages of the tick only the countdown writes the record. -/
theorem busyPhaseCountsDown : Obligations.BusyPhaseCountsDown := by
  unfold Obligations.BusyPhaseCountsDown
  intro s t hf hactive hbusy hdone hticks hlegal hstep ht
  have htick : stages ((openingStages ++ [snoop]) ++ countingStages) s = .next t := by
    obtain ⟨-, ⟨hstopped, -⟩ | ⟨-, h⟩⟩ := step_eq_next hstep
    · simp [ticking_iff.mpr ⟨hf, hactive⟩] at hstopped
    · exact h
  obtain ⟨u, hbefore, hcounting⟩ := stages_append_eq_next.mp htick
  obtain ⟨_, ⟨⟩, hclosing⟩ := (stages_cons_eq_next (unfaulted_of_stages hcounting ht)).mp hcounting
  have hclosed : t.bus = (countdown u).bus := stages_keep State.bus (by simp) hclosing
  rw [hclosed, countdown, bus_before_countdown ⟨hbusy, hdone, hticks, hlegal⟩ hbefore, if_neg hticks]

/-! ### Iterations of the snoop -/

section

variable {s : State} {c : CoreId} {si : Nat} {t : Tag}

theorem chainEvictFlush_bus {req : ReqType} (hf : s.faultCode = .fNone) :
    (chainEvictFlush c req s).bus = evictFlushBus req s.bus := by
  rw [chainEvictFlush, seq_cons hf]
  exact seq_keeps State.bus (by simp) _

theorem chainIntervFlush_bus {o : CoreId} {req : ReqType} (hf : s.faultCode = .fNone) :
    (chainIntervFlush c o req s).bus = intervFlushBus c o req s.bus := by
  rw [chainIntervFlush, seq_cons hf]
  exact seq_keeps State.bus (by simp) _

/-- The preparation of a dirty victim puts its writeback on the bus, unless a fault stops it before (rule R149). -/
theorem victimPrep_bus_of_dirty {req : ReqType} (hdirty : (s.victimLine c si).mesi = .modified)
    (h : (victimPrep c si req s).faultCode = .fNone) : (victimPrep c si req s).bus = evictFlushBus req s.bus := by
  unfold victimPrep at h ⊢
  simp only at h ⊢
  rw [if_pos (by simp [Line.valid, hdirty])] at h ⊢
  obtain ⟨-, -, hevict⟩ := seq_cons_of_unfaulted h
  rw [hevict] at h ⊢
  obtain ⟨-, hpromoted, hpromote⟩ := seq_cons_of_unfaulted h
  rw [hpromote, seq_singleton hpromoted, if_pos hdirty, chainEvictFlush_bus hpromoted, promoteLastSharer_bus,
    evictVictim_bus]

/-- Nothing of the record is left to be observed but a writeback. -/
def Bus.Observed (b : Bus) : Prop := b.done = false ∨ b.reqType = .flush

theorem busRdStart_observed (hf : s.faultCode = .fNone) : (busRdStart c si t s).bus.Observed := by
  unfold busRdStart
  split
  · exact .inl rfl
  · rw [busRdStartCache, seq_cons hf, seq_cons (by exact hf), seq_singleton (by simpa using hf)]
    exact .inl rfl

theorem busRdXStart_observed (h : (busRdXStart c si t s).faultCode = .fNone) : (busRdXStart c si t s).bus.Observed := by
  unfold busRdXStart at h ⊢
  split
  case h_1 howner =>
    simp only [howner] at h
    obtain ⟨-, hinvalidated, hseq⟩ := seq_cons_of_unfaulted h
    rw [hseq, seq_singleton hinvalidated]
    exact .inl rfl
  case h_2 o howner =>
    simp only [howner] at h
    obtain ⟨-, hinvalidated, hseq⟩ := seq_cons_of_unfaulted h
    rw [hseq] at h ⊢
    obtain ⟨-, hchained, hseq⟩ := seq_cons_of_unfaulted h
    rw [hseq, seq_singleton hchained, adjustRequester_bus, chainIntervFlush_bus hinvalidated]
    exact .inr rfl

theorem firstObservation_observed {req : ReqType} {start : State → State}
    (hstart : ∀ u, u.faultCode = .fNone → (start u).faultCode = .fNone → (start u).bus.Observed)
    (h : (firstObservation c si req start s).faultCode = .fNone) :
    (firstObservation c si req start s).bus.Observed := by
  by_cases hdirty : (s.victimLine c si).mesi = .modified
  · rw [firstObservation_of_dirty hdirty] at h ⊢
    rw [victimPrep_bus_of_dirty hdirty h]
    exact .inr rfl
  · rw [firstObservation, if_neg (by simpa [State.victimDirty] using hdirty)] at h ⊢
    obtain ⟨-, hprepared, hseq⟩ := seq_cons_of_unfaulted h
    rw [hseq, seq_singleton hprepared] at h ⊢
    exact hstart _ hprepared h

end

theorem exists_core_of_command {b : Bus} {i : Instr} (h : b.command = some i) :
    ∃ c, i = BusFields.command { x := b.evict, t := b.reqType, c := c, a := b.addr } := by
  unfold Bus.command at h
  split at h
  · exact ⟨_, (Option.some.inj h).symm⟩
  · split at h
    · cases h
    · exact ⟨_, (Option.some.inj h).symm⟩

theorem Bus.Observed.closer {s u : State} (h : u.bus.Observed) (hreq : s.bus.reqType ≠ .flush) : Closer s u :=
  h.elim closer_of_started (closer_of_writeback hreq)

/-- In every state an iteration that raises no fault brings the snoop closer to its end (42_bus_snoop.md section 7). -/
theorem snooped_closer {i : Instr} {s t : State} (hf : s.faultCode = .fNone) (hbusy : s.bus.available = false)
    (hi : s.bus.command = some i) (ht : exec i s = .next t) (htf : t.faultCode = .fNone) : Closer s t := by
  cases hdone : s.bus.done with
  | false => exact closer_of_ended hdone
  | true =>
    obtain ⟨c, rfl⟩ := exists_core_of_command hi
    cases hreq : s.bus.reqType with
    | busRd =>
      simp only [BusFields.command, hreq, exec_busRd hf, observeBusRd_of_waiting hbusy hdone] at ht
      cases ht
      exact (firstObservation_observed (fun u hu _ => busRdStart_observed hu) htf).closer (by simp [hreq])
    | busRdX =>
      simp only [BusFields.command, hreq, exec_busRdX hf, observeBusRdX_of_waiting hbusy hdone] at ht
      cases ht
      exact (firstObservation_observed (fun u _ => busRdXStart_observed) htf).closer (by simp [hreq])
    | busUpgr =>
      simp only [BusFields.command, hreq, exec_busUpgr_of_busy hf hbusy, raise_of_running _ hf] at ht
      cases ht
      cases htf
    | flush =>
      cases hevict : s.bus.evict with
      | true =>
        simp only [BusFields.command, hreq, hevict, if_true, exec_flushEvict hf] at ht
        cases ht
        exact closer_of_started (by rw [observeFlushEvict_of_waiting hbusy hdone]; rfl)
      | false =>
        simp only [BusFields.command, hreq, hevict, Bool.false_eq_true, if_false, exec_flushInterv hf] at ht
        cases ht
        exact closer_of_started (by rw [observeFlushInterv_of_waiting hbusy hdone]; rfl)

/-- Fuel beyond the iterations that a snoop may need makes no difference. -/
theorem snoopLoop_eq_of_enough {m n : Nat} {s : State} (hm : s.bus.snoopsLeft ≤ m) (hn : s.bus.snoopsLeft ≤ n) :
    snoopLoop m s = snoopLoop n s := by
  induction m generalizing n s with
  | zero => exact absurd (snoopsLeft_le s.bus).1 (by omega)
  | succ m ih =>
    obtain ⟨n, rfl⟩ := Nat.exists_eq_succ_of_ne_zero (show n ≠ 0 by have := (snoopsLeft_le s.bus).1; omega)
    cases hbusy : s.bus.available with
    | true => rw [snoopLoop_available hbusy, snoopLoop_available hbusy]
    | false =>
      cases hi : s.bus.command with
      | none => simp [snoopLoop, hbusy, hi]
      | some i =>
        by_cases hf : s.faultCode = .fNone
        · rw [Nat.succ_eq_add_one, snoopLoop_succ hf hbusy hi, snoopLoop_succ hf hbusy hi]
          obtain ⟨t, ht⟩ := exec_answers_of_busy hbusy i
          simp only [ht]
          split
          case isFalse => rfl
          case isTrue htf =>
            split
            case isFalse => rfl
            case isTrue hdone =>
              have hcloser := snooped_closer hf hbusy hi ht htf hdone
              exact ih (by omega) (by omega)
        · simp [snoopLoop, hbusy, hi, stages_of_faulted hf]

/-- Settles O40: three iterations are as many as any bus record may need. -/
theorem snoopEndsWithinThreeIterations : Obligations.SnoopEndsWithinThreeIterations := by
  unfold Obligations.SnoopEndsWithinThreeIterations
  intro n s
  have hthree := (snoopsLeft_le s.bus).2
  exact snoopLoop_eq_of_enough (by omega) hthree

/-! ### Decoded commands -/

/-- The bus word decodes to the command of the record it is packed from (rules R91, R97). -/
theorem command_of_decoded_word {b : Bus} {w : BusWord} {i : Instr} (hw : b.word = some w)
    (hi : decode (.bus w) = .instr i) : b.command = some i := by
  obtain ⟨c, hsrc, rfl⟩ := Option.map_eq_some_iff.mp hw
  obtain ⟨-, rfl⟩ := (decodeBus_eq_instr_iff _ i).mp hi
  rw [busFields_packBus, Bus.command, hsrc]

/-- The saturating countdown of the tick (rule R183). -/
theorem countdown_eq (s : State) :
    countdown s =
      { s with bus := { s.bus with cyclesRemaining := BitVec.ofNat 32 (s.bus.cyclesRemaining.toNat - 1) } } := by
  have hcycles : (if s.bus.cyclesRemaining = 0 then 0 else s.bus.cyclesRemaining - 1) =
      BitVec.ofNat 32 (s.bus.cyclesRemaining.toNat - 1) := by
    split
    case isTrue h => rw [h]; rfl
    case isFalse h => bv_omega
  rw [countdown, hcycles]

theorem coreTurn_of_record {s : State} {c : CoreId} {w : ReqWord} (hactive : s.coreDone.get c = false)
    (hw : s.fetch c = some w) : coreTurn c s = exec (decodeReq w) { s with turn := c } := by
  simp [coreTurn, hactive, hw]

/-- Settles O41: a turn decodes its record's word, an iteration runs the command that the bus word decodes to, and a
tick is the stages in their order. -/
theorem stepRunsTheDecodedCommands : Obligations.StepRunsTheDecodedCommands := by
  unfold Obligations.StepRunsTheDecodedCommands
  refine ⟨fun s c w i hactive hw hi => ?_, fun s t w i n hf hbusy hw hi ht htf => ?_, fun s hcfg hf hactive => ?_⟩
  · obtain rfl : decodeReq w = i := Decoded.instr.inj hi
    exact coreTurn_of_record hactive hw
  · rw [snoopLoop_succ hf hbusy (command_of_decoded_word hw hi), ht]
    simp only [htf, if_true]
  · simp only [← countdown_eq]
    rw [step, advance, if_pos hcfg, if_pos (ticking_iff.mpr ⟨hf, hactive⟩)]
    rfl

end Sys2Proof.Machine
end

section
/-! PROOFS. The tick and its core turns: a tick without a fault counts one (O46), a turn retires the core, attempts an
access or does nothing (O42), and empty traces take one tick (O49). -/

namespace Sys2Proof.Machine

/-! ### The tick count -/

/-- Settles O46: with a core active and no fault at its end the step is a tick, and a tick counts itself. -/
theorem tickCountsOne : Obligations.TickCountsOne := by
  unfold Obligations.TickCountsOne
  intro s t hactive hstep ht
  obtain ⟨-, ⟨hstopped, rfl⟩ | ⟨-, htick⟩⟩ := step_eq_next hstep
  · simp [ticking_iff.mpr ⟨ht, hactive⟩] at hstopped
  · exact tick_globalCycle htick ht

/-! ### The core turn -/

theorem coreTurn_of_retired {s : State} {c : CoreId} (hdone : s.coreDone.get c = true) : coreTurn c s = .next s := by
  simp [coreTurn, hdone]

theorem coreTurn_of_past_end {s : State} {c : CoreId} (hactive : s.coreDone.get c = false)
    (hend : (s.traces.get c).length ≤ s.pc.get c) : coreTurn c s = .next (retire c s) := by
  have hfetch : s.fetch c = none := List.getElem?_eq_none hend
  simp [coreTurn, hactive, hfetch]

/-- Settles O42: the record's word decodes to the command it was packed from. -/
theorem coreTurnRetiresOrAccesses : Obligations.CoreTurnRetiresOrAccesses := by
  unfold Obligations.CoreTurnRetiresOrAccesses
  refine fun s c => ⟨coreTurn_of_retired, fun hactive hend _ => coreTurn_of_past_end hactive hend,
    fun op a hactive hrecord => ?_⟩
  rw [coreTurn_of_record hactive hrecord, decodeReq_packReq]

/-! ### The tick of empty traces -/

theorem stages_cons_of_next {f : State → Answer} {fs : List (State → Answer)} {s u : State}
    (hs : s.faultCode = .fNone) (h : f s = .next u) : stages (f :: fs) s = stages fs u := by
  simp [stages, hs, h]

/-- The turns of distinct cores past the end of their traces retire them one after the other (rule R181). -/
theorem stages_turns_of_past_end {cs : List CoreId} {fs : List (State → Answer)} {s : State} (hcs : cs.Nodup)
    (hf : s.faultCode = .fNone) (hactive : ∀ c ∈ cs, s.coreDone.get c = false)
    (hend : ∀ c ∈ cs, (s.traces.get c).length ≤ s.pc.get c) :
    stages (cs.map coreTurn ++ fs) s = stages fs (cs.foldl (fun u c => retire c u) s) := by
  induction cs generalizing s with
  | nil => rfl
  | cons c cs ih =>
    obtain ⟨hc, hcs⟩ := List.nodup_cons.mp hcs
    obtain ⟨hactive, hactives⟩ := List.forall_mem_cons.mp hactive
    obtain ⟨hend, hends⟩ := List.forall_mem_cons.mp hend
    have hothers (c' : CoreId) (hc' : c' ∈ cs) : (retire c s).coreDone.get c' = false := by
      rw [retire, Quad.get_set_ne _ _ (ne_of_mem_of_not_mem hc' hc), hactives c' hc']
    exact (stages_cons_of_next hf (coreTurn_of_past_end hactive hend)).trans (ih hcs hf hothers hends)

theorem checkInvariants_of_no_listed_set {s : State} (h : s.listedSets = []) : checkInvariants s = s := by
  simp [checkInvariants, h]

/-- The block after the core pass of the first tick with empty traces: every core has retired. -/
def State.resetRetired (cfg : Config) : State :=
  { State.resetWith cfg (Quad.rep []) with coreDone := Quad.rep true, activeCores := 0 }

/-- The pre-snoop finds the bus available, and each of the four turns finds its trace at the end. -/
theorem tick_resetWith_empty (cfg : Config) :
    tick (State.resetWith cfg (Quad.rep [])) = stages closingStages (State.resetRetired cfg) := by
  calc tick (State.resetWith cfg (Quad.rep []))
      = stages (allCores.map coreTurn ++ closingStages) (State.resetWith cfg (Quad.rep [])) :=
        stages_cons_of_next rfl (snoopLoop_available rfl)
    _ = stages closingStages (State.resetRetired cfg) :=
        stages_turns_of_past_end (by decide) rfl (fun c _ => Quad.get_rep false c)
          (fun c _ => by simp [State.resetWith])

/-- Of the stages after the turns only the count writes: the bus is idle and no cache lists a set. -/
theorem closingStages_resetRetired (cfg : Config) :
    stages closingStages (State.resetRetired cfg) = .next { State.resetRetired cfg with globalCycle := 1 } := by
  have hcount : inc .globalCycle 1 (State.resetRetired cfg) = { State.resetRetired cfg with globalCycle := 1 } :=
    inc_of_room (show (0 : Nat) + 1 < 2 ^ 64 by decide)
  calc stages closingStages (State.resetRetired cfg)
      = stages (snoop :: countingStages) (State.resetRetired cfg) := stages_cons_of_next rfl rfl
    _ = stages countingStages (State.resetRetired cfg) := stages_cons_of_next rfl (snoopLoop_available rfl)
    _ = stages countingStages.tail (State.resetRetired cfg) := stages_cons_of_next rfl rfl
    _ = stages countingStages.tail.tail { State.resetRetired cfg with globalCycle := 1 } :=
        stages_cons_of_next rfl (congrArg _ hcount)
    _ = .next { State.resetRetired cfg with globalCycle := 1 } :=
        stages_cons_of_next rfl (congrArg _ (checkInvariants_of_no_listed_set rfl))

theorem step_of_ticking {s : State} (hcfg : s.cfg.legal = true) (h : s.ticking = true) : step s = tick s := by
  simp [step, advance, hcfg, h]

/-- Settles O49: the first tick from reset retires the four cores, and its closing stages count it. -/
theorem emptyTracesTakeOneTick : Obligations.EmptyTracesTakeOneTick := by
  unfold Obligations.EmptyTracesTakeOneTick
  intro cfg hcfg
  have hticking : (State.resetWith cfg (Quad.rep [])).ticking = true := ticking_iff.mpr ⟨rfl, four_ne_zero⟩
  rw [step_of_ticking hcfg hticking, tick_resetWith_empty, closingStages_resetRetired]
  rfl

end Sys2Proof.Machine
end

section
/-! PROOFS. Where a fault comes from: the end-of-tick check raises the violation of the lowest set that has one (O48),
and no run from reset raises a fault but an overflow (O56). -/

namespace Sys2Proof.Machine

/-! ### The first violation -/

/-- Set `si` has no violation: the set invariant holds in every cache, and P1 of every block of the set (rules R26,
R73). -/
def State.SetSafe (s : State) (si : Nat) : Prop :=
  (∀ c, uniqueTags (s.setLines c si) = true) ∧ ∀ t, coherentCopies (s.copies si t) = true

theorem setViolation_eq_none_iff {s : State} {si : Nat} : s.setViolation si = none ↔ s.SetSafe si := by
  rw [setViolation_spec, State.SetSafe]
  split
  case isTrue hunique => simp [hunique]
  case isFalse hrepeated => simp [hrepeated]

theorem setViolation_of_repeated_tag {s : State} {c : CoreId} {si : Nat} (h : uniqueTags (s.setLines c si) = false) :
    s.setViolation si = some .fSetDuplicate := by
  rw [setViolation_spec, if_neg fun hunique => by simp [hunique c] at h]

theorem setViolation_of_incoherent {s : State} {si : Nat} {t : Tag}
    (hunique : ∀ c, uniqueTags (s.setLines c si) = true) (h : coherentCopies (s.copies si t) = false) :
    s.setViolation si = some .fCoherence := by
  rw [setViolation_spec, if_pos hunique, if_neg fun hcoherent => by simp [hcoherent t] at h]

/-- Only a set that some cache lists can have a violation. -/
theorem listed_of_setViolation {s : State} {si : Nat} {code : FaultCode} (h : s.setViolation si = some code) :
    si ∈ s.listedSets := by
  by_contra hunlisted
  simp [setViolation_eq_none_iff.mpr (unlisted_is_safe hunlisted)] at h

theorem checkInvariants_of_safe {s : State} (h : ∀ si, s.SetSafe si) : checkInvariants s = s := by
  have hnone : s.listedSets.findSome? s.setViolation = none :=
    List.findSome?_eq_none_iff.mpr fun si _ => setViolation_eq_none_iff.mpr (h si)
  simp [checkInvariants, hnone]

/-- A search of a rising list answers at the lowest index that has an answer. -/
theorem findSome?_of_rising {β : Type} {l : List Nat} {f : Nat → Option β} {i : Nat} {b : β}
    (hl : l.Pairwise (· < ·)) (hmem : i ∈ l) (hbelow : ∀ j < i, f j = none) (hi : f i = some b) :
    l.findSome? f = some b := by
  obtain ⟨l₁, l₂, rfl⟩ := List.append_of_mem hmem
  obtain ⟨-, -, hlt⟩ := List.pairwise_append.mp hl
  exact List.findSome?_eq_some_iff.mpr ⟨l₁, i, l₂, rfl, hi, fun j hj => hbelow j (hlt j hj i List.mem_cons_self)⟩

/-- The listed sets are visited in ascending order, so the lowest violation is the first found (rule R200). -/
theorem checkInvariants_of_first_violation {s : State} {si : Nat} {code : FaultCode} (hf : s.faultCode = .fNone)
    (hbelow : ∀ sj < si, s.SetSafe sj) (h : s.setViolation si = some code) :
    checkInvariants s = { s with faultCode := code } := by
  have hfirst : s.listedSets.findSome? s.setViolation = some code :=
    findSome?_of_rising (listedSets_rising s) (listed_of_setViolation h)
      (fun sj hsj => setViolation_eq_none_iff.mpr (hbelow sj hsj)) h
  simp only [checkInvariants, hfirst, raise_of_running code hf]

/-- Settles O48: a set with a violation is listed, and the check visits the listed sets in ascending order. -/
theorem firstViolationIsRaised : Obligations.FirstViolationIsRaised := by
  unfold Obligations.FirstViolationIsRaised
  refine fun s _ hf => ⟨fun hunique hcoherent => ?_, fun si hbelow => ⟨?_, ?_⟩⟩
  · exact checkInvariants_of_safe fun si => ⟨fun c => hunique c si, hcoherent si⟩
  · rintro ⟨c, hrepeated⟩
    exact checkInvariants_of_first_violation hf hbelow (setViolation_of_repeated_tag hrepeated)
  · rintro hunique ⟨t, hincoherent⟩
    exact checkInvariants_of_first_violation hf hbelow (setViolation_of_incoherent hunique hincoherent)

/-! ### Runs from reset -/

theorem resetWith_shaped {cfg : Config} {tr : Quad (List ReqWord)} (hcfg : cfg.legal = true)
    (htr : ∀ c, traceFits (tr.get c) = true) : Shaped (State.resetWith cfg tr) := by
  refine ⟨hcfg, htr, fun c => ?_, ⟨rfl, fun c => ?_⟩, BusLegal.of_available rfl⟩
  · simp [State.resetWith, setsWF]
  · simp [State.resetWith]

/-- After reset no set is listed and the bus is idle, so no set has a violation and no phase binds the caches. -/
theorem resetWith_runSafe (cfg : Config) (tr : Quad (List ReqWord)) : RunSafe (State.resetWith cfg tr) := by
  have hlisted : (State.resetWith cfg tr).listedSets = [] := rfl
  obtain ⟨hunique, hcoherent⟩ := safe_of_listed (s := State.resetWith cfg tr) (by simp [hlisted])
  exact .inr ⟨rfl, hunique, hcoherent, phaseHolds_of_available rfl, fun _ => rfl⟩

theorem Reachable.shaped {s : State} (h : Reachable s) : Shaped s := by
  induction h with
  | reset cfg tr hcfg htr => exact resetWith_shaped hcfg htr
  | step u v _ hstep ih => exact stepKeepsShape u v ih hstep

theorem Reachable.runSafe {s : State} (h : Reachable s) : RunSafe s := by
  induction h with
  | reset cfg tr _ _ => exact resetWith_runSafe cfg tr
  | step u v hu hstep ih => exact stepKeepsRunSafe u v hu.shaped ih hstep

/-- Settles O56: the run invariants hold in every reachable state, and they allow no other fault. -/
theorem runsFaultOnlyByOverflow : Obligations.RunsFaultOnlyByOverflow := by
  unfold Obligations.RunsFaultOnlyByOverflow
  intro s hs
  obtain hover | ⟨hnone, -⟩ := hs.runSafe
  · exact .inr hover
  · exact .inl hnone

end Sys2Proof.Machine
end

section
/-! PROOFS. The base case of the three step lemmas (O52): reset has the shape, the run invariants and the accounting,
since after it no set is listed, the bus is available, and every counter and program counter is zero. -/

namespace Sys2Proof.Machine

/-- P4, P5 and P7 compare zero counts after reset. -/
theorem resetWith_accounted (cfg : Config) (tr : Quad (List ReqWord)) : Accounted (State.resetWith cfg tr) := by
  have hstats : ∀ c, (State.resetWith cfg tr).stats.get c = Stats.reset := fun c => Quad.get_rep _ c
  have hpc : ∀ c, (State.resetWith cfg tr).pc.get c = 0 := fun c => Quad.get_rep _ c
  refine .inr ⟨fun c => ?instructions, ?misses, fun c => ?cycles⟩
  case instructions => simp [hstats, hpc, Stats.reset]
  case misses => simp [MissesBounded, hstats, Stats.reset]
  case cycles => simp [hstats, Stats.reset]

/-- Settles O52: the plain reset state is the reset of the scenario configuration, which is accepted, with empty
traces, which fit. -/
theorem resetHasTheInvariants : Obligations.ResetHasTheInvariants := by
  unfold Obligations.ResetHasTheInvariants
  have hreset : ∀ (cfg : Config) (tr : Quad (List ReqWord)), cfg.legal = true →
      (∀ c, traceFits (tr.get c) = true) →
      Shaped (State.resetWith cfg tr) ∧ RunSafe (State.resetWith cfg tr) ∧ Accounted (State.resetWith cfg tr) :=
    fun cfg tr hcfg htr => ⟨resetWith_shaped hcfg htr, resetWith_runSafe cfg tr, resetWith_accounted cfg tr⟩
  exact ⟨hreset, hreset Config.scenario (Quad.rep []) (by decide) (by decide)⟩

end Sys2Proof.Machine
end

section
/-! PROOFS. The two states that no rule speaks of (O26, logs 9 and 10): a BusUpgr to be performed by a core without a
SHARED copy, and a snoop that needs the source cache of a bus record with `src_core` −1. -/

namespace Sys2Proof.Machine

/-- A BusUpgr is performed only on a SHARED line of its core: neither without a copy nor on another state
(log 10). -/
theorem execBusUpgr_of_not_shared {s : State} {c : CoreId} {a : Addr} (hf : s.faultCode = .fNone)
    (hav : s.bus.available = true) (hshared : s.mesiOf c (setOf s.cfg a) (tagOf s.cfg a) ≠ .shared) :
    exec (.busUpgr c a) s = .refused .upgradeNotShared := by
  cases hk : s.lookup c (setOf s.cfg a) (tagOf s.cfg a) with
  | none => simp [exec, execBusUpgr, hf, hav, hk]
  | some k => simp [exec, execBusUpgr, hf, hav, hk, hshared]

/-- The source cache is read exactly where a BUSRD or BUSRDX phase is started or completed (rules R145,
R147–R162). -/
theorem needsSource_iff {b : Bus} :
    b.needsSource = true ↔ (b.reqType = .busRd ∨ b.reqType = .busRdX) ∧ (b.done = true ∨ b.cyclesRemaining = 0) := by
  cases hreq : b.reqType <;> simp [Bus.needsSource, hreq]

/-- A record names no command exactly where the snoop needs the source cache and `src_core` is −1 (log 9). -/
theorem command_eq_none_iff {b : Bus} : b.command = none ↔ b.srcCore = none ∧ b.needsSource = true := by
  cases hsrc : b.srcCore <;> simp [Bus.command, hsrc]

/-- A snoop of a busy bus that names no command is refused before it reads anything else, the fault register
included. -/
theorem snoop_of_no_command {s : State} (hbusy : s.bus.available = false) (hcommand : s.bus.command = none) :
    snoop s = .refused .noBusSource := by
  simp [snoop, snoopLoop, hbusy, hcommand]

/-- Settles O26: the BusUpgr finds no SHARED line to upgrade, and the sourceless record names no command. -/
theorem statesWithoutARuleAreRefused : Obligations.StatesWithoutARuleAreRefused := by
  unfold Obligations.StatesWithoutARuleAreRefused
  refine ⟨fun s c a => execBusUpgr_of_not_shared, fun s hbusy hsrc hreq hphase => ?_⟩
  have hneeds : s.bus.needsSource = true := needsSource_iff.mpr ⟨hreq, hphase⟩
  exact snoop_of_no_command hbusy (command_eq_none_iff.mpr ⟨hsrc, hneeds⟩)

end Sys2Proof.Machine
end
